-- ==== Sys2Proof/Word.lean ====
section
/-! DEFINITION. The word types of the machine: bytes, 16-bit words, 32-bit doublewords and 3-bit register numbers. -/

namespace Sys2Proof

/-- A byte, 8 bits (00_scope.md R18). -/
abbrev Byte := BitVec 8

/-- A doubleword, 32 bits: the width of a general register and of a linear address (R5, R21). -/
abbrev Word := BitVec 32

/-- A 3-bit register number, as the `reg`, `r/m`, `base` and `index` fields hold it (10_state.md R21). -/
abbrev RegNum := BitVec 3

end Sys2Proof
end

