-- ==== Sys2Proof/Syntax.lean ====
section
/-! DEFINITION. The instructions: one constructor of `Instr` for each row of spec/opcode_table.json, with their
operand forms. The forms keep every choice the encoding leaves (which displacement width, SIB or not), since
30_encoding.md R114 says a decoder must accept each, and the length of the instruction depends on it. -/

namespace Sys2Proof

/-- The six segment registers (10_state.md R30, R31). -/
inductive SReg where
  | es | cs | ss | ds | fs | gs
  deriving DecidableEq, Repr

/-- The operand size of a `w`=1 instruction (30_encoding.md R103): 16 bits, or 32 with a 66h prefix. -/
inductive OpSize where
  | o16
  | o32
  deriving DecidableEq, Repr

/-- The displacement of a 16-bit addressing form that has base or index registers (R105, R111). -/
inductive Disp16 where
  | none
  | d8 (d : Byte)
  | d16 (d : BitVec 16)
  deriving DecidableEq, Repr

/-- The displacement of a 32-bit addressing form that has a base register (R106, R111). -/
inductive Disp32 where
  | none
  | d8 (d : Byte)
  | d32 (d : Word)
  deriving DecidableEq, Repr

/-- The register part of a 16-bit addressing form: the eight rows of R105 in the order of `r/m`. -/
inductive Form16 where
  | bxSi | bxDi | bpSi | bpDi | si | di | bp | bx
  deriving DecidableEq, Repr

/-- A memory operand named by `mod`, `r/m` and, in 32-bit address mode, a SIB byte. -/
inductive MemOp where
  /-- 16-bit address mode, a row of R105 with registers. -/
  | form16 (f : Form16) (d : Disp16)
  /-- 16-bit address mode, `mod`=00b, `r/m`=110b: the displacement alone (R105). -/
  | direct16 (d : BitVec 16)
  /-- 32-bit address mode without a SIB byte, a row of R106 with a base register. -/
  | base32 (b : RegNum) (d : Disp32)
  /-- 32-bit address mode, `mod`=00b, `r/m`=101b: the displacement alone (R106). -/
  | direct32 (d : Word)
  /-- 32-bit address mode with a SIB byte and a base register; no index register is `none`, index 100b (R107, R108). -/
  | sib (scale : BitVec 2) (index : Option RegNum) (base : RegNum) (d : Disp32)
  /-- 32-bit address mode with a SIB byte, `base`=101b and `mod`=00b: no base register (R108 (b)). -/
  | sibNoBase (scale : BitVec 2) (index : Option RegNum) (d : Word)
  deriving DecidableEq, Repr

/-- The `mod`+`r/m` operand (R120, 41_mov.md R169): a register by its number, or a memory operand. -/
inductive Rm where
  | reg (i : RegNum)
  | mem (m : MemOp)
  deriving DecidableEq, Repr

/-- The offset held in a memory-offset form (42_mov_other_forms.md R183): its width follows the address size. -/
inductive Moffs where
  | m16 (a : BitVec 16)
  | m32 (a : Word)
  deriving DecidableEq, Repr

/-- The immediate of a `w`=1 form (R112): its width follows the operand size. -/
inductive ImmW where
  | i16 (v : BitVec 16)
  | i32 (v : Word)
  deriving DecidableEq, Repr

/-- The operands of 8Ch and 8Eh. `valid` names a segment register; `invalid` keeps the three fields of an
addressing-mode byte whose `reg` field names no register the form can take (R113 (b), (c)): such an encoding does not
fetch its remaining bytes (60_exceptions.md R227; log 20). -/
inductive SregOps where
  | valid (sr : SReg) (rm : Rm)
  | invalid (md : BitVec 2) (reg : BitVec 3) (rm : BitVec 3)
  deriving DecidableEq, Repr

/-- The instructions of spec/opcode_table.json, one constructor a row. The destination operand comes first, as the
source writes it (30_encoding.md R117). -/
inductive Instr where
  /-- 66h (R101). -/
  | prefixOperandSize
  /-- 67h (R101). -/
  | prefixAddressSize
  /-- 26h (R102). -/
  | prefixEs
  /-- 2Eh (R102). -/
  | prefixCs
  /-- 36h (R102). -/
  | prefixSs
  /-- 3Eh (R102). -/
  | prefixDs
  /-- 64h (R102). -/
  | prefixFs
  /-- 65h (R102). -/
  | prefixGs
  /-- F0h (R113). -/
  | prefixLock
  /-- F2h (R102). -/
  | prefixRepne
  /-- F3h (R102). -/
  | prefixRep
  /-- MOV r/m8,r8, 88h (R161). -/
  | movRm8R8 (rm : Rm) (reg : RegNum)
  /-- MOV r/m16,r16 and MOV r/m32,r32, 89h (R162). -/
  | movRmR (sz : OpSize) (rm : Rm) (reg : RegNum)
  /-- MOV r8,r/m8, 8Ah (R163). -/
  | movR8Rm8 (reg : RegNum) (rm : Rm)
  /-- MOV r16,r/m16 and MOV r32,r/m32, 8Bh (R164). -/
  | movRRm (sz : OpSize) (reg : RegNum) (rm : Rm)
  /-- MOV r/m16,sreg, 8Ch (R181). -/
  | movRm16Sreg (sz : OpSize) (ops : SregOps)
  /-- MOV sreg,r/m16, 8Eh (R182). -/
  | movSregRm16 (ops : SregOps)
  /-- MOV AL,[moffs], A0h (R183). -/
  | movAlMoffs (a : Moffs)
  /-- MOV AX,[moffs] and MOV EAX,[moffs], A1h (R184). -/
  | movAxMoffs (sz : OpSize) (a : Moffs)
  /-- MOV [moffs],AL, A2h (R185). -/
  | movMoffsAl (a : Moffs)
  /-- MOV [moffs],AX and MOV [moffs],EAX, A3h (R186). -/
  | movMoffsAx (sz : OpSize) (a : Moffs)
  /-- MOV r8,imm8, B0h to B7h (R165). -/
  | movR8Imm8 (reg : RegNum) (imm : Byte)
  /-- MOV r16,imm16 and MOV r32,imm32, B8h to BFh (R166). -/
  | movRImm (reg : RegNum) (imm : ImmW)
  /-- MOV r/m8,imm8, C6h /0 (R167). -/
  | movRm8Imm8 (rm : Rm) (imm : Byte)
  /-- C6h with a `reg` field other than 000b, reserved (R113 (a)). -/
  | reservedC6 (md : BitVec 2) (reg : BitVec 3) (rm : BitVec 3)
  /-- MOV r/m16,imm16 and MOV r/m32,imm32, C7h /0 (R168). -/
  | movRmImm (rm : Rm) (imm : ImmW)
  /-- C7h with a `reg` field other than 000b, reserved (R113 (a)). -/
  | reservedC7 (md : BitVec 2) (reg : BitVec 3) (rm : BitVec 3)
  /-- The breakpoint instruction, CCh (43_breakpoint.md R200). -/
  | breakpoint
  /-- LTR r/m16, 0Fh 00h /3 (40_ltr.md R150, R151). -/
  | ltr (md : BitVec 2) (rm : BitVec 3)
  /-- MOV r32,CRn, 0Fh 20h (R188). -/
  | movRCr (md : BitVec 2) (n : BitVec 3) (reg : RegNum)
  /-- MOV CRn,r32, 0Fh 22h (R189). -/
  | movCrR (md : BitVec 2) (n : BitVec 3) (reg : RegNum)
  /-- MOV r32,DRn, 0Fh 21h (R190). -/
  | movRDr (md : BitVec 2) (n : BitVec 3) (reg : RegNum)
  /-- MOV DRn,r32, 0Fh 23h (R191). -/
  | movDrR (md : BitVec 2) (n : BitVec 3) (reg : RegNum)
  /-- MOV r32,TRn, 0Fh 24h (R192). -/
  | movRTr (md : BitVec 2) (n : BitVec 3) (reg : RegNum)
  /-- MOV TRn,r32, 0Fh 26h (R193). -/
  | movTrR (md : BitVec 2) (n : BitVec 3) (reg : RegNum)
  deriving DecidableEq, Repr

/-- The variables of the decoder loop of R110 that live across the bytes of one instruction: what the prefix bytes
read so far have set, and how many there were. -/
structure Prefixes where
  op32 : Bool
  ad32 : Bool
  seg : Option SReg
  lock : Bool
  rep : Bool
  count : Nat
  deriving DecidableEq, Repr

/-- The loop's variables before the first byte of an instruction (R110, first line). -/
def Prefixes.none : Prefixes where
  op32 := false
  ad32 := false
  seg := Option.none
  lock := false
  rep := false
  count := 0

/-- The operand size a `w`=1 instruction has under these prefixes (R103). -/
def Prefixes.opSize (p : Prefixes) : OpSize := if p.op32 then .o32 else .o16

end Sys2Proof
end

