-- ==== Sys2Proof/WellFormed.lean ====
section
/-! DEFINITION. Which terms of `Instr` are instructions the encoding can hold, and which prefixes they need. -/

namespace Sys2Proof

/-- Whether the form has no displacement field. -/
def Disp16.isNone : Disp16 → Bool
  | .none => true
  | _ => false

/-- Whether the form has no displacement field. -/
def Disp32.isNone : Disp32 → Bool
  | .none => true
  | _ => false

/-- An index field: `some 100b` does not exist, since 100b means no index; without an index the scale must be 00b
(30_encoding.md R108 (a)). -/
def indexWf (scale : BitVec 2) : Option RegNum → Bool
  | some i => i != 4#3
  | none => scale == 0#2

/-- The memory operands an encoding can hold (R105 to R108). `[BP]` without a displacement, `[EBP]` without one and a
base 100b without a SIB byte have no encoding of their own, their places being taken by other forms. -/
def MemOp.wf : MemOp → Bool
  | .form16 f d => !(f == .bp && d.isNone)
  | .direct16 _ => true
  | .base32 b d => b != 4#3 && !(b == 5#3 && d.isNone)
  | .direct32 _ => true
  | .sib scale index base d => indexWf scale index && !(base == 5#3 && d.isNone)
  | .sibNoBase scale index _ => indexWf scale index

/-- The `mod`+`r/m` operands an encoding can hold. -/
def Rm.wf : Rm → Bool
  | .reg _ => true
  | .mem m => m.wf

/-- The operands of 8Ch: every segment register may be the source; 110b and 111b name none (R181, R113 (b)). -/
def SregOps.sourceWf : SregOps → Bool
  | .valid _ rm => rm.wf
  | .invalid _ reg _ => reg == 6#3 || reg == 7#3

/-- The operands of 8Eh: CS cannot be the destination, and 110b and 111b name no register (R182, R113 (b), (c)). -/
def SregOps.destWf : SregOps → Bool
  | .valid sr rm => sr != .cs && rm.wf
  | .invalid _ reg _ => reg == 1#3 || reg == 6#3 || reg == 7#3

/-- The instructions an encoding can hold. -/
def Instr.wf : Instr → Bool
  | .prefixOperandSize | .prefixAddressSize | .prefixEs | .prefixCs | .prefixSs | .prefixDs | .prefixFs | .prefixGs
  | .prefixLock | .prefixRepne | .prefixRep => true
  | .movRm8R8 rm _ => rm.wf
  | .movRmR _ rm _ => rm.wf
  | .movR8Rm8 _ rm => rm.wf
  | .movRRm _ _ rm => rm.wf
  | .movRm16Sreg _ ops => ops.sourceWf
  | .movSregRm16 ops => ops.destWf
  | .movAlMoffs _ | .movAxMoffs _ _ | .movMoffsAl _ | .movMoffsAx _ _ => true
  | .movR8Imm8 _ _ | .movRImm _ _ => true
  | .movRm8Imm8 rm _ => rm.wf
  | .reservedC6 _ reg _ => reg != 0#3
  | .movRmImm rm _ => rm.wf
  | .reservedC7 _ reg _ => reg != 0#3
  | .breakpoint => true
  | .ltr _ _ => true
  | .movRCr _ _ _ | .movCrR _ _ _ | .movRDr _ _ _ | .movDrR _ _ _ | .movRTr _ _ _ | .movTrR _ _ _ => true

/-- Whether the operand is of a 32-bit addressing form (67h present), where that shows (R104). -/
def MemOp.addr32 : MemOp → Bool
  | .form16 _ _ | .direct16 _ => false
  | .base32 _ _ | .direct32 _ | .sib _ _ _ _ | .sibNoBase _ _ _ => true

/-- The address size the operand needs, if it needs one. -/
def Rm.addr32? : Rm → Option Bool
  | .reg _ => none
  | .mem m => some m.addr32

/-- The address size the operands need, if they need one. -/
def SregOps.addr32? : SregOps → Option Bool
  | .valid _ rm => rm.addr32?
  | .invalid _ _ _ => none

/-- The address size a memory offset needs. -/
def Moffs.addr32 : Moffs → Bool
  | .m16 _ => false
  | .m32 _ => true

/-- The operand size an immediate has (R112). -/
def ImmW.size : ImmW → OpSize
  | .i16 _ => .o16
  | .i32 _ => .o32

/-- The address size the instruction needs, if its words depend on one (R104). -/
def Instr.addr32? : Instr → Option Bool
  | .prefixOperandSize | .prefixAddressSize | .prefixEs | .prefixCs | .prefixSs | .prefixDs | .prefixFs | .prefixGs
  | .prefixLock | .prefixRepne | .prefixRep => none
  | .movRm8R8 rm _ => rm.addr32?
  | .movRmR _ rm _ => rm.addr32?
  | .movR8Rm8 _ rm => rm.addr32?
  | .movRRm _ _ rm => rm.addr32?
  | .movRm16Sreg _ ops => ops.addr32?
  | .movSregRm16 ops => ops.addr32?
  | .movAlMoffs a => some a.addr32
  | .movAxMoffs _ a => some a.addr32
  | .movMoffsAl a => some a.addr32
  | .movMoffsAx _ a => some a.addr32
  | .movR8Imm8 _ _ | .movRImm _ _ => none
  | .movRm8Imm8 rm _ => rm.addr32?
  | .reservedC6 _ _ _ => none
  | .movRmImm rm _ => rm.addr32?
  | .reservedC7 _ _ _ => none
  | .breakpoint => none
  | .ltr _ _ => none
  | .movRCr _ _ _ | .movCrR _ _ _ | .movRDr _ _ _ | .movDrR _ _ _ | .movRTr _ _ _ | .movTrR _ _ _ => none

/-- The operand size the instruction needs, if it has a `w`=1 operand (R103). -/
def Instr.opSize? : Instr → Option OpSize
  | .prefixOperandSize | .prefixAddressSize | .prefixEs | .prefixCs | .prefixSs | .prefixDs | .prefixFs | .prefixGs
  | .prefixLock | .prefixRepne | .prefixRep => none
  | .movRm8R8 _ _ => none
  | .movRmR sz _ _ => some sz
  | .movR8Rm8 _ _ => none
  | .movRRm sz _ _ => some sz
  | .movRm16Sreg sz _ => some sz
  | .movSregRm16 _ => none
  | .movAlMoffs _ => none
  | .movAxMoffs sz _ => some sz
  | .movMoffsAl _ => none
  | .movMoffsAx sz _ => some sz
  | .movR8Imm8 _ _ => none
  | .movRImm _ imm => some imm.size
  | .movRm8Imm8 _ _ => none
  | .reservedC6 _ _ _ => none
  | .movRmImm _ imm => some imm.size
  | .reservedC7 _ _ _ => none
  | .breakpoint => none
  | .ltr _ _ => none
  | .movRCr _ _ _ | .movCrR _ _ _ | .movRDr _ _ _ | .movDrR _ _ _ | .movRTr _ _ _ | .movTrR _ _ _ => none

/-- Whether the constructor is a prefix byte rather than an instruction's opcode. -/
def Instr.isPrefix : Instr → Bool
  | .prefixOperandSize | .prefixAddressSize | .prefixEs | .prefixCs | .prefixSs | .prefixDs | .prefixFs | .prefixGs
  | .prefixLock | .prefixRepne | .prefixRep => true
  | .movRm8R8 _ _ | .movRmR _ _ _ | .movR8Rm8 _ _ | .movRRm _ _ _ | .movRm16Sreg _ _ | .movSregRm16 _
  | .movAlMoffs _ | .movAxMoffs _ _ | .movMoffsAl _ | .movMoffsAx _ _ | .movR8Imm8 _ _ | .movRImm _ _
  | .movRm8Imm8 _ _ | .reservedC6 _ _ _ | .movRmImm _ _ | .reservedC7 _ _ _ | .breakpoint | .ltr _ _
  | .movRCr _ _ _ | .movCrR _ _ _ | .movRDr _ _ _ | .movDrR _ _ _ | .movRTr _ _ _ | .movTrR _ _ _ => false

/-- The six special-register moves, 0Fh 20h to 0Fh 24h and 0Fh 26h (42_mov_other_forms.md R187). -/
def Instr.isSpecialMove : Instr → Bool
  | .movRCr _ _ _ | .movCrR _ _ _ | .movRDr _ _ _ | .movDrR _ _ _ | .movRTr _ _ _ | .movTrR _ _ _ => true
  | .prefixOperandSize | .prefixAddressSize | .prefixEs | .prefixCs | .prefixSs | .prefixDs | .prefixFs | .prefixGs
  | .prefixLock | .prefixRepne | .prefixRep | .movRm8R8 _ _ | .movRmR _ _ _ | .movR8Rm8 _ _ | .movRRm _ _ _
  | .movRm16Sreg _ _ | .movSregRm16 _ | .movAlMoffs _ | .movAxMoffs _ _ | .movMoffsAl _ | .movMoffsAx _ _
  | .movR8Imm8 _ _ | .movRImm _ _ | .movRm8Imm8 _ _ | .reservedC6 _ _ _ | .movRmImm _ _ | .reservedC7 _ _ _
  | .breakpoint | .ltr _ _ => false

/-- The prefixes read before the instruction give the sizes it was decoded with: its words are those of this
instruction under them (R101, R103, R104). A lock or repeat prefix lets no instruction through (R113 (d), R102). -/
def Prefixes.fit (p : Prefixes) (i : Instr) : Prop :=
  (∀ sz, i.opSize? = some sz → sz = p.opSize) ∧ (∀ a, i.addr32? = some a → a = p.ad32) ∧
  (i.isPrefix = false → p.lock = false ∧ p.rep = false)

end Sys2Proof
end

