-- ==== Sys2Proof/Decode.lean ====
section
/-! DEFINITION. The decoder: from the bytes at the running fetch offset to an instruction, a request for more bytes, an
invalid-opcode exception or a refusal by name (30_encoding.md R100 to R121); after it the encoder, written from the
same encoding rows, and the lengths of the forms.

A prefix byte is decoded as an instruction of its own, which sets the variables of R110's loop (assumption log 1);
`Prefixes` is what the prefix bytes before have set. -/

namespace Sys2Proof

/-! ## Fields -/

/-- `mod`, bits 7:6 of the addressing-mode byte (R120); `scale` of the SIB byte (R107). -/
def field76 (b : Byte) : BitVec 2 := b.extractLsb' 6 2

/-- `reg`, bits 5:3 of the addressing-mode byte (R120); `index` of the SIB byte (R107). -/
def field53 (b : Byte) : BitVec 3 := b.extractLsb' 3 3

/-- `r/m`, bits 2:0 of the addressing-mode byte (R120); `base` of the SIB byte (R107). -/
def field20 (b : Byte) : BitVec 3 := b.extractLsb' 0 3

/-- The byte with the three fields, the leftmost the most significant (00_scope.md R6, R7). -/
def packFields (a : BitVec 2) (b c : BitVec 3) : Byte := a ++ b ++ c

/-- The segment register a 3-bit number names, if it names one (10_state.md R31). -/
def SReg.ofCode (n : BitVec 3) : Option SReg :=
  if n = 0#3 then some .es else if n = 1#3 then some .cs else if n = 2#3 then some .ss
  else if n = 3#3 then some .ds else if n = 4#3 then some .fs else if n = 5#3 then some .gs else none

/-- The number of a segment register (10_state.md R31). -/
def SReg.code : SReg → BitVec 3
  | .es => 0#3
  | .cs => 1#3
  | .ss => 2#3
  | .ds => 3#3
  | .fs => 4#3
  | .gs => 5#3

/-- The row of R105 an `r/m` value selects. -/
def Form16.ofCode (n : BitVec 3) : Form16 :=
  if n = 0#3 then .bxSi else if n = 1#3 then .bxDi else if n = 2#3 then .bpSi else if n = 3#3 then .bpDi
  else if n = 4#3 then .si else if n = 5#3 then .di else if n = 6#3 then .bp else .bx

/-- The `r/m` value of a row of R105. -/
def Form16.code : Form16 → BitVec 3
  | .bxSi => 0#3
  | .bxDi => 1#3
  | .bpSi => 2#3
  | .bpDi => 3#3
  | .si => 4#3
  | .di => 5#3
  | .bp => 6#3
  | .bx => 7#3

/-- The index register a SIB byte's `index` field names: 100b is none (R108 (a)). -/
def indexOfCode (n : BitVec 3) : Option RegNum := if n = 4#3 then none else some n

/-- The `index` field of an index register, or of none (R108 (a)). -/
def indexCode : Option RegNum → BitVec 3
  | some i => i
  | none => 4#3

/-! ## Results -/

/-- Why the decoder refuses. -/
inductive DecodeRefusal where
  /-- R113 (i), R115: a first byte, a second byte after 0Fh or a `reg` field after 0Fh 00h outside the spec. -/
  | opcodeNotInSpec
  /-- R108 (a): a SIB byte with `index`=100b and `scale` other than 00b. -/
  | sibNoIndexWithScale
  /-- R102: a repeat prefix before an instruction of the spec. -/
  | repPrefix
  deriving DecidableEq, Repr

/-- What the decoder answers on a list of bytes. -/
inductive Decoded where
  /-- The instruction and the bytes after it. -/
  | instr (i : Instr) (rest : List Byte)
  /-- The bytes end before the instruction does. -/
  | truncated
  /-- A lock prefix before an instruction of the spec: InvalidOpcode (R113 (d)). -/
  | invalidOpcode
  /-- The spec gives the bytes no meaning. -/
  | refused (r : DecodeRefusal)
  deriving DecidableEq, Repr

/-- Whether the decoder read a special-register move. -/
def Decoded.isSpecialMove : Decoded → Bool
  | .instr i _ => i.isSpecialMove
  | .truncated | .invalidOpcode | .refused _ => false

/-- A part of an instruction read from a list of bytes. -/
inductive Parsed (α : Type) where
  | ok (a : α) (rest : List Byte)
  | truncated
  | refused (r : DecodeRefusal)
  deriving Repr

/-- Read on after a part that was read. -/
def Parsed.thenRead {α β : Type} : Parsed α → (α → List Byte → Parsed β) → Parsed β
  | .ok a rest, f => f a rest
  | .truncated, _ => .truncated
  | .refused r, _ => .refused r

/-- The instruction that the parts make up. -/
def Parsed.toDecoded {α : Type} (f : α → Instr) : Parsed α → Decoded
  | .ok a rest => .instr (f a) rest
  | .truncated => .truncated
  | .refused r => .refused r

/-! ## Displacement, immediate, operand -/

/-- One byte. -/
def take8 : List Byte → Parsed Byte
  | b :: rest => .ok b rest
  | [] => .truncated

/-- Two bytes, low byte first (20_memory.md R60). -/
def take16 : List Byte → Parsed (BitVec 16)
  | b0 :: b1 :: rest => .ok (b1 ++ b0) rest
  | _ => .truncated

/-- Four bytes, low byte first (20_memory.md R60). -/
def take32 : List Byte → Parsed Word
  | b0 :: b1 :: b2 :: b3 :: rest => .ok (b3 ++ b2 ++ b1 ++ b0) rest
  | _ => .truncated

/-- The displacement `mod` calls for in a 16-bit form with registers (R105, R120). -/
def takeDisp16 (md : BitVec 2) (bs : List Byte) : Parsed Disp16 :=
  if md = 1#2 then (take8 bs).thenRead fun d rest => .ok (.d8 d) rest
  else if md = 2#2 then (take16 bs).thenRead fun d rest => .ok (.d16 d) rest
  else .ok .none bs

/-- The displacement `mod` calls for in a 32-bit form with a base register (R106, R120). -/
def takeDisp32 (md : BitVec 2) (bs : List Byte) : Parsed Disp32 :=
  if md = 1#2 then (take8 bs).thenRead fun d rest => .ok (.d8 d) rest
  else if md = 2#2 then (take32 bs).thenRead fun d rest => .ok (.d32 d) rest
  else .ok .none bs

/-- The memory operand of 16-bit address mode (R105). -/
def decodeMem16 (md : BitVec 2) (rm : BitVec 3) (bs : List Byte) : Parsed MemOp :=
  if md = 0#2 ∧ rm = 6#3 then (take16 bs).thenRead fun d rest => .ok (.direct16 d) rest
  else (takeDisp16 md bs).thenRead fun d rest => .ok (.form16 (Form16.ofCode rm) d) rest

/-- The memory operand behind a SIB byte (R107, R108). A SIB byte with `index`=100b and a scale is refused as soon as it
is read, before its displacement and immediate are fetched: the spec does not place this refusal among the checks of
60_exceptions.md R227 (DESIGN CHOICE, log 20). -/
def decodeSib (md : BitVec 2) (sib : Byte) (bs : List Byte) : Parsed MemOp :=
  if field53 sib = 4#3 ∧ field76 sib ≠ 0#2 then .refused .sibNoIndexWithScale
  else if md = 0#2 ∧ field20 sib = 5#3 then
    (take32 bs).thenRead fun d rest => .ok (.sibNoBase (field76 sib) (indexOfCode (field53 sib)) d) rest
  else (takeDisp32 md bs).thenRead fun d rest =>
    .ok (.sib (field76 sib) (indexOfCode (field53 sib)) (field20 sib) d) rest

/-- The memory operand of 32-bit address mode (R106). -/
def decodeMem32 (md : BitVec 2) (rm : BitVec 3) (bs : List Byte) : Parsed MemOp :=
  if rm = 4#3 then (take8 bs).thenRead (decodeSib md)
  else if md = 0#2 ∧ rm = 5#3 then (take32 bs).thenRead fun d rest => .ok (.direct32 d) rest
  else (takeDisp32 md bs).thenRead fun d rest => .ok (.base32 rm d) rest

/-- The `mod`+`r/m` operand (R104, R120). -/
def decodeRm (p : Prefixes) (md : BitVec 2) (rm : BitVec 3) (bs : List Byte) : Parsed Rm :=
  if md = 3#2 then .ok (.reg rm) bs
  else (if p.ad32 then decodeMem32 md rm bs else decodeMem16 md rm bs).thenRead fun m rest => .ok (.mem m) rest

/-- The immediate of a `w`=1 form (R112). -/
def decodeImmW (p : Prefixes) (bs : List Byte) : Parsed ImmW :=
  match p.opSize with
  | .o16 => (take16 bs).thenRead fun v rest => .ok (.i16 v) rest
  | .o32 => (take32 bs).thenRead fun v rest => .ok (.i32 v) rest

/-- The offset of a memory-offset form (42_mov_other_forms.md R183). -/
def decodeMoffs (p : Prefixes) (bs : List Byte) : Parsed Moffs :=
  if p.ad32 then (take32 bs).thenRead fun a rest => .ok (.m32 a) rest
  else (take16 bs).thenRead fun a rest => .ok (.m16 a) rest

/-- The operands of 8Ch: `reg` 110b and 111b name no segment register (R181). -/
def decodeSregSource (p : Prefixes) (md : BitVec 2) (reg rm : BitVec 3) (bs : List Byte) : Parsed SregOps :=
  match SReg.ofCode reg with
  | none => .ok (.invalid md reg rm) bs
  | some sr => (decodeRm p md rm bs).thenRead fun op rest => .ok (.valid sr op) rest

/-- The operands of 8Eh: `reg` 001b (CS), 110b and 111b name no destination (R182). -/
def decodeSregDest (p : Prefixes) (md : BitVec 2) (reg rm : BitVec 3) (bs : List Byte) : Parsed SregOps :=
  if reg = 1#3 then .ok (.invalid md reg rm) bs else decodeSregSource p md reg rm bs

/-! ## The opcode map -/

/-- What the prefixes read before do to an instruction of the spec, once its opcode and its addressing-mode byte are
read (R102, R113 (d), 60_exceptions.md R227 (2)). The refusal of a repeat prefix is tried before the exception of a
lock prefix, and before the InvalidOpcode of an encoding that is no instruction: C6h and C7h with another `reg` than
000b, 8Ch and 8Eh with a bad one (DESIGN CHOICE, safe, log 10). Both are tried before the refusal of a form whose
switch is off, which comes only when the form is run (DESIGN CHOICE, log 25). -/
def gatePrefixes (p : Prefixes) (d : Decoded) : Decoded :=
  if p.rep then .refused .repPrefix else if p.lock then .invalidOpcode else d

/-- Read the addressing-mode byte, then let the prefixes have their say, then go on (R120, R227). -/
def withModRm (p : Prefixes) (bs : List Byte) (k : BitVec 2 → BitVec 3 → BitVec 3 → List Byte → Decoded) : Decoded :=
  match bs with
  | [] => .truncated
  | b :: rest => gatePrefixes p (k (field76 b) (field53 b) (field20 b) rest)

/-- 0Fh 00h: LTR when `reg` is 011b; the other values are outside the spec (R115, R150). -/
def decode0F00 (p : Prefixes) (bs : List Byte) : Decoded :=
  match bs with
  | [] => .truncated
  | b :: rest =>
    if field53 b = 3#3 then gatePrefixes p (.instr (.ltr (field76 b) (field20 b)) rest)
    else .refused .opcodeNotInSpec

/-- The two-byte opcodes (R115). The special-register moves fetch neither SIB byte nor displacement, whatever `mod`
says (R187, R194). -/
def decode0F (p : Prefixes) (bs : List Byte) : Decoded :=
  match bs with
  | [] => .truncated
  | b :: rest =>
    if b = 0x00#8 then decode0F00 p rest
    else if b = 0x20#8 then withModRm p rest fun md n r rest => .instr (.movRCr md n r) rest
    else if b = 0x21#8 then withModRm p rest fun md n r rest => .instr (.movRDr md n r) rest
    else if b = 0x22#8 then withModRm p rest fun md n r rest => .instr (.movCrR md n r) rest
    else if b = 0x23#8 then withModRm p rest fun md n r rest => .instr (.movDrR md n r) rest
    else if b = 0x24#8 then withModRm p rest fun md n r rest => .instr (.movRTr md n r) rest
    else if b = 0x26#8 then withModRm p rest fun md n r rest => .instr (.movTrR md n r) rest
    else .refused .opcodeNotInSpec

/-- C6h: `reg` 000b is MOV r/m8,imm8, the other values are reserved (R113 (a), R167). -/
def decodeC6 (p : Prefixes) (md : BitVec 2) (reg rm : BitVec 3) (bs : List Byte) : Decoded :=
  if reg = 0#3 then
    ((decodeRm p md rm bs).thenRead fun op rest => (take8 rest).thenRead fun v rest => .ok (op, v) rest).toDecoded
      fun x => .movRm8Imm8 x.1 x.2
  else .instr (.reservedC6 md reg rm) bs

/-- C7h: `reg` 000b is MOV r/m,imm, the other values are reserved (R113 (a), R168). -/
def decodeC7 (p : Prefixes) (md : BitVec 2) (reg rm : BitVec 3) (bs : List Byte) : Decoded :=
  if reg = 0#3 then
    ((decodeRm p md rm bs).thenRead fun op rest => (decodeImmW p rest).thenRead fun v rest => .ok (op, v) rest).toDecoded
      fun x => .movRmImm x.1 x.2
  else .instr (.reservedC7 md reg rm) bs

/-- The forms whose opcode byte holds the register in bits 2:0, B0h to BFh (R119, R165, R166); every other first byte
is outside the spec. -/
def decodeRegImm (p : Prefixes) (b : Byte) (rest : List Byte) : Decoded :=
  if b.extractLsb' 3 5 = 0b10110#5 then
    gatePrefixes p ((take8 rest).toDecoded fun v => .movR8Imm8 (field20 b) v)
  else if b.extractLsb' 3 5 = 0b10111#5 then
    gatePrefixes p ((decodeImmW p rest).toDecoded fun v => .movRImm (field20 b) v)
  else .refused .opcodeNotInSpec

/-- The one-byte opcodes other than prefixes (R115). -/
def decodeOpcode (p : Prefixes) (b : Byte) (rest : List Byte) : Decoded :=
  if b = 0x88#8 then
    withModRm p rest fun md reg rm rest => (decodeRm p md rm rest).toDecoded fun op => .movRm8R8 op reg
  else if b = 0x89#8 then
    withModRm p rest fun md reg rm rest => (decodeRm p md rm rest).toDecoded fun op => .movRmR p.opSize op reg
  else if b = 0x8A#8 then
    withModRm p rest fun md reg rm rest => (decodeRm p md rm rest).toDecoded fun op => .movR8Rm8 reg op
  else if b = 0x8B#8 then
    withModRm p rest fun md reg rm rest => (decodeRm p md rm rest).toDecoded fun op => .movRRm p.opSize reg op
  else if b = 0x8C#8 then
    withModRm p rest fun md reg rm rest =>
      (decodeSregSource p md reg rm rest).toDecoded fun ops => .movRm16Sreg p.opSize ops
  else if b = 0x8E#8 then
    withModRm p rest fun md reg rm rest => (decodeSregDest p md reg rm rest).toDecoded fun ops => .movSregRm16 ops
  else if b = 0xA0#8 then gatePrefixes p ((decodeMoffs p rest).toDecoded fun a => .movAlMoffs a)
  else if b = 0xA1#8 then gatePrefixes p ((decodeMoffs p rest).toDecoded fun a => .movAxMoffs p.opSize a)
  else if b = 0xA2#8 then gatePrefixes p ((decodeMoffs p rest).toDecoded fun a => .movMoffsAl a)
  else if b = 0xA3#8 then gatePrefixes p ((decodeMoffs p rest).toDecoded fun a => .movMoffsAx p.opSize a)
  else if b = 0xC6#8 then withModRm p rest (decodeC6 p)
  else if b = 0xC7#8 then withModRm p rest (decodeC7 p)
  else if b = 0xCC#8 then gatePrefixes p (.instr .breakpoint rest)
  else if b = 0x0F#8 then decode0F p rest
  else decodeRegImm p b rest

/-- The decoder of R110, total on any bytes: a prefix byte (R101, R102), or an opcode. -/
def decode (p : Prefixes) (bs : List Byte) : Decoded :=
  match bs with
  | [] => .truncated
  | b :: rest =>
    if b = 0x66#8 then .instr .prefixOperandSize rest
    else if b = 0x67#8 then .instr .prefixAddressSize rest
    else if b = 0x26#8 then .instr .prefixEs rest
    else if b = 0x2E#8 then .instr .prefixCs rest
    else if b = 0x36#8 then .instr .prefixSs rest
    else if b = 0x3E#8 then .instr .prefixDs rest
    else if b = 0x64#8 then .instr .prefixFs rest
    else if b = 0x65#8 then .instr .prefixGs rest
    else if b = 0xF0#8 then .instr .prefixLock rest
    else if b = 0xF2#8 then .instr .prefixRepne rest
    else if b = 0xF3#8 then .instr .prefixRep rest
    else decodeOpcode p b rest

/-! ## The encoder -/

/-- The two bytes of a word, low byte first (20_memory.md R60). -/
def bytes16 (v : BitVec 16) : List Byte := [v.extractLsb' 0 8, v.extractLsb' 8 8]

/-- The four bytes of a doubleword, low byte first (20_memory.md R60). -/
def bytes32 (v : Word) : List Byte :=
  [v.extractLsb' 0 8, v.extractLsb' 8 8, v.extractLsb' 16 8, v.extractLsb' 24 8]

/-- `mod` of a displacement (R120). -/
def Disp16.md : Disp16 → BitVec 2
  | .none => 0#2
  | .d8 _ => 1#2
  | .d16 _ => 2#2

/-- The displacement field (R111). -/
def Disp16.encode : Disp16 → List Byte
  | .none => []
  | .d8 d => [d]
  | .d16 d => bytes16 d

/-- `mod` of a displacement (R120). -/
def Disp32.md : Disp32 → BitVec 2
  | .none => 0#2
  | .d8 _ => 1#2
  | .d32 _ => 2#2

/-- The displacement field (R111). -/
def Disp32.encode : Disp32 → List Byte
  | .none => []
  | .d8 d => [d]
  | .d32 d => bytes32 d

/-- The addressing-mode byte with this `reg` field, the SIB byte and the displacement of a memory operand (R100). -/
def MemOp.encode (reg : BitVec 3) : MemOp → List Byte
  | .form16 f d => packFields d.md reg f.code :: d.encode
  | .direct16 d => packFields 0#2 reg 6#3 :: bytes16 d
  | .base32 b d => packFields d.md reg b :: d.encode
  | .direct32 d => packFields 0#2 reg 5#3 :: bytes32 d
  | .sib scale index base d => packFields d.md reg 4#3 :: packFields scale (indexCode index) base :: d.encode
  | .sibNoBase scale index d => packFields 0#2 reg 4#3 :: packFields scale (indexCode index) 5#3 :: bytes32 d

/-- The addressing-mode byte and what follows it for a `mod`+`r/m` operand. -/
def Rm.encode (reg : BitVec 3) : Rm → List Byte
  | .reg i => [packFields 3#2 reg i]
  | .mem m => m.encode reg

/-- The addressing-mode byte and what follows it for the operands of 8Ch and 8Eh. -/
def SregOps.encode : SregOps → List Byte
  | .valid sr rm => rm.encode sr.code
  | .invalid md reg rm => [packFields md reg rm]

/-- The offset field of a memory-offset form (R183). -/
def Moffs.encode : Moffs → List Byte
  | .m16 a => bytes16 a
  | .m32 a => bytes32 a

/-- The immediate field (R112). -/
def ImmW.encode : ImmW → List Byte
  | .i16 v => bytes16 v
  | .i32 v => bytes32 v

/-- The bytes of an instruction after its prefixes, from the encoding rows of R115. -/
def encode : Instr → List Byte
  | .prefixOperandSize => [0x66#8]
  | .prefixAddressSize => [0x67#8]
  | .prefixEs => [0x26#8]
  | .prefixCs => [0x2E#8]
  | .prefixSs => [0x36#8]
  | .prefixDs => [0x3E#8]
  | .prefixFs => [0x64#8]
  | .prefixGs => [0x65#8]
  | .prefixLock => [0xF0#8]
  | .prefixRepne => [0xF2#8]
  | .prefixRep => [0xF3#8]
  | .movRm8R8 rm reg => 0x88#8 :: rm.encode reg
  | .movRmR _ rm reg => 0x89#8 :: rm.encode reg
  | .movR8Rm8 reg rm => 0x8A#8 :: rm.encode reg
  | .movRRm _ reg rm => 0x8B#8 :: rm.encode reg
  | .movRm16Sreg _ ops => 0x8C#8 :: ops.encode
  | .movSregRm16 ops => 0x8E#8 :: ops.encode
  | .movAlMoffs a => 0xA0#8 :: a.encode
  | .movAxMoffs _ a => 0xA1#8 :: a.encode
  | .movMoffsAl a => 0xA2#8 :: a.encode
  | .movMoffsAx _ a => 0xA3#8 :: a.encode
  | .movR8Imm8 reg imm => [0b10110#5 ++ reg, imm]
  | .movRImm reg imm => (0b10111#5 ++ reg) :: imm.encode
  | .movRm8Imm8 rm imm => 0xC6#8 :: (rm.encode 0#3 ++ [imm])
  | .reservedC6 md reg rm => [0xC6#8, packFields md reg rm]
  | .movRmImm rm imm => 0xC7#8 :: (rm.encode 0#3 ++ imm.encode)
  | .reservedC7 md reg rm => [0xC7#8, packFields md reg rm]
  | .breakpoint => [0xCC#8]
  | .ltr md rm => [0x0F#8, 0x00#8, packFields md 3#3 rm]
  | .movRCr md n reg => [0x0F#8, 0x20#8, packFields md n reg]
  | .movCrR md n reg => [0x0F#8, 0x22#8, packFields md n reg]
  | .movRDr md n reg => [0x0F#8, 0x21#8, packFields md n reg]
  | .movDrR md n reg => [0x0F#8, 0x23#8, packFields md n reg]
  | .movRTr md n reg => [0x0F#8, 0x24#8, packFields md n reg]
  | .movTrR md n reg => [0x0F#8, 0x26#8, packFields md n reg]

/-! ## Lengths, in bytes after the prefixes (R100, R110) -/

/-- Length of a displacement field. -/
def Disp16.len : Disp16 → Nat
  | .none => 0
  | .d8 _ => 1
  | .d16 _ => 2

/-- Length of a displacement field. -/
def Disp32.len : Disp32 → Nat
  | .none => 0
  | .d8 _ => 1
  | .d32 _ => 4

/-- Length of the addressing-mode byte, the SIB byte and the displacement. -/
def MemOp.len : MemOp → Nat
  | .form16 _ d => 1 + d.len
  | .direct16 _ => 3
  | .base32 _ d => 1 + d.len
  | .direct32 _ => 5
  | .sib _ _ _ d => 2 + d.len
  | .sibNoBase _ _ _ => 6

/-- Length of the addressing-mode byte and what follows it. -/
def Rm.len : Rm → Nat
  | .reg _ => 1
  | .mem m => m.len

/-- Length of the addressing-mode byte and what follows it; an invalid one ends there (R227). -/
def SregOps.len : SregOps → Nat
  | .valid _ rm => rm.len
  | .invalid _ _ _ => 1

/-- Length of the offset field. -/
def Moffs.len : Moffs → Nat
  | .m16 _ => 2
  | .m32 _ => 4

/-- Length of the immediate field. -/
def ImmW.len : ImmW → Nat
  | .i16 _ => 2
  | .i32 _ => 4

/-! ## The host's view of a table word -/

/-- `k` bytes of a number, the least significant first: bit 0 of the table's numbering is bit 0 of the first byte. -/
def bytesOfNat (w : Nat) : Nat → List Byte
  | 0 => []
  | k + 1 => BitVec.ofNat 8 w :: bytesOfNat (w / 256) k

/-- The longest instruction, in bytes (R100, R110). -/
def maxInstructionLength : Nat := 15

/-- The instruction the decoder reads, with no prefix before it, from the bytes of the number `w`, zeros above its
`nbits` bits. -/
def decodeTableWord (nbits w : Nat) : Option Instr :=
  match decode Prefixes.none (bytesOfNat (w % 2 ^ nbits) maxInstructionLength) with
  | .instr i _ => some i
  | .truncated => none
  | .invalidOpcode => none
  | .refused _ => none

end Sys2Proof
end

