-- ==== Sys2Proof/Config.lean ====
section
/-! DEFINITION. The parameters of the machine that 00_scope.md R5 leaves OPEN, and its free values. -/

namespace Sys2Proof

/-- `stepping` (R5, 92_eei_decisions.md D28): `early` is the A-C0 step and the "early versions". -/
inductive Stepping where
  | early
  | late
  deriving DecidableEq, Repr

/-- A range of `size` physical addresses from `base` on. -/
structure Region where
  base : Nat
  size : Nat
  deriving DecidableEq, Repr

/-- The OPEN parameters of R5, fixed for a run. State carries them as the constant field `cfg`
(DESIGN CHOICE, assumption log 2), so that every claim holds for each setting. -/
structure Config where
  /-- D28: which steppings' behaviour R194, R195 and R274 follow. -/
  stepping : Stepping
  /-- D5: bit 20 of a physical address is forced to 0. -/
  a20Mask : Bool
  /-- D6: the physical addresses that hold read-write memory. -/
  memMap : List Region
  /-- R81, D25: the physical addresses of the program text, given with the launch. Launch premise P6 ties them to the
  bytes the run executes (`NothingStale`; log 11). -/
  programText : List Region
  /-- R180, D19: the switch of the segment-register forms R181, R182. -/
  sregForms : Bool
  /-- R180, D19: the switch of the memory-offset forms R183 to R186. -/
  moffsForms : Bool
  /-- R180, D19: the switch of the special-register forms R188 to R193. -/
  specialForms : Bool
  /-- R220, D20: a raise runs the entry of R223 (true) or ends the run in `fault(v)` (false). -/
  modelTrapEntry : Bool
  /-- R253, D26: the IP value at which a run is over, if one is given (log 22). -/
  endIp : Option Word
  deriving DecidableEq, Repr

/-- The parameters State.reset carries. `stepping`, `a20_mask`, `mem_map`, `sreg_forms` and `moffs_forms` are at
the defaults of R5; `special_forms` and `model_trap_entry` are on, against R5's defaults, so that every instruction
has its effect and every exception its entry (DESIGN CHOICE, log 2). -/
def Config.atReset : Config where
  stepping := .late
  a20Mask := false
  memMap := [⟨0, 4294967296⟩]
  programText := []
  sregForms := true
  moffsForms := true
  specialForms := true
  modelTrapEntry := true
  endIp := none

/-- The free values `draw_N()` of R9 and R17: the k-th draw of a run. It has no body, so nothing can be proved of a
value it gives (log 5). -/
opaque Config.freeWord : Nat → Word

end Sys2Proof
end

