-- ==== Sys2Proof/Machine/State.lean ====
section
/-! DEFINITION. The state of the machine (10_state.md R20), its reset value (R55), and the reasons a step can stop. -/

namespace Sys2Proof.Machine

/-- The exceptions and interrupts of 60_exceptions.md R211 that have a name of their own. -/
inductive Exc where
  | divideError
  | debug
  | nmi
  | breakpoint
  | overflow
  | boundRange
  | invalidOpcode
  | deviceNotAvailable
  | doubleFault
  | invalidTss
  | segmentNotPresent
  | stackFault
  | generalProtection
  | pageFault
  | floatingPointError
  | alignmentCheck
  deriving DecidableEq, Repr

/-- Why the machine stops with a fault. -/
inductive Fault where
  /-- The outcome `fault(v)` of R220: an exception was raised while the parameter `model_trap_entry` is off. `ip` is the
  instruction pointer the exception saves: the first byte of the instruction for a fault, the next instruction for the
  breakpoint trap and the single-step trap; every other piece of state is as the exception leaves it. Raised by
  `takeException`. Safe: the chip would go on to a handler. -/
  | exception (e : Exc) (ip : Word)
  deriving DecidableEq, Repr

/-- Why the machine refuses: the situations to which the spec gives no meaning (00_scope.md R17, `refuse(reason)`).
Every refusal is safe: the model stops where the chip would go on. -/
inductive Refusal where
  /-- An instruction without a meaning in this model; raised only by an arm of `exec` that says so. -/
  | notModelled (mnemonic : String)
  /-- R113 (i): an encoding outside the spec. Raised by `step`. -/
  | opcodeNotInSpec
  /-- R102: a repeat prefix before an instruction. Raised by `step`. -/
  | repPrefix
  /-- R110: a second segment override that names another segment. Raised by the segment-override prefixes. -/
  | twoSegmentOverrides
  /-- R108 (a): a SIB byte without an index and with a scale. Raised by `step`. -/
  | sibNoIndexWithScale
  /-- R180: a form whose switch of `admit_gk_forms` is off. Raised by the forms of 42_mov_other_forms.md. -/
  | formNotAdmitted
  /-- R67, D6: an access to a physical address outside `mem_map`. Raised by every access of memory. -/
  | unmapped
  /-- R81: a MOV that stores into the program text. Raised by the stores of MOV. -/
  | storeIntoProgramText
  /-- R189: a write of CR0 with PE or PG set. Raised by MOV CRn,r32. -/
  | leavesRealMode
  /-- R189, R274: a write of CR0 that changes CD on the early stepping. Raised by MOV CRn,r32. -/
  | erratumR274
  /-- R191, D31: a write of DR7 that enables a breakpoint, raised by MOV DRn,r32; and a step from a state that has one
  enabled, outside launch premise P4, raised by `step` (log 6). -/
  | enablesBreakpoints
  /-- R193: a write of a test register. Raised by MOV TRn,r32. -/
  | testRegisterWrite
  /-- R224: an exception while entering a handler. Raised by `takeException` and by interrupt acceptance. -/
  | nestedException
  /-- R4, R56 P1 and P3: a step from a state with CR0.PE, CR0.PG or flag VM set, which is no state of real mode. Raised
  by `step` (log 7). -/
  | notRealMode
  /-- R223, R226: an interrupt is accepted while `model_trap_entry` is off, so that the entry it needs is not in use.
  Raised by `step` (log 18). -/
  | interruptEntryOff
  deriving DecidableEq, Repr

/-- The eight general registers (R21), by their 32-bit names. -/
structure Gprs where
  eax : Word
  ecx : Word
  edx : Word
  ebx : Word
  esp : Word
  ebp : Word
  esi : Word
  edi : Word
  deriving DecidableEq, Repr

/-- A segment register: the visible selector and the hidden base and limit (R30). -/
structure SegReg where
  sel : BitVec 16
  base : Word
  limit : Word
  deriving DecidableEq, Repr

/-- The six segment registers (R30, R31). -/
structure SegRegs where
  es : SegReg
  cs : SegReg
  ss : SegReg
  ds : SegReg
  fs : SegReg
  gs : SegReg
  deriving DecidableEq, Repr

/-- The control registers that exist (R35, R187). -/
structure ControlRegs where
  cr0 : Word
  cr2 : Word
  cr3 : Word
  deriving DecidableEq, Repr

/-- The debug registers that exist (R36). -/
structure DebugRegs where
  dr0 : Word
  dr1 : Word
  dr2 : Word
  dr3 : Word
  dr6 : Word
  dr7 : Word
  deriving DecidableEq, Repr

/-- The test registers (R37). -/
structure TestRegs where
  tr3 : Word
  tr4 : Word
  tr5 : Word
  tr6 : Word
  tr7 : Word
  deriving DecidableEq, Repr

/-- The task register and LDTR: selector and hidden base, limit and attributes (R20, R40). The spec gives the hidden parts
no width: base and limit of 32 bits, as those of a segment register (R20), and attributes of 16 bits are PRESUMED
(log 14). -/
structure SystemSegReg where
  sel : BitVec 16
  base : Word
  limit : Word
  attributes : BitVec 16
  deriving DecidableEq, Repr

/-- GDTR and IDTR: base and limit (R40). -/
structure TableReg where
  base : Word
  limit : BitVec 16
  deriving DecidableEq, Repr

/-- The registers of R40. -/
structure SystemRegs where
  tr : SystemSegReg
  ldtr : SystemSegReg
  gdtr : TableReg
  idtr : TableReg
  deriving DecidableEq, Repr

/-- What `interrupt_oracle` presents at one instruction boundary (R225, R226, D21; log 8): an NMI, a maskable
interrupt with its vector, both or neither. -/
structure Arrival where
  nmi : Bool
  intr : Option Byte
  deriving DecidableEq, Repr

/-- Memory: the bytes that differ from what an unlisted address reads as, by rising physical address (R45; log 3). -/
abbrev Memory := List Host.Cell

/-- The machine's state. -/
structure State where
  /-- General registers (R21). -/
  gpr : Gprs
  /-- Instruction pointer (R25). -/
  ip : Word
  /-- FLAGS, EFLAGS (R26). -/
  flags : Word
  /-- Segment registers (R30). -/
  seg : SegRegs
  /-- Control registers (R35). -/
  ctl : ControlRegs
  /-- Debug registers (R36). -/
  dbg : DebugRegs
  /-- Test registers (R37). -/
  test : TestRegs
  /-- Task register and table registers (R40). -/
  sys : SystemRegs
  /-- Interrupt inhibition after a load of SS (R48). -/
  inhibit : Bool
  /-- An NMI presented and not yet accepted (R226, R227). -/
  nmiPending : Bool
  /-- A maskable interrupt presented and not yet accepted, with its vector (R225, R226). -/
  intrPending : Option Byte
  /-- The answers of the interrupt oracle still to come, one per instruction boundary (D21; log 8). -/
  arrivals : List Arrival
  /-- Memory (R45). -/
  mem : Memory
  /-- The I/O port space (R46); no instruction in scope reaches it. What it holds at reset, an empty list, is the model's
  choice (log 21). -/
  ports : List Host.Cell
  /-- The variables of the decoder loop of the instruction being read (R110; log 1). -/
  pfx : Prefixes
  /-- How many free values have been drawn (log 5). -/
  draws : Nat
  /-- The parameters of the machine, constant through a run (R5; log 2). -/
  cfg : Config
  deriving DecidableEq, Repr

/-- A data or stack segment after reset (R55). -/
def SegReg.atReset : SegReg where
  sel := 0x0000#16
  base := 0x00000000#32
  limit := 0xFFFF#32

/-- TR and LDTR after reset: unspecified by R55, zero here (DESIGN CHOICE, log 4). -/
def SystemSegReg.atReset : SystemSegReg where
  sel := 0#16
  base := 0#32
  limit := 0#32
  attributes := 0#16

/-- `reset_486`, the state right after reset (R55). Where R55 says "unspecified" the value is zero (DESIGN CHOICE,
log 4); memory lists nothing (log 3). R55 has no row for the I/O port space (R46): its list is empty (DESIGN CHOICE,
log 21). -/
def State.reset : State where
  gpr :=
    { eax := 0x00000000#32, ecx := 0#32, edx := 0x00000400#32, ebx := 0#32
      esp := 0#32, ebp := 0#32, esi := 0#32, edi := 0#32 }
  ip := 0x0000FFF0#32
  flags := 0x00000002#32
  seg :=
    { es := SegReg.atReset
      cs := { sel := 0xF000#16, base := 0xFFFF0000#32, limit := 0xFFFF#32 }
      ss := SegReg.atReset
      ds := SegReg.atReset
      fs := SegReg.atReset
      gs := SegReg.atReset }
  ctl := { cr0 := 0x60000010#32, cr2 := 0#32, cr3 := 0#32 }
  dbg := { dr0 := 0#32, dr1 := 0#32, dr2 := 0#32, dr3 := 0#32, dr6 := 0#32, dr7 := 0x00000000#32 }
  test := { tr3 := 0#32, tr4 := 0#32, tr5 := 0#32, tr6 := 0#32, tr7 := 0#32 }
  sys :=
    { tr := SystemSegReg.atReset
      ldtr := SystemSegReg.atReset
      gdtr := { base := 0#32, limit := 0#16 }
      idtr := { base := 0x00000000#32, limit := 0x03FF#16 } }
  inhibit := false
  nmiPending := false
  intrPending := none
  arrivals := []
  mem := []
  ports := []
  pfx := Prefixes.none
  draws := 0
  cfg := Config.atReset

/-- The outcomes of a step of this machine. -/
abbrev Outcome := Host.Outcome State Fault Refusal

end Sys2Proof.Machine
end

