-- ==== Sys2Proof/Machine/Flags.lean ====
section
/-! DEFINITION. The flags register (10_state.md R26, R27), its hard-wired bits, and the free values drawn for flags
that the chip leaves undefined (42_mov_other_forms.md R187). No instruction in scope computes a flag (00_scope.md R10):
the only writes are the clearing of I and T by an exception entry (60_exceptions.md R223) and the draws of R187. -/

namespace Sys2Proof.Machine

/-- Flag T, bit 8: single step. -/
def flagT (flags : Word) : Bool := flags.getLsbD 8

/-- Flag I, bit 9: maskable interrupts are accepted. -/
def flagI (flags : Word) : Bool := flags.getLsbD 9

/-- Flag VM, bit 17: virtual-8086 mode. -/
def flagVM (flags : Word) : Bool := flags.getLsbD 17

/-- The bits of flags I and T. -/
def maskIT : Word := 0x00000300#32

/-- The bits of flags O, S, Z, A, P and C: 11, 7, 6, 4, 2, 0. -/
def maskOSZAPC : Word := 0x000008D5#32

/-- FLAGS as it reads, 16 bits: bit 1 reads 1; bits 3, 5 and 15 read 0 (R26; log 13). -/
def readFlags16 (flags : Word) : BitVec 16 := (flags.extractLsb' 0 16 &&& 0x7FD7#16) ||| 0x0002#16

/-- The flags register after an exception entry: I and T cleared, the rest kept (R223). -/
def clearIT (flags : Word) : Word := flags &&& ~~~maskIT

/-- The flags register with O, S, Z, A, P and C taken from `v` and the rest kept. -/
def setOSZAPC (flags v : Word) : Word := (flags &&& ~~~maskOSZAPC) ||| (v &&& maskOSZAPC)

/-- The next free value, `draw_32()` of R9 (log 5). -/
def drawWord (s : State) : Word := Config.freeWord s.draws

/-- The state after a free value was drawn. -/
def afterDraw (s : State) : State := { s with draws := s.draws + 1 }

/-- The six flags O, S, Z, A, P and C become free values (R187, 93_implementation_defined.md U11). -/
def drawFlags (s : State) : State :=
  afterDraw { s with flags := setOSZAPC s.flags (drawWord s) }

end Sys2Proof.Machine
end

