-- ==== Sys2Proof/Machine/Ops.lean ====
section
/-! DEFINITION. The operations every meaning is written over: registers by number and size, segment registers, memory
by byte and by access, the advance of the instruction pointer, and taking an exception. There is no return from an
exception in the spec (60_exceptions.md R224: IRET is not in scope), so none stands here. -/

namespace Sys2Proof.Machine

/-! ## Outcomes of a part of an instruction (00_scope.md R9, R17) -/

/-- Why an instruction does not complete: it raises an exception, or the spec refuses the situation. -/
inductive Stop where
  | raise (e : Exc)
  | refuse (r : Refusal)
  deriving DecidableEq, Repr

/-- A value, or the reason there is none. -/
abbrev Result (α : Type) := Except Stop α

/-- The vector number of a named exception (60_exceptions.md R211). -/
def vectorOf : Exc → Byte
  | .divideError => 0#8
  | .debug => 1#8
  | .nmi => 2#8
  | .breakpoint => 3#8
  | .overflow => 4#8
  | .boundRange => 5#8
  | .invalidOpcode => 6#8
  | .deviceNotAvailable => 7#8
  | .doubleFault => 8#8
  | .invalidTss => 10#8
  | .segmentNotPresent => 11#8
  | .stackFault => 12#8
  | .generalProtection => 13#8
  | .pageFault => 14#8
  | .floatingPointError => 16#8
  | .alignmentCheck => 17#8

/-! ## General registers (10_state.md R21, R22) -/

/-- The operand sizes (30_encoding.md R103). -/
inductive Size where
  | b
  | w
  | d
  deriving DecidableEq, Repr

/-- The number of bytes of an operand size. -/
def sizeBytes : Size → Nat
  | .b => 1
  | .w => 2
  | .d => 4

/-- The operand size of a `w`=1 form. -/
def sizeOf1 : OpSize → Size
  | .o16 => .w
  | .o32 => .d

/-- `x[i]` (R9): the 32-bit register numbered `i`. -/
def readGpr (g : Gprs) (i : RegNum) : Word :=
  if i = 0#3 then g.eax else if i = 1#3 then g.ecx else if i = 2#3 then g.edx else if i = 3#3 then g.ebx
  else if i = 4#3 then g.esp else if i = 5#3 then g.ebp else if i = 6#3 then g.esi else g.edi

/-- `x[i] <- v` (R9). -/
def writeGpr (g : Gprs) (i : RegNum) (v : Word) : Gprs :=
  if i = 0#3 then { g with eax := v } else if i = 1#3 then { g with ecx := v }
  else if i = 2#3 then { g with edx := v } else if i = 3#3 then { g with ebx := v }
  else if i = 4#3 then { g with esp := v } else if i = 5#3 then { g with ebp := v }
  else if i = 6#3 then { g with esi := v } else { g with edi := v }

/-- The number of the 32-bit register an 8-bit register number is part of: i for 0 to 3, i - 4 for 4 to 7 (R9, R22). -/
def parent8 (i : RegNum) : RegNum := i &&& 3#3

/-- Whether an 8-bit register number names bits 15:8 (AH, CH, DH, BH) rather than bits 7:0 (R22). -/
def isHigh8 (i : RegNum) : Bool := i.getLsbD 2

/-- Bits 7:0 of `old` replaced. -/
def setLow8 (old v : Word) : Word := old.extractLsb' 8 24 ++ v.extractLsb' 0 8

/-- Bits 15:8 of `old` replaced by the low 8 bits of `v`. -/
def setHigh8 (old v : Word) : Word := old.extractLsb' 16 16 ++ v.extractLsb' 0 8 ++ old.extractLsb' 0 8

/-- Bits 15:0 of `old` replaced. -/
def setLow16 (old v : Word) : Word := old.extractLsb' 16 16 ++ v.extractLsb' 0 16

/-- `xs[i]` of R9 for a size: the register numbered `i` in that column of R21, zero-extended to 32 bits. -/
def readX (sz : Size) (i : RegNum) (g : Gprs) : Word :=
  match sz with
  | .b =>
    if isHigh8 i then ((readGpr g (parent8 i)).extractLsb' 8 8).setWidth 32
    else ((readGpr g (parent8 i)).extractLsb' 0 8).setWidth 32
  | .w => ((readGpr g i).extractLsb' 0 16).setWidth 32
  | .d => readGpr g i

/-- `xs[i] <- v` of R9 for a size: only the bits of that register change (R22). -/
def writeX (sz : Size) (i : RegNum) (v : Word) (g : Gprs) : Gprs :=
  match sz with
  | .b =>
    if isHigh8 i then writeGpr g (parent8 i) (setHigh8 (readGpr g (parent8 i)) v)
    else writeGpr g (parent8 i) (setLow8 (readGpr g (parent8 i)) v)
  | .w => writeGpr g i (setLow16 (readGpr g i) v)
  | .d => writeGpr g i v

/-- `xs[i] <- v` on the state. -/
def setX (sz : Size) (i : RegNum) (v : Word) (s : State) : State := { s with gpr := writeX sz i v s.gpr }

/-! ## Segment registers (10_state.md R30, R31) -/

/-- `sreg[j]` (R9). -/
def readSeg (g : SegRegs) : SReg → SegReg
  | .es => g.es
  | .cs => g.cs
  | .ss => g.ss
  | .ds => g.ds
  | .fs => g.fs
  | .gs => g.gs

/-- `sreg[j]` replaced. -/
def writeSeg (g : SegRegs) (j : SReg) (r : SegReg) : SegRegs :=
  match j with
  | .es => { g with es := r }
  | .cs => { g with cs := r }
  | .ss => { g with ss := r }
  | .ds => { g with ds := r }
  | .fs => { g with fs := r }
  | .gs => { g with gs := r }

/-- A real-mode load of a segment register: selector and base change, the limit does not (R30). -/
def loadSegReg (old : SegReg) (v : BitVec 16) : SegReg :=
  { sel := v, base := v.setWidth 32 * 16#32, limit := old.limit }

/-- `sreg[j]` loaded with the selector `v` (R30). -/
def loadSeg (j : SReg) (v : BitVec 16) (s : State) : State :=
  { s with seg := writeSeg s.seg j (loadSegReg (readSeg s.seg j) v) }

/-! ## Memory by byte (10_state.md R45, 20_memory.md R60, R61) -/

/-- What an address that memory does not list reads as. The spec gives memory no contents (R55); 00h is a DESIGN
CHOICE, unsafe (log 3). -/
def unlistedByte : Byte := 0x00#8

/-- The byte at a physical address. -/
def readCell : Memory → Nat → Byte
  | [], _ => unlistedByte
  | (k, v) :: m, a => if k = a then v else readCell m a

/-- Memory with one byte written, in canonical form: addresses rising, no entry equal to what an unlisted address
reads as. -/
def writeCell : Memory → Nat → Byte → Memory
  | [], a, b => if b = unlistedByte then [] else [(a, b)]
  | (k, v) :: m, a, b =>
    if k < a then (k, v) :: writeCell m a b
    else if k = a then (if b = unlistedByte then m else (a, b) :: m)
    else (if b = unlistedByte then (k, v) :: m else (a, b) :: (k, v) :: m)

/-- The canonical form from an address on: strictly rising addresses below 2^32, no entry equal to what an unlisted
address reads as. -/
def cellsWf : Nat → Memory → Bool
  | _, [] => true
  | lo, (k, v) :: m => decide (lo ≤ k) && decide (k < 4294967296) && decide (v ≠ unlistedByte) && cellsWf (k + 1) m

/-- The canonical form of memory. -/
def Memory.wf (m : Memory) : Bool := cellsWf 0 m

/-! ## Memory by access (20_memory.md R60, R63, R64, R67) -/

/-- The physical address of a linear address: the same, but for bit 20 when `a20_mask` is true (R63, D5). -/
def physAddr (c : Config) (a : Word) : Nat :=
  if c.a20Mask then (a &&& 0xFFEFFFFF#32).toNat else a.toNat

/-- Whether a range holds a physical address. -/
def inRegion (r : Region) (p : Nat) : Bool := decide (r.base ≤ p) && decide (p < r.base + r.size)

/-- Whether a physical address holds memory (D6). -/
def isMapped (c : Config) (p : Nat) : Bool := c.memMap.any fun r => inRegion r p

/-- Whether a physical address belongs to the program text (R81, D25). -/
def isProgramText (c : Config) (p : Nat) : Bool := c.programText.any fun r => inRegion r p

/-- Whether each of `n` bytes from a linear address on holds memory. -/
def allMapped (c : Config) (a : Word) : Nat → Bool
  | 0 => true
  | n + 1 => isMapped c (physAddr c a) && allMapped c (a + 1#32) n

/-- Whether one of `n` bytes from a linear address on belongs to the program text. -/
def anyProgramText (c : Config) (a : Word) : Nat → Bool
  | 0 => false
  | n + 1 => isProgramText c (physAddr c a) || anyProgramText c (a + 1#32) n

/-- The byte at a linear address. -/
def readLinear (s : State) (a : Word) : Byte := readCell s.mem (physAddr s.cfg a)

/-- The `n` bytes at a linear address, the lowest address least significant (R60), zero-extended. -/
def loadBytes (s : State) (a : Word) : Nat → Word
  | 0 => 0#32
  | n + 1 => (loadBytes s (a + 1#32) n <<< 8) ||| (readLinear s a).setWidth 32

/-- Memory with the low `n` bytes of `v` stored at a linear address, the least significant at the lowest address
(R60). -/
def storeBytes (c : Config) (m : Memory) (a : Word) : Nat → Word → Memory
  | 0, _ => m
  | n + 1, v => storeBytes c (writeCell m (physAddr c a) (v.extractLsb' 0 8)) (a + 1#32) n (v >>> 8)

/-- `MemRead(a, n)` of R9; refused where there is no memory (R67). -/
def memRead (s : State) (a : Word) (n : Nat) : Result Word :=
  if allMapped s.cfg a n then .ok (loadBytes s a n) else .error (.refuse .unmapped)

/-- `MemWrite(a, n, v)` of R9; refused where there is no memory (R67). -/
def memWrite (s : State) (a : Word) (n : Nat) (v : Word) : Result State :=
  if allMapped s.cfg a n then .ok { s with mem := storeBytes s.cfg s.mem a n v } else .error (.refuse .unmapped)

/-- Whether `n` bytes at an offset lie within the limit of a segment, in unbounded integers (R64). -/
def withinLimit (s : State) (j : SReg) (off : Word) (n : Nat) : Bool :=
  decide (off.toNat + (n - 1) ≤ (readSeg s.seg j).limit.toNat)

/-- The exception of an access beyond the limit: vector 12 through SS, vector 13 otherwise (R64). -/
def limitExc : SReg → Exc
  | .ss => .stackFault
  | .es | .cs | .ds | .fs | .gs => .generalProtection

/-- The linear address of an offset in a segment (R63). -/
def linear (s : State) (j : SReg) (off : Word) : Word := (readSeg s.seg j).base + off

/-- `SegRead(j, off, n)` (R64). -/
def segRead (s : State) (j : SReg) (off : Word) (n : Nat) : Result Word :=
  if withinLimit s j off n then memRead s (linear s j off) n else .error (.raise (limitExc j))

/-- `SegWrite(j, off, n, v)` (R64). -/
def segWrite (s : State) (j : SReg) (off : Word) (n : Nat) (v : Word) : Result State :=
  if withinLimit s j off n then memWrite s (linear s j off) n v else .error (.raise (limitExc j))

/-- The store of a MOV: `SegWrite`, refused when one of its bytes belongs to the program text (R81; log 11). -/
def dataWrite (s : State) (j : SReg) (off : Word) (n : Nat) (v : Word) : Result State :=
  if withinLimit s j off n && anyProgramText s.cfg (linear s j off) n then .error (.refuse .storeIntoProgramText)
  else segWrite s j off n v

/-! ## Taking an exception or interrupt (60_exceptions.md R220, R223, R224) -/

/-- `SP <- SP - 2 ; SegWrite(SS, SP, 2, v)` of R223. -/
def push16 (v : BitVec 16) (s : State) : Result State :=
  let sp := (readGpr s.gpr 4#3).extractLsb' 0 16 - 2#16
  segWrite (setX .w 4#3 (sp.setWidth 32) s) .ss (sp.setWidth 32) 2 (v.setWidth 32)

/-- The last lines of R223: the new IP and CS from the table entry of a vector. -/
def jumpThroughTable (v : Byte) (s : State) : Result State :=
  match memRead s (s.sys.idtr.base + v.setWidth 32 * 4#32) 2 with
  | .error e => .error e
  | .ok newIp =>
    match memRead s (s.sys.idtr.base + v.setWidth 32 * 4#32 + 2#32) 2 with
    | .error e => .error e
    | .ok newCs => .ok { loadSeg .cs (newCs.setWidth 16) s with ip := newIp }

/-- Real-mode exception and interrupt entry (R223) for a vector, from the state the exception leaves. -/
def enterHandler (v : Byte) (ipSaved : Word) (s : State) : Result State :=
  if v.toNat * 4 + 3 > s.sys.idtr.limit.toNat then .error (.raise .generalProtection)
  else
    match push16 (readFlags16 s.flags) s with
    | .error e => .error e
    | .ok s1 =>
      match push16 s1.seg.cs.sel s1 with
      | .error e => .error e
      | .ok s2 =>
        match push16 (ipSaved.extractLsb' 0 16) s2 with
        | .error e => .error e
        | .ok s3 => jumpThroughTable v { s3 with flags := clearIT s3.flags }

/-- Entry for a vector as the outcome of a step: an exception while entering is refused (R224). -/
def enterOutcome (v : Byte) (ipSaved : Word) (s : State) : Outcome :=
  match enterHandler v ipSaved s with
  | .ok s' => .next s'
  | .error (.raise _) => .refused .nestedException
  | .error (.refuse r) => .refused r

/-- The variables of the decoder loop are forgotten: the next byte fetched is the first of an instruction. -/
def endInstruction (s : State) : State := { s with pfx := Prefixes.none }

/-- Take the exception `e` with this saved instruction pointer (R220): the entry of R223 with `model_trap_entry` on, the
outcome `fault(v)` with it off. -/
def takeException (e : Exc) (ipSaved : Word) (s : State) : Outcome :=
  if s.cfg.modelTrapEntry then enterOutcome (vectorOf e) ipSaved s else .fault (.exception e ipSaved)

/-- `raise` for a fault (R9, R220): the instruction is abandoned, and `ip` of its first byte is saved. -/
def raiseFault (e : Exc) (s : State) : Outcome := takeException e s.ip (endInstruction s)

/-! ## Completing an instruction (10_state.md R25, R48; 60_exceptions.md R226) -/

/-- The instruction pointer after an instruction of `len` bytes and the prefixes before it (R25, R110). -/
def nextIp (len : Nat) (s : State) : Word := s.ip + BitVec.ofNat 32 (s.pfx.count + len)

/-- The instruction completes: `ip <- ip + L`, and interrupts are inhibited after it only if it is a load of SS
(`inhibits`), by R48 and R226. -/
def completeWith (inhibits : Bool) (len : Nat) (s : State) : State :=
  { s with ip := nextIp len s, inhibit := inhibits, pfx := Prefixes.none }

/-- The instruction completes and sets no inhibition. -/
def complete (len : Nat) (s : State) : State := completeWith false len s

/-- An instruction of `len` bytes whose effect has the result `r`, from the state `s`: it completes, or raises, or is
refused. -/
def finish (len : Nat) (s : State) (r : Result State) : Outcome :=
  match r with
  | .ok s' => .next (complete len s')
  | .error (.raise e) => raiseFault e s
  | .error (.refuse r) => .refused r

end Sys2Proof.Machine
end

