-- ==== Sys2Proof/Machine/Operands.lean ====
section
/-! DEFINITION. Operands: the effective address and the segment of every memory operand form (30_encoding.md R105 to
R109, R111), and reading and writing the `mod`+`r/m` operand (41_mov.md R169). -/

namespace Sys2Proof.Machine

/-- A 16-bit register by number, `x16[i]` (R9). -/
def reg16 (g : Gprs) (i : RegNum) : BitVec 16 := (readGpr g i).extractLsb' 0 16

/-- The register sum of a row of R105, modulo 2^16: BX 011b, BP 101b, SI 110b, DI 111b. -/
def formSum (g : Gprs) : Form16 → BitVec 16
  | .bxSi => reg16 g 3#3 + reg16 g 6#3
  | .bxDi => reg16 g 3#3 + reg16 g 7#3
  | .bpSi => reg16 g 5#3 + reg16 g 6#3
  | .bpDi => reg16 g 5#3 + reg16 g 7#3
  | .si => reg16 g 6#3
  | .di => reg16 g 7#3
  | .bp => reg16 g 5#3
  | .bx => reg16 g 3#3

/-- A displacement of 16-bit address mode: 8 bits sign-extended, 16 bits as they stand (R111). -/
def dispValue16 : Disp16 → BitVec 16
  | .none => 0#16
  | .d8 d => d.signExtend 16
  | .d16 d => d

/-- A displacement of 32-bit address mode: 8 bits sign-extended, 32 bits as they stand (R111). -/
def dispValue32 : Disp32 → Word
  | .none => 0#32
  | .d8 d => d.signExtend 32
  | .d32 d => d

/-- `x[index] * 2^scale`, or 0 without an index register (R107, R108 (a)). -/
def scaledIndex (g : Gprs) (scale : BitVec 2) : Option RegNum → Word
  | some i => readGpr g i <<< scale.toNat
  | none => 0#32

/-- The effective address as a 32-bit offset: sums modulo 2^16 in 16-bit address mode, modulo 2^32 in 32-bit address
mode, zero-extended (20_memory.md R62; R105, R106, R107). -/
def effAddr (g : Gprs) : MemOp → Word
  | .form16 f d => (formSum g f + dispValue16 d).setWidth 32
  | .direct16 d => d.setWidth 32
  | .base32 b d => readGpr g b + dispValue32 d
  | .direct32 d => d
  | .sib scale index base d => readGpr g base + scaledIndex g scale index + dispValue32 d
  | .sibNoBase scale index d => scaledIndex g scale index + d

/-- Whether a 32-bit base register selects SS: ESP 100b and EBP 101b (R109). -/
def stackBase (b : RegNum) : Bool := b == 4#3 || b == 5#3

/-- The default segment of a memory operand (R105, R109): SS when the base register is BP, EBP or ESP. -/
def defaultSeg : MemOp → SReg
  | .form16 .bpSi _ | .form16 .bpDi _ | .form16 .bp _ => .ss
  | .form16 .bxSi _ | .form16 .bxDi _ | .form16 .si _ | .form16 .di _ | .form16 .bx _ => .ds
  | .direct16 _ => .ds
  | .base32 b _ => if stackBase b then .ss else .ds
  | .direct32 _ => .ds
  | .sib _ _ base _ => if stackBase base then .ss else .ds
  | .sibNoBase _ _ _ => .ds

/-- The segment an operand is reached through: the one a segment-override prefix names, or the default (R109). -/
def chooseSeg (s : State) (dflt : SReg) : SReg := s.pfx.seg.getD dflt

/-- The segment of a memory operand. -/
def memSeg (s : State) (m : MemOp) : SReg := chooseSeg s (defaultSeg m)

/-- The linear address of a memory operand (20_memory.md R63). -/
def memAddr (s : State) (m : MemOp) : Word := linear s (memSeg s m) (effAddr s.gpr m)

/-- `rm_read(s)` of R169, zero-extended. -/
def readRm (sz : Size) (rm : Rm) (s : State) : Result Word :=
  match rm with
  | .reg i => .ok (readX sz i s.gpr)
  | .mem m => segRead s (memSeg s m) (effAddr s.gpr m) (sizeBytes sz)

/-- `rm_write(s, v)` of R169. -/
def writeRm (sz : Size) (rm : Rm) (v : Word) (s : State) : Result State :=
  match rm with
  | .reg i => .ok (setX sz i v s)
  | .mem m => dataWrite s (memSeg s m) (effAddr s.gpr m) (sizeBytes sz) v

/-- The offset of a memory-offset form, zero-extended (42_mov_other_forms.md R183). -/
def moffsOffset : Moffs → Word
  | .m16 a => a.setWidth 32
  | .m32 a => a

/-- The segment of a memory-offset form: DS unless a prefix names another (R183). -/
def moffsSeg (s : State) : SReg := chooseSeg s .ds

/-- The linear address of a memory-offset form. -/
def moffsAddr (s : State) (a : Moffs) : Word := linear s (moffsSeg s) (moffsOffset a)

/-- An immediate, zero-extended (30_encoding.md R112). -/
def immValue : ImmW → Word
  | .i16 v => v.setWidth 32
  | .i32 v => v

/-- The register receives what was read. -/
def loadReg (sz : Size) (i : RegNum) (s : State) (r : Result Word) : Result State :=
  match r with
  | .ok v => .ok (setX sz i v s)
  | .error e => .error e

end Sys2Proof.Machine
end

