-- ==== Sys2Proof/Machine/MovSpecial.lean ====
section
/-! DEFINITION. MOV, the special-register forms (42_mov_other_forms.md R180, R187 to R195). -/

namespace Sys2Proof.Machine

/-- What the six forms check before they act (R180, R187, R194): the switch, and then `mod` on the early stepping. The
spec does not order the refusal of the switch and the InvalidOpcode of the form (DESIGN CHOICE, log 25). -/
def guardSpecial (md : BitVec 2) (s : State) (act : Outcome) : Outcome :=
  if s.cfg.specialForms then
    if md ≠ 3#2 ∧ s.cfg.stepping = .early then raiseFault .invalidOpcode s else act
  else .refused .formNotAdmitted

/-- A special-register move completes: three bytes, and the flags O, S, Z, A, P, C are free (R187, U11; log 5). -/
def completeSpecial (s : State) : Outcome := .next (complete 3 (drawFlags s))

/-- CR0 as it reads: ET, bit 4, reads 1 on the 80486 (10_state.md R35; log 13). -/
def readCr0 (c : ControlRegs) : Word := c.cr0 ||| 0x00000010#32

/-- CRn, if the 80486 has it: CR0, CR2, CR3 (R35, R187). -/
def readCr (c : ControlRegs) (n : BitVec 3) : Option Word :=
  if n = 0#3 then some (readCr0 c) else if n = 2#3 then some c.cr2 else if n = 3#3 then some c.cr3 else none

/-- `CRn <- v`, if the 80486 has it; reserved bits are stored as written (R189, U12). -/
def writeCr (c : ControlRegs) (n : BitVec 3) (v : Word) : Option ControlRegs :=
  if n = 0#3 then some { c with cr0 := v } else if n = 2#3 then some { c with cr2 := v }
  else if n = 3#3 then some { c with cr3 := v } else none

/-- Whether a value of CR0 has PE (bit 0) or PG (bit 31) set (R35, R189). -/
def setsPeOrPg (v : Word) : Bool := v.getLsbD 0 || v.getLsbD 31

/-- Whether a write of CR0 changes CD, bit 30 (R35, R189). -/
def changesCd (old v : Word) : Bool := v.getLsbD 30 != old.getLsbD 30

/-- The number of the debug register that DRn acts on: DR4 and DR5 act on DR6 and DR7 on the late stepping and do not
exist on the early one (R195). -/
def drNumber (st : Stepping) (n : BitVec 3) : Option (BitVec 3) :=
  if n = 4#3 ∨ n = 5#3 then
    match st with
    | .early => none
    | .late => some (n + 2#3)
  else some n

/-- The debug register of a number other than 4 and 5 (R36). -/
def readDr (d : DebugRegs) (n : BitVec 3) : Word :=
  if n = 0#3 then d.dr0 else if n = 1#3 then d.dr1 else if n = 2#3 then d.dr2 else if n = 3#3 then d.dr3
  else if n = 6#3 then d.dr6 else d.dr7

/-- The debug register of a number other than 4 and 5, replaced (R36). -/
def writeDr (d : DebugRegs) (n : BitVec 3) (v : Word) : DebugRegs :=
  if n = 0#3 then { d with dr0 := v } else if n = 1#3 then { d with dr1 := v }
  else if n = 2#3 then { d with dr2 := v } else if n = 3#3 then { d with dr3 := v }
  else if n = 6#3 then { d with dr6 := v } else { d with dr7 := v }

/-- Whether a value of DR7 enables a breakpoint: one of bits 7:0 (10_state.md R36, R56 P4). -/
def enablesBreakpoint (v : Word) : Bool := v.extractLsb' 0 8 != 0#8

/-- Whether TRn exists on the 80486: TR3 to TR7 (R37, R187). -/
def trExists (n : BitVec 3) : Bool := !(n == 0#3 || n == 1#3 || n == 2#3)

/-- MOV r32,CRn, 0Fh 20h: `x[r/m] <- CRn` (R188). -/
def execMovRCr (md : BitVec 2) (n : BitVec 3) (reg : RegNum) (s : State) : Outcome :=
  guardSpecial md s <|
    match readCr s.ctl n with
    | none => raiseFault .invalidOpcode s
    | some v => completeSpecial (setX .d reg v s)

/-- MOV CRn,r32, 0Fh 22h: `CRn <- x[r/m]`, refused where it would leave real mode or meet the erratum of R274
(R189). -/
def execMovCrR (md : BitVec 2) (n : BitVec 3) (reg : RegNum) (s : State) : Outcome :=
  guardSpecial md s <|
    match writeCr s.ctl n (readGpr s.gpr reg) with
    | none => raiseFault .invalidOpcode s
    | some c =>
      if n = 0#3 ∧ setsPeOrPg (readGpr s.gpr reg) = true then .refused .leavesRealMode
      else if n = 0#3 ∧ changesCd s.ctl.cr0 (readGpr s.gpr reg) = true ∧ s.cfg.stepping = .early then
        .refused .erratumR274
      else completeSpecial { s with ctl := c }

/-- MOV r32,DRn, 0Fh 21h: `x[r/m] <- DRn` (R190, R195). -/
def execMovRDr (md : BitVec 2) (n : BitVec 3) (reg : RegNum) (s : State) : Outcome :=
  guardSpecial md s <|
    match drNumber s.cfg.stepping n with
    | none => raiseFault .invalidOpcode s
    | some k => completeSpecial (setX .d reg (readDr s.dbg k) s)

/-- MOV DRn,r32, 0Fh 23h: `DRn <- x[r/m]`, refused where it would enable a breakpoint (R191, R195). -/
def execMovDrR (md : BitVec 2) (n : BitVec 3) (reg : RegNum) (s : State) : Outcome :=
  guardSpecial md s <|
    match drNumber s.cfg.stepping n with
    | none => raiseFault .invalidOpcode s
    | some k =>
      if k = 7#3 ∧ enablesBreakpoint (readGpr s.gpr reg) = true then .refused .enablesBreakpoints
      else completeSpecial { s with dbg := writeDr s.dbg k (readGpr s.gpr reg) }

/-- MOV r32,TRn, 0Fh 24h: `x[r/m] <- draw_32()` (R192). -/
def execMovRTr (md : BitVec 2) (n : BitVec 3) (reg : RegNum) (s : State) : Outcome :=
  guardSpecial md s <|
    if trExists n then completeSpecial (afterDraw (setX .d reg (drawWord s) s)) else raiseFault .invalidOpcode s

/-- MOV TRn,r32, 0Fh 26h: refused, whatever the register holds (R193). -/
def execMovTrR (md : BitVec 2) (n : BitVec 3) (_reg : RegNum) (s : State) : Outcome :=
  guardSpecial md s <|
    if trExists n then .refused .testRegisterWrite else raiseFault .invalidOpcode s

end Sys2Proof.Machine
end

