-- ==== Sys2Proof/Machine/Boundary.lean ====
section
/-! DEFINITION. What happens around an instruction: the premises a step checks (10_state.md R56), the single-step trap
(60_exceptions.md R215) and the acceptance of interrupts at an instruction boundary (R225, R226, R227). -/

namespace Sys2Proof.Machine

/-- Why no step is taken from a state outside the hardware in scope: launch premises P1 and P3 (VM) of R56, which are
what real mode is (log 7), and P4, an enabled breakpoint (R215, D31; log 6). -/
def outOfScope (s : State) : Option Refusal :=
  if setsPeOrPg s.ctl.cr0 || flagVM s.flags then some .notRealMode
  else if enablesBreakpoint s.dbg.dr7 then some .enablesBreakpoints
  else none

/-- A maskable interrupt is accepted only if I = 1 and `inhibit` = 0 (R226). -/
def intrAllowed (s : State) : Bool := flagI s.flags && !s.inhibit

/-- NMI is accepted only if `inhibit` = 0 (R226). -/
def nmiAllowed (s : State) : Bool := !s.inhibit

/-- What the oracle presents at this boundary becomes pending (D21; log 8). -/
def arrive (s : State) : State :=
  match s.arrivals with
  | [] => s
  | a :: rest =>
    { s with
      arrivals := rest
      nmiPending := s.nmiPending || a.nmi
      intrPending := a.intr.or s.intrPending }

/-- Accept an interrupt of this vector: entry by R223 with the next instruction's offset saved (R226), refused with the
entry off (log 18). -/
def acceptInterrupt (v : Byte) (s : State) : Outcome :=
  if s.cfg.modelTrapEntry then enterOutcome v s.ip s else .refused .interruptEntryOff

/-- Accept a pending interrupt if one may be: NMI (vector 2) before a maskable one (R227). -/
def pollInterrupts (s : State) : Outcome :=
  if s.nmiPending && nmiAllowed s then acceptInterrupt (vectorOf .nmi) { s with nmiPending := false }
  else
    match s.intrPending with
    | none => .next s
    | some v => if intrAllowed s then acceptInterrupt v { s with intrPending := none } else .next s

/-- The single-step trap: Debug, vector 1, with the next instruction's offset saved (R215). DR6 reports it in a way the
spec does not state, so DR6 becomes a free value (DEDUCED, log 6). -/
def singleStep (s : State) : Outcome :=
  takeException .debug s.ip (afterDraw { s with dbg := { s.dbg with dr6 := drawWord s } })

/-- What follows an instruction at its boundary, once the oracle's answer is pending: the single-step trap if T was 1
before the instruction (`stepping`) and still is, which it is only when the instruction completed (an entry clears T);
else the acceptance of interrupts. -/
def atBoundary (stepping : Bool) (s : State) : Outcome :=
  if stepping && flagT s.flags then singleStep (arrive s) else pollInterrupts (arrive s)

/-- What follows a part of a step: nothing inside an instruction, between its prefix bytes; the boundary after it. -/
def afterInstruction (stepping : Bool) (o : Outcome) : Outcome :=
  match o with
  | .next s => if s.pfx.count = 0 then atBoundary stepping s else .next s
  | .fault f => .fault f
  | .refused r => .refused r

end Sys2Proof.Machine
end

