-- ==== Sys2Proof/Machine/MovGeneral.lean ====
section
/-! DEFINITION. MOV, the forms whose encoding the source gives (41_mov.md R160 to R171). -/

namespace Sys2Proof.Machine

/-- MOV r/m8,r8, 88h: `rm_write(8, x8[reg])` (R161). -/
def execMovRm8R8 (rm : Rm) (reg : RegNum) (s : State) : Outcome :=
  finish (1 + rm.len) s (writeRm .b rm (readX .b reg s.gpr) s)

/-- MOV r/m16,r16 and MOV r/m32,r32, 89h: `rm_write(s, xs[reg])` (R162). -/
def execMovRmR (sz : OpSize) (rm : Rm) (reg : RegNum) (s : State) : Outcome :=
  finish (1 + rm.len) s (writeRm (sizeOf1 sz) rm (readX (sizeOf1 sz) reg s.gpr) s)

/-- MOV r8,r/m8, 8Ah: `x8[reg] <- rm_read(8)` (R163). -/
def execMovR8Rm8 (reg : RegNum) (rm : Rm) (s : State) : Outcome :=
  finish (1 + rm.len) s (loadReg .b reg s (readRm .b rm s))

/-- MOV r16,r/m16 and MOV r32,r/m32, 8Bh: `xs[reg] <- rm_read(s)` (R164). -/
def execMovRRm (sz : OpSize) (reg : RegNum) (rm : Rm) (s : State) : Outcome :=
  finish (1 + rm.len) s (loadReg (sizeOf1 sz) reg s (readRm (sizeOf1 sz) rm s))

/-- MOV r8,imm8, B0h to B7h: `x8[reg] <- immed` (R165). -/
def execMovR8Imm8 (reg : RegNum) (imm : Byte) (s : State) : Outcome :=
  finish 2 s (.ok (setX .b reg (imm.setWidth 32) s))

/-- MOV r16,imm16 and MOV r32,imm32, B8h to BFh: `xs[reg] <- immed` (R166). -/
def execMovRImm (reg : RegNum) (imm : ImmW) (s : State) : Outcome :=
  finish (1 + imm.len) s (.ok (setX (sizeOf1 imm.size) reg (immValue imm) s))

/-- MOV r/m8,imm8, C6h /0: `rm_write(8, immed)` (R167). -/
def execMovRm8Imm8 (rm : Rm) (imm : Byte) (s : State) : Outcome :=
  finish (2 + rm.len) s (writeRm .b rm (imm.setWidth 32) s)

/-- MOV r/m16,imm16 and MOV r/m32,imm32, C7h /0: `rm_write(s, immed)` (R168). -/
def execMovRmImm (rm : Rm) (imm : ImmW) (s : State) : Outcome :=
  finish (1 + rm.len + imm.len) s (writeRm (sizeOf1 imm.size) rm (immValue imm) s)

end Sys2Proof.Machine
end

