-- ==== Sys2Proof/Machine/MovMoffs.lean ====
section
/-! DEFINITION. MOV, the memory-offset forms (42_mov_other_forms.md R180, R183 to R186). -/

namespace Sys2Proof.Machine

/-- The accumulator receives `SegRead(seg, offset, n)` (R183, R184). -/
def loadMoffs (sz : Size) (a : Moffs) (s : State) : Outcome :=
  if s.cfg.moffsForms then
    finish (1 + a.len) s (loadReg sz 0#3 s (segRead s (moffsSeg s) (moffsOffset a) (sizeBytes sz)))
  else .refused .formNotAdmitted

/-- `SegWrite(seg, offset, n, accumulator)` (R185, R186). -/
def storeMoffs (sz : Size) (a : Moffs) (s : State) : Outcome :=
  if s.cfg.moffsForms then
    finish (1 + a.len) s (dataWrite s (moffsSeg s) (moffsOffset a) (sizeBytes sz) (readX sz 0#3 s.gpr))
  else .refused .formNotAdmitted

/-- MOV AL,[moffs], A0h (R183). -/
def execMovAlMoffs (a : Moffs) (s : State) : Outcome := loadMoffs .b a s

/-- MOV AX,[moffs] and MOV EAX,[moffs], A1h (R184). -/
def execMovAxMoffs (sz : OpSize) (a : Moffs) (s : State) : Outcome := loadMoffs (sizeOf1 sz) a s

/-- MOV [moffs],AL, A2h (R185). -/
def execMovMoffsAl (a : Moffs) (s : State) : Outcome := storeMoffs .b a s

/-- MOV [moffs],AX and MOV [moffs],EAX, A3h (R186). -/
def execMovMoffsAx (sz : OpSize) (a : Moffs) (s : State) : Outcome := storeMoffs (sizeOf1 sz) a s

end Sys2Proof.Machine
end

