-- ==== Sys2Proof/Machine/MovSegment.lean ====
section
/-! DEFINITION. MOV, the segment-register forms (42_mov_other_forms.md R180 to R182). -/

namespace Sys2Proof.Machine

/-- A 32-bit register destination of a segment register: the selector in the low half, `draw_16()` in the high half
(R181, 93_implementation_defined.md U1; log 5). -/
def selectorWithFreeHigh (v : BitVec 16) (s : State) : Word := (drawWord s).extractLsb' 0 16 ++ v

/-- The destination of MOV r/m16,sreg receives the selector `v` (R181): 16 bits in memory whatever the operand size,
16 bits of a register in 16-bit operand mode, the selector under a free upper half in 32-bit operand mode. -/
def writeSelector (sz : OpSize) (rm : Rm) (v : BitVec 16) (s : State) : Result State :=
  match rm with
  | .mem m => dataWrite s (memSeg s m) (effAddr s.gpr m) 2 (v.setWidth 32)
  | .reg i =>
    match sz with
    | .o16 => .ok (setX .w i (v.setWidth 32) s)
    | .o32 => .ok (afterDraw (setX .d i (selectorWithFreeHigh v s) s))

/-- MOV r/m16,sreg, 8Ch (R181). With the switch off the refusal of R180 comes before the InvalidOpcode of a number that
names no segment register (R113 (b)); the spec does not order them (DESIGN CHOICE, log 25). -/
def execMovRm16Sreg (sz : OpSize) (ops : SregOps) (s : State) : Outcome :=
  if s.cfg.sregForms then
    match ops with
    | .invalid _ _ _ => raiseFault .invalidOpcode s
    | .valid sr rm => finish (1 + rm.len) s (writeSelector sz rm (readSeg s.seg sr).sel s)
  else .refused .formNotAdmitted

/-- The segment register is loaded with what was read; a load of SS inhibits interrupts for one instruction (R182,
10_state.md R48). -/
def finishSegLoad (len : Nat) (sr : SReg) (s : State) (r : Result Word) : Outcome :=
  match r with
  | .ok v => .next (completeWith (sr == .ss) len (loadSeg sr (v.setWidth 16) s))
  | .error (.raise e) => raiseFault e s
  | .error (.refuse r) => .refused r

/-- MOV sreg,r/m16, 8Eh (R182). CS as destination raises InvalidOpcode (R113 (c)). With the switch off the refusal of R180
comes before that InvalidOpcode and the one of R113 (b); the spec does not order them (DESIGN CHOICE, log 25). -/
def execMovSregRm16 (ops : SregOps) (s : State) : Outcome :=
  if s.cfg.sregForms then
    match ops with
    | .invalid _ _ _ => raiseFault .invalidOpcode s
    | .valid sr rm =>
      if sr = .cs then raiseFault .invalidOpcode s else finishSegLoad (1 + rm.len) sr s (readRm .w rm s)
  else .refused .formNotAdmitted

end Sys2Proof.Machine
end

