-- ==== Sys2Proof/Machine/PrefixBytes.lean ====
section
/-! DEFINITION. The prefix bytes (30_encoding.md R101, R102, R110): each records itself in the variables of the decoder
loop and lets the next byte be fetched; `ip` still points at the first byte of the instruction (assumption log 1). -/

namespace Sys2Proof.Machine

/-- The loop goes on to the next byte with these variables (R110). -/
def recordPrefix (p : Prefixes) (s : State) : Outcome := .next { s with pfx := { p with count := p.count + 1 } }

/-- A segment-override byte (R102, R110): a second one that names another segment is refused. -/
def recordSegment (j : SReg) (s : State) : Outcome :=
  match s.pfx.seg with
  | none => recordPrefix { s.pfx with seg := some j } s
  | some k => if k = j then recordPrefix s.pfx s else .refused .twoSegmentOverrides

/-- 66h: `op32 <- true` (R101, R110). -/
def execPrefixOperandSize (s : State) : Outcome := recordPrefix { s.pfx with op32 := true } s

/-- 67h: `ad32 <- true` (R101, R110). -/
def execPrefixAddressSize (s : State) : Outcome := recordPrefix { s.pfx with ad32 := true } s

/-- 26h: the memory operand uses ES (R102). -/
def execPrefixEs (s : State) : Outcome := recordSegment .es s

/-- 2Eh: the memory operand uses CS (R102). -/
def execPrefixCs (s : State) : Outcome := recordSegment .cs s

/-- 36h: the memory operand uses SS (R102). -/
def execPrefixSs (s : State) : Outcome := recordSegment .ss s

/-- 3Eh: the memory operand uses DS (R102). -/
def execPrefixDs (s : State) : Outcome := recordSegment .ds s

/-- 64h: the memory operand uses FS (R102). -/
def execPrefixFs (s : State) : Outcome := recordSegment .fs s

/-- 65h: the memory operand uses GS (R102). -/
def execPrefixGs (s : State) : Outcome := recordSegment .gs s

/-- F0h: `lock <- true` (R110); the instruction after it raises InvalidOpcode (R113 (d)). -/
def execPrefixLock (s : State) : Outcome := recordPrefix { s.pfx with lock := true } s

/-- F2h: `rep <- true` (R110); the instruction after it is refused (R102). -/
def execPrefixRepne (s : State) : Outcome := recordPrefix { s.pfx with rep := true } s

/-- F3h: `rep <- true` (R110); the instruction after it is refused (R102). -/
def execPrefixRep (s : State) : Outcome := recordPrefix { s.pfx with rep := true } s

end Sys2Proof.Machine
end

