-- ==== Sys2Proof/Machine/System.lean ====
section
/-! DEFINITION. The instructions whose whole effect is an exception: the breakpoint instruction (43_breakpoint.md
R200), LTR in real mode (40_ltr.md R151) and the reserved encodings of C6h and C7h (30_encoding.md R113 (a)). -/

namespace Sys2Proof.Machine

/-- The breakpoint instruction, CCh: `ip <- ip + L`, then vector 3 as a trap, with the next instruction's `ip` saved
(R200, R220). -/
def execBreakpoint (s : State) : Outcome := takeException .breakpoint (nextIp 1 s) (complete 1 s)

/-- LTR r/m16, 0Fh 00h /3: InvalidOpcode in real mode, whatever the operand (R151). -/
def execLtr (_md : BitVec 2) (_rm : BitVec 3) (s : State) : Outcome := raiseFault .invalidOpcode s

/-- C6h /1 to /7: InvalidOpcode (R113 (a)). -/
def execReservedC6 (_md : BitVec 2) (_reg _rm : BitVec 3) (s : State) : Outcome := raiseFault .invalidOpcode s

/-- C7h /1 to /7: InvalidOpcode (R113 (a)). -/
def execReservedC7 (_md : BitVec 2) (_reg _rm : BitVec 3) (s : State) : Outcome := raiseFault .invalidOpcode s

end Sys2Proof.Machine
end

