-- ==== Sys2Proof/Machine/Dispatch.lean ====
section
/-! DEFINITION. One arm per constructor of Instr. -/

namespace Sys2Proof.Machine

def exec (i : Instr) (s : State) : Host.Outcome State Fault Refusal :=
  match i with
  -- Prefix bytes
  | .prefixOperandSize => Sys2Proof.Machine.execPrefixOperandSize s
  | .prefixAddressSize => Sys2Proof.Machine.execPrefixAddressSize s
  | .prefixEs => Sys2Proof.Machine.execPrefixEs s
  | .prefixCs => Sys2Proof.Machine.execPrefixCs s
  | .prefixSs => Sys2Proof.Machine.execPrefixSs s
  | .prefixDs => Sys2Proof.Machine.execPrefixDs s
  | .prefixFs => Sys2Proof.Machine.execPrefixFs s
  | .prefixGs => Sys2Proof.Machine.execPrefixGs s
  | .prefixLock => Sys2Proof.Machine.execPrefixLock s
  | .prefixRepne => Sys2Proof.Machine.execPrefixRepne s
  | .prefixRep => Sys2Proof.Machine.execPrefixRep s
  -- MOV, general forms
  | .movRm8R8 rm reg => Sys2Proof.Machine.execMovRm8R8 rm reg s
  | .movRmR sz rm reg => Sys2Proof.Machine.execMovRmR sz rm reg s
  | .movR8Rm8 reg rm => Sys2Proof.Machine.execMovR8Rm8 reg rm s
  | .movRRm sz reg rm => Sys2Proof.Machine.execMovRRm sz reg rm s
  -- MOV, segment-register forms
  | .movRm16Sreg sz ops => Sys2Proof.Machine.execMovRm16Sreg sz ops s
  | .movSregRm16 ops => Sys2Proof.Machine.execMovSregRm16 ops s
  -- MOV, memory-offset forms
  | .movAlMoffs a => Sys2Proof.Machine.execMovAlMoffs a s
  | .movAxMoffs sz a => Sys2Proof.Machine.execMovAxMoffs sz a s
  | .movMoffsAl a => Sys2Proof.Machine.execMovMoffsAl a s
  | .movMoffsAx sz a => Sys2Proof.Machine.execMovMoffsAx sz a s
  -- MOV, immediate forms and the reserved encodings beside them
  | .movR8Imm8 reg imm => Sys2Proof.Machine.execMovR8Imm8 reg imm s
  | .movRImm reg imm => Sys2Proof.Machine.execMovRImm reg imm s
  | .movRm8Imm8 rm imm => Sys2Proof.Machine.execMovRm8Imm8 rm imm s
  | .reservedC6 md reg rm => Sys2Proof.Machine.execReservedC6 md reg rm s
  | .movRmImm rm imm => Sys2Proof.Machine.execMovRmImm rm imm s
  | .reservedC7 md reg rm => Sys2Proof.Machine.execReservedC7 md reg rm s
  -- Breakpoint and LTR
  | .breakpoint => Sys2Proof.Machine.execBreakpoint s
  | .ltr md rm => Sys2Proof.Machine.execLtr md rm s
  -- MOV, special-register forms
  | .movRCr md n reg => Sys2Proof.Machine.execMovRCr md n reg s
  | .movCrR md n reg => Sys2Proof.Machine.execMovCrR md n reg s
  | .movRDr md n reg => Sys2Proof.Machine.execMovRDr md n reg s
  | .movDrR md n reg => Sys2Proof.Machine.execMovDrR md n reg s
  | .movRTr md n reg => Sys2Proof.Machine.execMovRTr md n reg s
  | .movTrR md n reg => Sys2Proof.Machine.execMovTrR md n reg s

end Sys2Proof.Machine
end

