-- ==== Sys2Proof/Machine/Fetch.lean ====
section
/-! DEFINITION. Fetching the bytes of an instruction (10_state.md R25, 30_encoding.md R110, 60_exceptions.md R227). -/

namespace Sys2Proof.Machine

/-- The running fetch offset `ip'` of R9 and R110, in unbounded integers (R25: it does not wrap). -/
def fetchOffset (s : State) : Nat := s.ip.toNat + s.pfx.count

/-- The physical address of the byte at an offset in CS (R25, R63). -/
def codeAddr (s : State) (off : Nat) : Nat := physAddr s.cfg (s.seg.cs.base + BitVec.ofNat 32 off)

/-- At most `n` bytes from an offset in CS on, and what the fetch of the byte after them raises: vector 13 beyond the
limit of CS (R25) or when the instruction would pass its longest length (R110), a refusal where there is no memory
(R67). Only the bytes a decoder asks for count; the others are not fetched by the chip. -/
def fetchWindow (s : State) (off : Nat) : Nat → List Byte × Stop
  | 0 => ([], .raise .generalProtection)
  | n + 1 =>
    if off > s.seg.cs.limit.toNat then ([], .raise .generalProtection)
    else if isMapped s.cfg (codeAddr s off) then
      (readCell s.mem (codeAddr s off) :: (fetchWindow s (off + 1) n).1, (fetchWindow s (off + 1) n).2)
    else ([], .refuse .unmapped)

/-- The bytes that may still belong to the instruction, and what the fetch of one more raises. -/
def fetchBytes (s : State) : List Byte × Stop :=
  fetchWindow s (fetchOffset s) (maxInstructionLength - s.pfx.count)

/-- Bytes placed where the next ones are fetched, one after the other. -/
def placeBytes (s : State) (off : Nat) : List Byte → State
  | [] => s
  | b :: bs => placeBytes { s with mem := writeCell s.mem (codeAddr s off) b } (off + 1) bs

/-- What the decoder makes of the bytes at the running fetch offset. -/
def decodeNext (s : State) : Decoded := decode s.pfx (fetchBytes s).1

/-- A stop of the fetch as the outcome of a step. -/
def stopOutcome (s : State) : Stop → Outcome
  | .raise e => raiseFault e s
  | .refuse r => .refused r

/-- The refusal of the decoder as a refusal of the machine. -/
def decodeRefusal : DecodeRefusal → Refusal
  | .opcodeNotInSpec => .opcodeNotInSpec
  | .sibNoIndexWithScale => .sibNoIndexWithScale
  | .repPrefix => .repPrefix

end Sys2Proof.Machine
end

