-- ==== Sys2Proof/Machine/Run.lean ====
section
/-! DEFINITION. What the decoder's answer makes the machine do, and the instruction of a step. -/

namespace Sys2Proof.Machine

/-- What a decoded word does, before the boundary (30_encoding.md R110, R113; 60_exceptions.md R227). -/
def runDecoded (d : Decoded) (s : State) : Outcome :=
  match d with
  | .instr i _ => exec i s
  | .truncated => stopOutcome s (fetchBytes s).2
  | .invalidOpcode => raiseFault .invalidOpcode s
  | .refused r => .refused (decodeRefusal r)

/-- The instruction of a step, as it stands when it completes and before its boundary: the premises are checked, and
what the decoder reads at the running fetch offset is run. -/
def runInstruction (s : State) : Outcome :=
  match outOfScope s with
  | some r => .refused r
  | none => runDecoded (decodeNext s) s

end Sys2Proof.Machine
end

