-- ==== Sys2Proof/Machine/Step.lean ====
section
/-! DEFINITION. One step: check the premises, fetch and decode at the running fetch offset, run what was decoded, then
the instruction boundary. A prefix byte is a step of its own (assumption log 1). -/

namespace Sys2Proof.Machine

/-- One step of the machine. -/
def step (s : State) : Host.Outcome State Fault Refusal := afterInstruction (flagT s.flags) (runInstruction s)

/-- `s` with the word `w` of `nbits` bits, zeros after it up to the longest instruction, stored where `step` fetches
its next byte (log 12). -/
def State.withFetchWord (s : State) (nbits w : Nat) : State :=
  placeBytes s (fetchOffset s) (bytesOfNat (w % 2 ^ nbits) maxInstructionLength)

end Sys2Proof.Machine
end

