-- ==== Sys2Proof/Safety.lean ====
section
/-! DEFINITION. The invariant of real mode, the launch premises (10_state.md R56), and what a run and its normal end are
(70_reset_and_hazards.md R253). -/

namespace Sys2Proof.Machine

/-- The part of the launch premises that every step keeps: P1 (CR0.PE = CR0.PG = 0), P2 (every limit FFFFh),
P3 (T = VM = 0), P4 (DR7 bits 7:0 = 0) of R56. -/
structure RealMode (s : State) : Prop where
  noPe : s.ctl.cr0.getLsbD 0 = false
  noPg : s.ctl.cr0.getLsbD 31 = false
  limits : ∀ j, (readSeg s.seg j).limit = 0xFFFF#32
  noT : flagT s.flags = false
  noVm : flagVM s.flags = false
  noBreakpoint : s.dbg.dr7.extractLsb' 0 8 = 0#8

/-! ## Runs -/

/-- The machine is between two instructions. -/
def State.betweenInstructions (s : State) : Prop := s.pfx.count = 0

/-- The run that began in `launch` is over in `s` (R253): an instruction boundary with `ip` = `end_ip` and CS as at the
launch. It says nothing of what the chip does next, which is to go on. -/
def runOver (launch s : State) : Prop :=
  s.betweenInstructions ∧ s.cfg.endIp = some s.ip ∧ s.seg.cs = launch.seg.cs

/-- The run that began in `launch` goes on past `s`: it is not over in `s`, nor at the moment the instruction of `s`
completes, before an interrupt or a single-step trap is taken at its boundary (R253; log 22). -/
structure GoesOn (launch s : State) : Prop where
  here : ¬runOver launch s
  completed : ∀ t, runInstruction s = .next t → ¬runOver launch t

/-- The run that began in `launch` is in `s` after `n` steps; it takes no step past its end. -/
inductive Run (launch : State) : Nat → State → Prop where
  | start : Run launch 0 launch
  | next {n : Nat} {s t : State} (h : Run launch n s) (on : GoesOn launch s) (h1 : step s = .next t) :
    Run launch (n + 1) t

/-- `final` is the final state of the run that began in `launch` (R253): the first one in which the run is over, be it
one between two steps or the one in which an instruction has completed and its boundary is still to come. A run that
reaches a fault or a refusal has none. -/
inductive Final (launch : State) : State → Prop where
  | between {n : Nat} {s : State} (h : Run launch n s) (ended : runOver launch s) : Final launch s
  | completed {n : Nat} {s t : State} (h : Run launch n s) (here : ¬runOver launch s)
    (h1 : runInstruction s = .next t) (ended : runOver launch t) : Final launch t

/-! ## The launch premises -/

/-- The step from `s` fetches the byte at the physical address `p`: with the bytes before it, the decoder asks for one
more (30_encoding.md R110). -/
def Fetches (s : State) (p : Nat) : Prop :=
  ∃ k < (fetchBytes s).1.length,
    decode s.pfx ((fetchBytes s).1.take k) = .truncated ∧ p = codeAddr s (fetchOffset s + k)

/-- The run that began in `launch` executes the byte at `p`, in its state `s`: it goes on to fetch it there, and the
step is not refused. -/
structure Executes (launch s : State) (p : Nat) : Prop where
  inRun : ∃ n, Run launch n s
  here : ¬runOver launch s
  fetches : Fetches s p
  notRefused : ∀ r, runInstruction s ≠ .refused r

/-- P6 of R56: every byte the run will execute belongs to the program text given with the launch, so that a MOV into it
is refused (20_memory.md R81), and has the value memory holds at launch when it is executed. -/
structure NothingStale (launch : State) : Prop where
  inText : ∀ s p, Executes launch s p → isProgramText launch.cfg p = true
  asAtLaunch : ∀ s p, Executes launch s p → readCell s.mem p = readCell launch.mem p

/-- The launch premises P1 to P6 of R56, at an instruction boundary. -/
structure LaunchPremises (s : State) : Prop where
  realMode : RealMode s
  inhibit : s.inhibit = false
  nothingStale : NothingStale s
  boundary : s.pfx = Prefixes.none

/-- A safe run (R56, R220, R253): from a launch state that meets the premises it reaches its end, through no fault and
no refusal. -/
structure SafeRun (launch final : State) : Prop where
  premises : LaunchPremises launch
  ends : Final launch final

end Sys2Proof.Machine
end

