-- ==== Sys2Proof/Certificates/Slice0/Obligations.lean ====
section
/-! DEFINITION. The statements for the provers, and the words they are written in (namespace Sys2Proof.Claims). -/

namespace Sys2Proof.Claims

open Sys2Proof.Machine

/-! ## Words -/

/-- Every byte of memory reads as before. -/
def SameMemory (s t : State) : Prop := ∀ p, readCell t.mem p = readCell s.mem p

/-- Every 32-bit register but `i` reads as before. -/
def OtherRegs (i : RegNum) (s t : State) : Prop := ∀ j, j ≠ i → readGpr t.gpr j = readGpr s.gpr j

/-- The register numbered `i` in the column of a size holds the low bits of `v`, and no other bit of a general register
changed (10_state.md R21, R22). -/
def RegReceives (sz : Size) (i : RegNum) (v : Word) (s t : State) : Prop :=
  match sz with
  | .d => readGpr t.gpr i = v ∧ OtherRegs i s t
  | .w =>
    (readGpr t.gpr i).extractLsb' 0 16 = v.extractLsb' 0 16 ∧
    (readGpr t.gpr i).extractLsb' 16 16 = (readGpr s.gpr i).extractLsb' 16 16 ∧ OtherRegs i s t
  | .b =>
    if i.toNat < 4 then
      (readGpr t.gpr i).extractLsb' 0 8 = v.extractLsb' 0 8 ∧
      (readGpr t.gpr i).extractLsb' 8 24 = (readGpr s.gpr i).extractLsb' 8 24 ∧ OtherRegs i s t
    else
      (readGpr t.gpr (i - 4#3)).extractLsb' 8 8 = v.extractLsb' 0 8 ∧
      (readGpr t.gpr (i - 4#3)).extractLsb' 0 8 = (readGpr s.gpr (i - 4#3)).extractLsb' 0 8 ∧
      (readGpr t.gpr (i - 4#3)).extractLsb' 16 16 = (readGpr s.gpr (i - 4#3)).extractLsb' 16 16 ∧
      OtherRegs (i - 4#3) s t

/-- The `n` bytes from the linear address `a` on hold the low bytes of `v`, the least significant at the lowest address
(20_memory.md R60), and every other byte of memory reads as before. -/
def MemoryReceives (a : Word) (n : Nat) (v : Word) (s t : State) : Prop :=
  (∀ k < n, readCell t.mem (physAddr s.cfg (a + BitVec.ofNat 32 k)) = v.extractLsb' (8 * k) 8) ∧
  (∀ p, (∀ k < n, p ≠ physAddr s.cfg (a + BitVec.ofNat 32 k)) → readCell t.mem p = readCell s.mem p)

/-- Registers other than general and segment registers, flags and `ip`, the pending interrupts, the ports and the
parameters are unchanged. -/
structure SystemSame (s t : State) : Prop where
  ctl : t.ctl = s.ctl
  dbg : t.dbg = s.dbg
  test : t.test = s.test
  sys : t.sys = s.sys
  nmiPending : t.nmiPending = s.nmiPending
  intrPending : t.intrPending = s.intrPending
  arrivals : t.arrivals = s.arrivals
  ports : t.ports = s.ports
  cfg : t.cfg = s.cfg

/-- `i` completed: `ip` moved past its prefixes and its bytes (10_state.md R25), and the next byte fetched begins an
instruction. -/
structure Completed (i : Instr) (s t : State) : Prop where
  ip : t.ip = s.ip + BitVec.ofNat 32 (s.pfx.count + (encode i).length)
  pfx : t.pfx = Prefixes.none

/-- The frame of a MOV that writes neither a segment register nor a special register: it completes, no flag changes
(41_mov.md R160), and interrupts are not inhibited after it (10_state.md R48). -/
structure MoveFrame (i : Instr) (s t : State) : Prop where
  completed : Completed i s t
  flags : t.flags = s.flags
  seg : t.seg = s.seg
  inhibit : t.inhibit = false
  system : SystemSame s t

/-- `n` bytes at an offset of a segment lie within its limit (20_memory.md R64) and hold memory (D6). -/
def CanRead (s : State) (j : SReg) (off : Word) (n : Nat) : Prop :=
  off.toNat + (n - 1) ≤ (readSeg s.seg j).limit.toNat ∧
  ∀ k < n, isMapped s.cfg (physAddr s.cfg (linear s j off + BitVec.ofNat 32 k)) = true

/-- Besides, none of them belongs to the program text (R81). -/
def CanWrite (s : State) (j : SReg) (off : Word) (n : Nat) : Prop :=
  CanRead s j off n ∧
  ∀ k < n, isProgramText s.cfg (physAddr s.cfg (linear s j off + BitVec.ofNat 32 k)) = false

/-- A register operand can always be read; a memory operand where its bytes can. -/
def OperandReadable (sz : Size) (rm : Rm) (s : State) : Prop :=
  match rm with
  | .reg _ => True
  | .mem m => CanRead s (memSeg s m) (effAddr s.gpr m) (sizeBytes sz)

/-- A register operand can always be written; a memory operand where its bytes can. -/
def OperandWritable (sz : Size) (rm : Rm) (s : State) : Prop :=
  match rm with
  | .reg _ => True
  | .mem m => CanWrite s (memSeg s m) (effAddr s.gpr m) (sizeBytes sz)

/-- The value of an operand: the register, or the bytes at its address (41_mov.md R169). -/
def OperandValue (sz : Size) (rm : Rm) (s : State) : Word :=
  match rm with
  | .reg i => readX sz i s.gpr
  | .mem m => loadBytes s (memAddr s m) (sizeBytes sz)

/-- `i` completes; its operand `rm`, register or memory, receives `v`, and nothing else changes. -/
def OperandReceives (sz : Size) (rm : Rm) (v : Word) (i : Instr) (s : State) : Prop :=
  ∃ t, exec i s = .next t ∧ MoveFrame i s t ∧ t.draws = s.draws ∧
    match rm with
    | .reg r => RegReceives sz r v s t ∧ SameMemory s t
    | .mem m => MemoryReceives (memAddr s m) (sizeBytes sz) v s t ∧ t.gpr = s.gpr

/-- `i` completes; the register receives `v`, and nothing else changes. -/
def RegisterReceives (sz : Size) (r : RegNum) (v : Word) (i : Instr) (s : State) : Prop :=
  ∃ t, exec i s = .next t ∧ MoveFrame i s t ∧ t.draws = s.draws ∧ RegReceives sz r v s t ∧ SameMemory s t

/-- `i` completes; the `n` bytes at `a` receive `v`, and nothing else changes. -/
def BytesReceive (a : Word) (n : Nat) (v : Word) (i : Instr) (s : State) : Prop :=
  ∃ t, exec i s = .next t ∧ MoveFrame i s t ∧ t.draws = s.draws ∧ MemoryReceives a n v s t ∧ t.gpr = s.gpr

/-- The instructions that read or write one memory operand `m` of `n` bytes. -/
inductive AccessesMemory : Instr → MemOp → Nat → Prop where
  | movRm8R8 (m : MemOp) (reg : RegNum) : AccessesMemory (.movRm8R8 (.mem m) reg) m 1
  | movRmR (sz : OpSize) (m : MemOp) (reg : RegNum) :
    AccessesMemory (.movRmR sz (.mem m) reg) m (sizeBytes (sizeOf1 sz))
  | movR8Rm8 (m : MemOp) (reg : RegNum) : AccessesMemory (.movR8Rm8 reg (.mem m)) m 1
  | movRRm (sz : OpSize) (m : MemOp) (reg : RegNum) :
    AccessesMemory (.movRRm sz reg (.mem m)) m (sizeBytes (sizeOf1 sz))
  | movRm8Imm8 (m : MemOp) (imm : Byte) : AccessesMemory (.movRm8Imm8 (.mem m) imm) m 1
  | movRmImm (m : MemOp) (imm : ImmW) : AccessesMemory (.movRmImm (.mem m) imm) m (sizeBytes (sizeOf1 imm.size))

/-- The instructions whose memory operand is 16 bits of a segment register (42_mov_other_forms.md R181, R182). -/
inductive AccessesSelector : Instr → MemOp → Prop where
  | store (sz : OpSize) (sr : SReg) (m : MemOp) : AccessesSelector (.movRm16Sreg sz (.valid sr (.mem m))) m
  | load (sr : SReg) (m : MemOp) (h : sr ≠ .cs) : AccessesSelector (.movSregRm16 (.valid sr (.mem m))) m

/-- The memory-offset forms, with their offset and size (R183 to R186). -/
inductive AccessesMoffs : Instr → Moffs → Nat → Prop where
  | loadAl (a : Moffs) : AccessesMoffs (.movAlMoffs a) a 1
  | loadAx (sz : OpSize) (a : Moffs) : AccessesMoffs (.movAxMoffs sz a) a (sizeBytes (sizeOf1 sz))
  | storeAl (a : Moffs) : AccessesMoffs (.movMoffsAl a) a 1
  | storeAx (sz : OpSize) (a : Moffs) : AccessesMoffs (.movMoffsAx sz a) a (sizeBytes (sizeOf1 sz))

/-- The instructions that store `n` bytes at an offset of a segment. -/
inductive StoresAt (s : State) : Instr → SReg → Word → Nat → Prop where
  | movRm8R8 (m : MemOp) (reg : RegNum) :
    StoresAt s (.movRm8R8 (.mem m) reg) (memSeg s m) (effAddr s.gpr m) 1
  | movRmR (sz : OpSize) (m : MemOp) (reg : RegNum) :
    StoresAt s (.movRmR sz (.mem m) reg) (memSeg s m) (effAddr s.gpr m) (sizeBytes (sizeOf1 sz))
  | movRm8Imm8 (m : MemOp) (imm : Byte) :
    StoresAt s (.movRm8Imm8 (.mem m) imm) (memSeg s m) (effAddr s.gpr m) 1
  | movRmImm (m : MemOp) (imm : ImmW) :
    StoresAt s (.movRmImm (.mem m) imm) (memSeg s m) (effAddr s.gpr m) (sizeBytes (sizeOf1 imm.size))
  | movRm16Sreg (sz : OpSize) (sr : SReg) (m : MemOp) (h : s.cfg.sregForms = true) :
    StoresAt s (.movRm16Sreg sz (.valid sr (.mem m))) (memSeg s m) (effAddr s.gpr m) 2
  | movMoffsAl (a : Moffs) (h : s.cfg.moffsForms = true) :
    StoresAt s (.movMoffsAl a) (moffsSeg s) (moffsOffset a) 1
  | movMoffsAx (sz : OpSize) (a : Moffs) (h : s.cfg.moffsForms = true) :
    StoresAt s (.movMoffsAx sz a) (moffsSeg s) (moffsOffset a) (sizeBytes (sizeOf1 sz))

/-! ### Exception entry -/

/-- SP, the low half of ESP. -/
def sp16 (s : State) : BitVec 16 := (readGpr s.gpr 4#3).extractLsb' 0 16

/-- The linear address of the word pushed at SP - `k` in SS. -/
def pushAddr (s : State) (k : BitVec 16) : Word := (readSeg s.seg .ss).base + (sp16 s - k).setWidth 32

/-- The linear address of a vector's entry of the interrupt vector table. -/
def tableAddr (s : State) (v : Byte) : Word := s.sys.idtr.base + v.setWidth 32 * 4#32

/-- An entry for this vector meets no second exception and no hole in memory (60_exceptions.md R223). -/
structure CanEnter (v : Byte) (s : State) : Prop where
  on : s.cfg.modelTrapEntry = true
  table : 4 * v.toNat + 3 ≤ s.sys.idtr.limit.toNat
  stack : ∀ k : BitVec 16, k = 2#16 ∨ k = 4#16 ∨ k = 6#16 →
    (sp16 s - k).toNat + 1 ≤ (readSeg s.seg .ss).limit.toNat
  stackMapped : ∀ k : BitVec 16, k = 2#16 ∨ k = 4#16 ∨ k = 6#16 → ∀ b < 2,
    isMapped s.cfg (physAddr s.cfg (pushAddr s k + BitVec.ofNat 32 b)) = true
  tableMapped : ∀ b < 4, isMapped s.cfg (physAddr s.cfg (tableAddr s v + BitVec.ofNat 32 b)) = true

/-- The word at the pushed slot SP - `k`. -/
def Pushed (k v : BitVec 16) (s t : State) : Prop :=
  ∀ b < 2, readCell t.mem (physAddr s.cfg (pushAddr s k + BitVec.ofNat 32 b)) = v.extractLsb' (8 * b) 8

/-- `t` is `s` after the real-mode entry for a vector with `ipSaved` (R223): FLAGS, CS and IP are pushed, I and T
cleared, CS:IP loaded from the table, which is read after the pushes, and nothing else changes. The pushed word is
flags[15:0] as R26 says its bits read: bit 1 set, bits 3, 5 and 15 clear (DEDUCED, log 13). The inhibition after a
load of SS stays as `s` has it (DEDUCED, log 9). -/
structure Entered (v : Byte) (ipSaved : Word) (s t : State) : Prop where
  sp : (readGpr t.gpr 4#3).extractLsb' 0 16 = sp16 s - 6#16
  espHigh : (readGpr t.gpr 4#3).extractLsb' 16 16 = (readGpr s.gpr 4#3).extractLsb' 16 16
  otherRegs : OtherRegs 4#3 s t
  pushedFlags : Pushed 2#16 (readFlags16 s.flags) s t
  pushedCs : Pushed 4#16 (readSeg s.seg .cs).sel s t
  pushedIp : Pushed 6#16 (ipSaved.extractLsb' 0 16) s t
  otherMemory : ∀ p,
    (∀ k : BitVec 16, k = 2#16 ∨ k = 4#16 ∨ k = 6#16 → ∀ b < 2,
      p ≠ physAddr s.cfg (pushAddr s k + BitVec.ofNat 32 b)) → readCell t.mem p = readCell s.mem p
  flags : ∀ b, t.flags.getLsbD b = (s.flags.getLsbD b && b != 8 && b != 9)
  ip : t.ip = loadBytes t (tableAddr s v) 2
  csSel : (readSeg t.seg .cs).sel.setWidth 32 = loadBytes t (tableAddr s v + 2#32) 2
  csBase : (readSeg t.seg .cs).base.toNat = (readSeg t.seg .cs).sel.toNat * 16
  csLimit : (readSeg t.seg .cs).limit = (readSeg s.seg .cs).limit
  otherSegs : ∀ j, j ≠ .cs → readSeg t.seg j = readSeg s.seg j
  pfx : t.pfx = Prefixes.none
  draws : t.draws = s.draws
  inhibit : t.inhibit = s.inhibit
  system : SystemSame s t

/-- The word pushed at SP - `k` reaches beyond the limit of SS. -/
def PushBeyond (k : BitVec 16) (s : State) : Prop := (sp16 s - k).toNat + 1 > (readSeg s.seg .ss).limit.toNat

/-- The word pushed at SP - `k` lies within the limit of SS and in memory. -/
def PushFits (k : BitVec 16) (s : State) : Prop :=
  (sp16 s - k).toNat + 1 ≤ (readSeg s.seg .ss).limit.toNat ∧
  ∀ b < 2, isMapped s.cfg (physAddr s.cfg (pushAddr s k + BitVec.ofNat 32 b)) = true

/-- An entry for this vector meets a second exception: the vector lies beyond the limit of IDTR, or the first, the
second or the third push reaches beyond the limit of SS (R223, R224). -/
def EntryRaises (v : Byte) (s : State) : Prop :=
  4 * v.toNat + 3 > s.sys.idtr.limit.toNat ∨ PushBeyond 2#16 s ∨ (PushFits 2#16 s ∧ PushBeyond 4#16 s) ∨
    (PushFits 2#16 s ∧ PushFits 4#16 s ∧ PushBeyond 6#16 s)

/-! ### Special-register moves -/

/-- The six flags a special-register move leaves undefined: C, P, A, Z, S, O (42_mov_other_forms.md R187). -/
def freeFlag (b : Nat) : Prop := b = 0 ∨ b = 2 ∨ b = 4 ∨ b = 6 ∨ b = 7 ∨ b = 11

/-- The special-register forms are admitted, and `mod` is accepted on this stepping (R180, R194). -/
def SpecialOn (md : BitVec 2) (s : State) : Prop :=
  s.cfg.specialForms = true ∧ (md = 3#2 ∨ s.cfg.stepping = .late)

/-- The frame of a special-register move: it completes in three bytes; of the flags only the six free ones may change
(nothing is said of their values); segment registers, memory and what no special-register move writes are unchanged. -/
structure SpecialFrame (i : Instr) (s t : State) : Prop where
  completed : Completed i s t
  flags : ∀ b, ¬freeFlag b → t.flags.getLsbD b = s.flags.getLsbD b
  seg : t.seg = s.seg
  memory : SameMemory s t
  inhibit : t.inhibit = false
  test : t.test = s.test
  sys : t.sys = s.sys
  nmiPending : t.nmiPending = s.nmiPending
  intrPending : t.intrPending = s.intrPending
  arrivals : t.arrivals = s.arrivals
  ports : t.ports = s.ports
  cfg : t.cfg = s.cfg

/-- `x[r]` holds `v`, and the other general registers, the control and the debug registers are unchanged. -/
def SpecialRead (r : RegNum) (v : Word) (s t : State) : Prop :=
  readGpr t.gpr r = v ∧ OtherRegs r s t ∧ t.ctl = s.ctl ∧ t.dbg = s.dbg

/-! ### Fetching -/

/-- The bytes stand at the running fetch offset, each within the limit of CS and in memory. -/
def FetchHolds (s : State) (bs : List Byte) : Prop :=
  ∀ k, ∀ h : k < bs.length,
    fetchOffset s + k ≤ s.seg.cs.limit.toNat ∧ isMapped s.cfg (codeAddr s (fetchOffset s + k)) = true ∧
    readCell s.mem (codeAddr s (fetchOffset s + k)) = bs[k]

/-- The sizes of the prefixes read are those the instruction was encoded under. -/
def SizesFit (p : Prefixes) (i : Instr) : Prop :=
  (∀ sz, i.opSize? = some sz → sz = p.opSize) ∧ (∀ a, i.addr32? = some a → a = p.ad32)

/-- The opcodes whose `mod`+`r/m` field is an operand, with their `reg` field: 88h to 8Bh; 8Ch with a segment register;
8Eh with one that can be loaded; C6h and C7h with 000b (30_encoding.md R113, R115). -/
def TakesRm (op : Byte) (reg : BitVec 3) : Prop :=
  op = 0x88#8 ∨ op = 0x89#8 ∨ op = 0x8A#8 ∨ op = 0x8B#8 ∨ (op = 0x8C#8 ∧ reg.toNat ≤ 5) ∨
    (op = 0x8E#8 ∧ reg.toNat ≤ 5 ∧ reg ≠ 1#3) ∨ ((op = 0xC6#8 ∨ op = 0xC7#8) ∧ reg = 0#3)

/-- No interrupt is pending and none is presented. -/
def NoInterrupts (s : State) : Prop := s.nmiPending = false ∧ s.intrPending = none ∧ s.arrivals = []

/-- The constructors of the prefix bytes. -/
def prefixInstrs : List Instr :=
  [.prefixOperandSize, .prefixAddressSize, .prefixEs, .prefixCs, .prefixSs, .prefixDs, .prefixFs, .prefixGs,
    .prefixLock, .prefixRepne, .prefixRep]

/-- The segment a segment-override prefix names. -/
def prefixSeg : Instr → Option SReg
  | .prefixEs => some .es
  | .prefixCs => some .cs
  | .prefixSs => some .ss
  | .prefixDs => some .ds
  | .prefixFs => some .fs
  | .prefixGs => some .gs
  | _ => none

/-- The outcome with its next state, if it has one, changed. -/
def mapNext (f : State → State) : Outcome → Outcome
  | .next s => .next (f s)
  | .fault e => .fault e
  | .refused r => .refused r

end Sys2Proof.Claims

open Sys2Proof
open Sys2Proof.Machine
open Sys2Proof.Claims

/-! ## Encoding -/

/-- For every well-formed instruction, under prefixes that give it its sizes, decoding its encoding gives it back with
every operand and leaves the bytes after it (30_encoding.md R100 to R121). -/
def Obligations.DecodeOfEncodeIsTheInstruction : Prop :=
  ∀ (i : Instr) (p : Prefixes) (rest : List Byte), i.wf = true → p.fit i → decode p (encode i ++ rest) = .instr i rest

/-- Whatever the decoder reads as an instruction is a well-formed instruction of the sizes the prefixes give, and the
bytes read are its encoding: each word has one meaning. -/
def Obligations.DecodedBytesAreTheEncoding : Prop :=
  ∀ (p : Prefixes) (bs rest : List Byte) (i : Instr), decode p bs = .instr i rest →
    i.wf = true ∧ p.fit i ∧ bs = encode i ++ rest

/-- Words of the spec decode to the instructions they stand for: the source's Example 2 and Example 1 behind their
prefixes (R162, R164), LTR AX (R150), MOV SS,AX (R182), MOV EAX,CR0 (R188). -/
def Obligations.SpecWordsDecode : Prop :=
  decode { Prefixes.none with op32 := true, ad32 := true } [0x89#8, 0x04#8, 0xB4#8] =
    .instr (.movRmR .o32 (.mem (.sib 2#2 (some 6#3) 4#3 .none)) 0#3) [] ∧
  decode { Prefixes.none with ad32 := true } [0x8B#8, 0x44#8, 0x0B#8, 0x05#8] =
    .instr (.movRRm .o16 0#3 (.mem (.sib 0#2 (some 1#3) 3#3 (.d8 0x05#8)))) [] ∧
  decode Prefixes.none [0x0F#8, 0x00#8, 0xD8#8] = .instr (.ltr 3#2 0#3) [] ∧
  decode Prefixes.none [0x8E#8, 0xD0#8] = .instr (.movSregRm16 (.valid .ss (.reg 0#3))) [] ∧
  decode Prefixes.none [0x0F#8, 0x20#8, 0xC0#8] = .instr (.movRCr 3#2 0#3 0#3) []

/-- A SIB byte with `index`=100b and another `scale` than 00b is refused, in every form with a `mod`+`r/m` operand of
32-bit address mode: 88h to 8Bh, 8Ch and 8Eh with a `reg` they take, C6h and C7h with `reg` 000b (R108 (a)). That it is
refused before the bytes after the SIB byte are fetched is the model's choice (log 20), and so is its coming before the
refusal of 8Ch and 8Eh with their switch off (log 25). -/
def Obligations.SibScaleWithoutIndexRefused : Prop :=
  ∀ (p : Prefixes) (op : Byte) (md : BitVec 2) (reg : BitVec 3) (scale : BitVec 2) (base : BitVec 3)
    (rest : List Byte),
    TakesRm op reg → p.ad32 = true → p.lock = false → p.rep = false → md ≠ 3#2 → scale ≠ 0#2 →
    decode p (op :: (md ++ reg ++ 4#3) :: (scale ++ 4#3 ++ base) :: rest) = .refused .sibNoIndexWithScale

/-! ## A step -/

/-- A step from a state of real mode, when the bytes at the running fetch offset encode a well-formed instruction of
the sizes its prefixes give, no longer than 15 bytes with them, runs that instruction and then the instruction
boundary. -/
def Obligations.StepRunsDecodedInstruction : Prop :=
  ∀ (s : State) (i : Instr), outOfScope s = none → i.wf = true → s.pfx.fit i →
    s.pfx.count + (encode i).length ≤ 15 → FetchHolds s (encode i) →
    step s = afterInstruction (flagT s.flags) (exec i s)

/-- With flag T clear and no interrupt pending or presented, the boundary does nothing: the step is the instruction. -/
def Obligations.StepWithoutEventsIsTheInstruction : Prop :=
  ∀ (s : State) (i : Instr), outOfScope s = none → i.wf = true → s.pfx.fit i →
    s.pfx.count + (encode i).length ≤ 15 → FetchHolds s (encode i) → flagT s.flags = false → NoInterrupts s →
    step s = exec i s

/-- An instruction whose first bytes are in place, but which has a byte beyond the limit of CS (10_state.md R25) or is
longer than 15 bytes with its prefixes (R110), raises GeneralProtection with the `ip` of its first byte.That it does
so where that byte lies in a hole of memory too (log 24), and where the form's switch is off, before the refusal of
R180 (log 25), is the model's choice. -/
def Obligations.FetchBeyondLimitRaisesGeneralProtection : Prop :=
  ∀ (s : State) (i : Instr) (k : Nat), outOfScope s = none → i.wf = true → s.pfx.fit i →
    k < (encode i).length → FetchHolds s ((encode i).take k) → s.pfx.count + k ≤ 15 →
    (s.pfx.count + k = 15 ∨ fetchOffset s + k > s.seg.cs.limit.toNat) →
    step s = afterInstruction (flagT s.flags) (raiseFault .generalProtection s)

/-- A lock prefix before any instruction of the spec raises InvalidOpcode (R113 (d)). That it does so where the form's
switch is off too, before the refusal of R180, is the model's choice (log 25). -/
def Obligations.LockPrefixRaisesInvalidOpcode : Prop :=
  ∀ (s : State) (i : Instr), outOfScope s = none → i.wf = true → i.isPrefix = false → SizesFit s.pfx i →
    s.pfx.count + (encode i).length ≤ 15 → FetchHolds s (encode i) → s.pfx.lock = true → s.pfx.rep = false →
    step s = afterInstruction (flagT s.flags) (raiseFault .invalidOpcode s)

/-- A repeat prefix before any instruction of the spec is refused (R102). The statement holds with a lock prefix beside
it too, where the refusal coming before the InvalidOpcode of R113 (d) is the model's choice (log 10), and before the
reserved encodings, where its coming before their InvalidOpcode is (log 10). It holds where the form's switch is off
too, where its coming before the refusal of R180 is the model's choice (log 25). -/
def Obligations.RepeatPrefixRefused : Prop :=
  ∀ (s : State) (i : Instr), outOfScope s = none → i.wf = true → i.isPrefix = false → SizesFit s.pfx i →
    s.pfx.count + (encode i).length ≤ 15 → FetchHolds s (encode i) → s.pfx.rep = true →
    step s = .refused .repPrefix

/-! ## Prefix bytes -/

/-- Every prefix byte completes as one step of the decoder loop, unless it is a second segment override that names
another segment: it records itself and changes nothing else; `ip` still points at the first byte of the instruction
(R101, R102, R110, 10_state.md R25). -/
def Obligations.PrefixBytesAreRecorded : Prop :=
  ∀ (s : State) (i : Instr), i ∈ prefixInstrs → (∀ j k, prefixSeg i = some j → s.pfx.seg = some k → k = j) →
    ∃ p, exec i s = .next { s with pfx := p } ∧ p.count = s.pfx.count + 1 ∧
      p.op32 = (s.pfx.op32 || i == .prefixOperandSize) ∧ p.ad32 = (s.pfx.ad32 || i == .prefixAddressSize) ∧
      p.lock = (s.pfx.lock || i == .prefixLock) ∧ p.rep = (s.pfx.rep || i == .prefixRepne || i == .prefixRep) ∧
      p.seg = (prefixSeg i).or s.pfx.seg

/-- A second segment override that names another segment is refused (R110). -/
def Obligations.SecondSegmentOverrideRefused : Prop :=
  ∀ (s : State) (i : Instr) (j k : SReg), prefixSeg i = some j → s.pfx.seg = some k → k ≠ j →
    exec i s = .refused .twoSegmentOverrides

/-- The prefixes may come in any order, and a repeated one has the same effect as one but for the length (R110). -/
def Obligations.PrefixOrderDoesNotMatter : Prop :=
  ∀ (s t u t' : State) (i j : Instr), i ∈ prefixInstrs → j ∈ prefixInstrs → exec i s = .next t → exec j t = .next u →
    exec j s = .next t' → exec i t' = .next u ∧
    ∃ v, exec i t = .next v ∧ v.pfx.count = t.pfx.count + 1 ∧
      { v with pfx := { v.pfx with count := t.pfx.count } } = t

/-! ## Invariants -/

/-- Real mode is never left: launch premises P1 to P4 (10_state.md R56) and the canonical form of memory are kept by
every step, from every state that has them. -/
def Obligations.StepKeepsRealMode : Prop :=
  ∀ s t : State, RealMode s → s.mem.wf = true → step s = .next t → RealMode t ∧ t.mem.wf = true

/-- The reset state meets the launch premises P1 to P6 and its memory is canonical (R55, R56). P6 holds of it because
nothing is placed in memory and its first step is refused, which is the model's choice (log 12). -/
def Obligations.ResetMeetsLaunchPremises : Prop :=
  LaunchPremises State.reset ∧ State.reset.mem.wf = true

/-- The values R55 states for reset, and the address of the first fetch; EAX as after a self-test that passed (log 4).
Values R55 calls unspecified are not mentioned. -/
def Obligations.ResetState : Prop :=
  State.reset.gpr.eax = 0x00000000#32 ∧ State.reset.gpr.edx.extractLsb' 8 24 = 0x000004#24 ∧
  State.reset.ip = 0x0000FFF0#32 ∧ State.reset.flags = 0x00000002#32 ∧
  State.reset.seg.cs = ⟨0xF000#16, 0xFFFF0000#32, 0xFFFF#32⟩ ∧
  (∀ j, j ≠ SReg.cs → readSeg State.reset.seg j = ⟨0x0000#16, 0x00000000#32, 0xFFFF#32⟩) ∧
  State.reset.ctl.cr0 = 0x60000010#32 ∧ State.reset.dbg.dr7 = 0x00000000#32 ∧
  State.reset.sys.idtr = ⟨0x00000000#32, 0x03FF#16⟩ ∧ State.reset.inhibit = false ∧
  codeAddr State.reset (fetchOffset State.reset) = 0xFFFFFFF0

/-- TR, GDTR and LDTR are never changed, nor IDTR, the test registers, the I/O ports and the parameters of the machine
(R40, R37, R46, 42_mov_other_forms.md R193). -/
def Obligations.StepKeepsSystemRegisters : Prop :=
  ∀ s t : State, step s = .next t →
    t.sys.tr = s.sys.tr ∧ t.sys.ldtr = s.sys.ldtr ∧ t.sys.gdtr = s.sys.gdtr ∧ t.sys.idtr = s.sys.idtr ∧
    t.test = s.test ∧ t.ports = s.ports ∧ t.cfg = s.cfg

/-- The flags: no step sets I or T, and D, IOPL, NT, RF, VM, AC and the reserved bits never change (R27, R215); O, S,
Z, A, P and C change only in a step that runs a special-register move, which leaves them undefined (R187). -/
def Obligations.StepNeverSetsInterruptOrTrapFlag : Prop :=
  ∀ s t : State, step s = .next t → ∀ b,
    (¬freeFlag b → t.flags.getLsbD b = s.flags.getLsbD b ∨ ((b = 8 ∨ b = 9) ∧ t.flags.getLsbD b = false)) ∧
    (freeFlag b → t.flags.getLsbD b ≠ s.flags.getLsbD b →
      ∃ i rest, decodeNext s = .instr i rest ∧ i.isSpecialMove = true)

/-- Interrupts become inhibited only by a load of SS, as an instruction and as a step with all that its boundary does
(10_state.md R48, 42_mov_other_forms.md R182). -/
def Obligations.OnlyLoadOfSsInhibits : Prop :=
  (∀ (s t : State) (i : Instr), exec i s = .next t → s.inhibit = false → t.inhibit = true →
    ∃ rm, i = .movSregRm16 (.valid .ss rm)) ∧
  (∀ s t : State, step s = .next t → s.inhibit = false → t.inhibit = true →
    ∃ rm rest, decodeNext s = .instr (.movSregRm16 (.valid .ss rm)) rest)

/-- No meaning rests on the test registers: a step from a state with other test registers has the same outcome, but for
them (R37). -/
def Obligations.TestRegistersAreInvisible : Prop :=
  ∀ (s : State) (x : TestRegs), step { s with test := x } = mapNext (fun t => { t with test := x }) (step s)

/-- Equal memories are equal data: two memories in canonical form that hold the same byte at every one of the 2^32
physical addresses are the same list (10_state.md R45; the form is the model's, log 3). -/
def Obligations.CanonicalMemoryIsUnique : Prop :=
  ∀ m m' : Memory, m.wf = true → m'.wf = true → (∀ p < 4294967296, readCell m p = readCell m' p) → m = m'

/-! ## Registers, bytes, addresses -/

/-- The aliasing of the general registers: the 16-bit register i is bits 15:0 of the 32-bit register i; the 8-bit
registers 0 to 3 are bits 7:0 and 4 to 7 bits 15:8 of x[0] to x[3]; a write changes only its own bits (R22). -/
def Obligations.RegisterAliasing : Prop :=
  ∀ (s : State) (i : RegNum) (v : Word),
    readX .w i s.gpr = ((readGpr s.gpr i).extractLsb' 0 16).setWidth 32 ∧
    (i.toNat < 4 → readX .b i s.gpr = ((readGpr s.gpr i).extractLsb' 0 8).setWidth 32) ∧
    (4 ≤ i.toNat → readX .b i s.gpr = ((readGpr s.gpr (i - 4#3)).extractLsb' 8 8).setWidth 32) ∧
    ∀ sz, RegReceives sz i v s (setX sz i v s)

/-- Little-endian: what a memory read assembles, what a memory write stores, and the order of the bytes of a
displacement or immediate (R60). -/
def Obligations.ByteOrderIsLittleEndian : Prop :=
  (∀ (s : State) (a : Word),
    loadBytes s a 1 = (readLinear s a).setWidth 32 ∧
    loadBytes s a 2 = (readLinear s (a + 1#32) ++ readLinear s a).setWidth 32 ∧
    loadBytes s a 4 =
      readLinear s (a + 3#32) ++ readLinear s (a + 2#32) ++ readLinear s (a + 1#32) ++ readLinear s a) ∧
  (∀ (s : State) (a v : Word) (n : Nat), s.mem.wf = true → n ≤ 4 →
    MemoryReceives a n v s { s with mem := storeBytes s.cfg s.mem a n v }) ∧
  (∀ (v : BitVec 16) (k : Nat) (h : k < 2), (bytes16 v)[k]'h = v.extractLsb' (8 * k) 8) ∧
  (∀ (v : Word) (k : Nat) (h : k < 4), (bytes32 v)[k]'h = v.extractLsb' (8 * k) 8) ∧
  (∀ (v : BitVec 16) (rest : List Byte), take16 (bytes16 v ++ rest) = .ok v rest) ∧
  (∀ (v : Word) (rest : List Byte), take32 (bytes32 v ++ rest) = .ok v rest)

/-- An access of n bytes is n byte accesses: byte j of what a read returns is the byte the last write left at that
address, here after one write of any width, and the byte before it where the write did not reach (R61). -/
def Obligations.NarrowReadAfterWideWrite : Prop :=
  ∀ (s : State) (a b v : Word) (n m j : Nat), s.mem.wf = true → n ≤ 4 → m ≤ 4 → j < m →
    (∀ k < n, physAddr s.cfg (b + BitVec.ofNat 32 j) = physAddr s.cfg (a + BitVec.ofNat 32 k) →
      (loadBytes { s with mem := storeBytes s.cfg s.mem a n v } b m).extractLsb' (8 * j) 8 = v.extractLsb' (8 * k) 8) ∧
    ((∀ k < n, physAddr s.cfg (b + BitVec.ofNat 32 j) ≠ physAddr s.cfg (a + BitVec.ofNat 32 k)) →
      (loadBytes { s with mem := storeBytes s.cfg s.mem a n v } b m).extractLsb' (8 * j) 8 =
        readLinear s (b + BitVec.ofNat 32 j))

/-- The effective address of 16-bit address mode is the sum of the form's registers and the displacement, an 8-bit one
taken as signed, modulo 2^16 (R62, R105, R111). -/
def Obligations.EffectiveAddress16 : Prop :=
  ∀ (g : Gprs) (d : Disp16) (x : Int),
    (d = .none ∧ x = 0) ∨ (∃ b, d = .d8 b ∧ x = b.toInt) ∨ (∃ w, d = .d16 w ∧ x = w.toNat) →
    ((effAddr g (.form16 .bxSi d)).toNat : Int) = ((readX .w 3#3 g).toNat + (readX .w 6#3 g).toNat + x) % 65536 ∧
    ((effAddr g (.form16 .bxDi d)).toNat : Int) = ((readX .w 3#3 g).toNat + (readX .w 7#3 g).toNat + x) % 65536 ∧
    ((effAddr g (.form16 .bpSi d)).toNat : Int) = ((readX .w 5#3 g).toNat + (readX .w 6#3 g).toNat + x) % 65536 ∧
    ((effAddr g (.form16 .bpDi d)).toNat : Int) = ((readX .w 5#3 g).toNat + (readX .w 7#3 g).toNat + x) % 65536 ∧
    ((effAddr g (.form16 .si d)).toNat : Int) = ((readX .w 6#3 g).toNat + x) % 65536 ∧
    ((effAddr g (.form16 .di d)).toNat : Int) = ((readX .w 7#3 g).toNat + x) % 65536 ∧
    ((effAddr g (.form16 .bp d)).toNat : Int) = ((readX .w 5#3 g).toNat + x) % 65536 ∧
    ((effAddr g (.form16 .bx d)).toNat : Int) = ((readX .w 3#3 g).toNat + x) % 65536 ∧
    (∀ w : BitVec 16, (effAddr g (.direct16 w)).toNat = w.toNat)

/-- The effective address of 32-bit address mode: base, plus index times 1, 2, 4 or 8, plus the displacement, an 8-bit
one taken as signed, modulo 2^32; no index is 0 (R62, R106, R107, R108, R111). -/
def Obligations.EffectiveAddress32 : Prop :=
  ∀ (g : Gprs) (b : RegNum) (scale : BitVec 2) (d : Disp32) (x : Int),
    (d = .none ∧ x = 0) ∨ (∃ c, d = .d8 c ∧ x = c.toInt) ∨ (∃ w, d = .d32 w ∧ x = w.toNat) →
    ((effAddr g (.base32 b d)).toNat : Int) = ((readGpr g b).toNat + x) % 4294967296 ∧
    ((effAddr g (.sib scale none b d)).toNat : Int) = ((readGpr g b).toNat + x) % 4294967296 ∧
    (∀ i, ((effAddr g (.sib scale (some i) b d)).toNat : Int) =
      ((readGpr g b).toNat + (readGpr g i).toNat * 2 ^ scale.toNat + x) % 4294967296) ∧
    (∀ (i : RegNum) (w : Word), (effAddr g (.sibNoBase scale (some i) w)).toNat =
      ((readGpr g i).toNat * 2 ^ scale.toNat + w.toNat) % 4294967296) ∧
    (∀ w : Word, effAddr g (.sibNoBase scale none w) = w ∧ effAddr g (.direct32 w) = w)

/-- Without an override the segment is SS exactly when the base register is BP, EBP or ESP, and DS otherwise, also for
a memory offset; an override names the segment whatever the form (R109). -/
def Obligations.DefaultSegment : Prop :=
  ∀ (s : State) (m : MemOp),
    (∀ j, s.pfx.seg = some j → memSeg s m = j ∧ moffsSeg s = j) ∧
    (s.pfx.seg = none → moffsSeg s = .ds ∧ (memSeg s m = .ss ∨ memSeg s m = .ds) ∧
      (memSeg s m = .ss ↔
        (∃ f d, m = .form16 f d ∧ (f = .bpSi ∨ f = .bpDi ∨ f = .bp)) ∨
        (∃ b d, m = .base32 b d ∧ (b = 4#3 ∨ b = 5#3)) ∨
        (∃ c i b d, m = .sib c i b d ∧ (b = 4#3 ∨ b = 5#3))))

/-- The linear address is the base of the segment plus the offset, modulo 2^32; the physical address is the linear one,
but for bit 20, which `a20_mask` forces to 0; after a real-mode load of the segment register with v it is v times 16
plus the offset (R63, 10_state.md R30). -/
def Obligations.SegmentTimesSixteenPlusOffset : Prop :=
  ∀ (s : State) (j : SReg) (v : BitVec 16) (off : Word),
    (linear s j off).toNat = ((readSeg s.seg j).base.toNat + off.toNat) % 4294967296 ∧
    (s.cfg.a20Mask = false → ∀ a : Word, physAddr s.cfg a = a.toNat) ∧
    (s.cfg.a20Mask = true → ∀ (a : Word) (b : Nat), (physAddr s.cfg a).testBit b = (a.getLsbD b && b != 20)) ∧
    (linear (loadSeg j v s) j off).toNat = (v.toNat * 16 + off.toNat) % 4294967296 ∧
    (readSeg (loadSeg j v s).seg j).sel = v ∧
    ∀ k, (readSeg (loadSeg j v s).seg k).limit = (readSeg s.seg k).limit ∧
      (k ≠ j → readSeg (loadSeg j v s).seg k = readSeg s.seg k)

/-! ## MOV: results, frames and completion -/

/-- MOV r/m8,r8 and MOV r/m,r complete wherever the destination can be written: it receives the register, and nothing
else changes (R160, R161, R162, R169). -/
def Obligations.MovRegisterToOperand : Prop :=
  ∀ (s : State) (rm : Rm) (reg : RegNum), s.mem.wf = true →
    (OperandWritable .b rm s → OperandReceives .b rm (readX .b reg s.gpr) (.movRm8R8 rm reg) s) ∧
    (∀ sz, OperandWritable (sizeOf1 sz) rm s →
      OperandReceives (sizeOf1 sz) rm (readX (sizeOf1 sz) reg s.gpr) (.movRmR sz rm reg) s)

/-- MOV r8,r/m8 and MOV r,r/m complete wherever the source can be read: the register receives it, and nothing else
changes (R160, R163, R164, R169, R171 (b)). -/
def Obligations.MovOperandToRegister : Prop :=
  ∀ (s : State) (rm : Rm) (reg : RegNum),
    (OperandReadable .b rm s → RegisterReceives .b reg (OperandValue .b rm s) (.movR8Rm8 reg rm) s) ∧
    (∀ sz, OperandReadable (sizeOf1 sz) rm s →
      RegisterReceives (sizeOf1 sz) reg (OperandValue (sizeOf1 sz) rm s) (.movRRm sz reg rm) s)

/-- MOV r8,imm8 and MOV r,imm complete in every state: the register receives the immediate, and nothing else changes
(R165, R166). -/
def Obligations.MovImmediateToRegister : Prop :=
  ∀ (s : State) (reg : RegNum),
    (∀ imm : Byte, RegisterReceives .b reg (imm.setWidth 32) (.movR8Imm8 reg imm) s) ∧
    (∀ imm : BitVec 16, RegisterReceives .w reg (imm.setWidth 32) (.movRImm reg (.i16 imm)) s) ∧
    (∀ imm : Word, RegisterReceives .d reg imm (.movRImm reg (.i32 imm)) s)

/-- MOV r/m8,imm8 and MOV r/m,imm complete wherever the destination can be written: it receives the immediate, and
nothing else changes (R167, R168). -/
def Obligations.MovImmediateToOperand : Prop :=
  ∀ (s : State) (rm : Rm), s.mem.wf = true →
    (∀ imm : Byte, OperandWritable .b rm s → OperandReceives .b rm (imm.setWidth 32) (.movRm8Imm8 rm imm) s) ∧
    (∀ imm : BitVec 16, OperandWritable .w rm s →
      OperandReceives .w rm (imm.setWidth 32) (.movRmImm rm (.i16 imm)) s) ∧
    (∀ imm : Word, OperandWritable .d rm s → OperandReceives .d rm imm (.movRmImm rm (.i32 imm)) s)

/-- MOV r/m16,sreg completes wherever the destination can be written: two bytes of memory whatever the operand size; 16
bits of a register in 16-bit operand mode; in 32-bit operand mode the low half of the register receives the selector
and nothing is said of the upper half (R181). -/
def Obligations.MovSegmentToOperand : Prop :=
  ∀ (s : State) (sr : SReg) (rm : Rm), s.mem.wf = true → s.cfg.sregForms = true → OperandWritable .w rm s →
    OperandReceives .w rm ((readSeg s.seg sr).sel.setWidth 32) (.movRm16Sreg .o16 (.valid sr rm)) s ∧
    (∀ m, rm = .mem m → ∀ sz,
      OperandReceives .w rm ((readSeg s.seg sr).sel.setWidth 32) (.movRm16Sreg sz (.valid sr rm)) s) ∧
    (∀ r, rm = .reg r → ∃ t, exec (.movRm16Sreg .o32 (.valid sr rm)) s = .next t ∧
      MoveFrame (.movRm16Sreg .o32 (.valid sr rm)) s t ∧ SameMemory s t ∧ OtherRegs r s t ∧
      (readGpr t.gpr r).extractLsb' 0 16 = (readSeg s.seg sr).sel ∧ t.draws = s.draws + 1)

/-- MOV sreg,r/m16 to a segment register other than CS completes wherever the source can be read, whatever the operand
size: selector and base receive it, the limit stays, SS inhibits interrupts until the next instruction has executed,
and nothing else changes (R182, R30, R48). -/
def Obligations.MovOperandToSegment : Prop :=
  ∀ (s : State) (sr : SReg) (rm : Rm), sr ≠ .cs → s.cfg.sregForms = true → OperandReadable .w rm s →
    ∃ t, exec (.movSregRm16 (.valid sr rm)) s = .next t ∧ Completed (.movSregRm16 (.valid sr rm)) s t ∧
      (readSeg t.seg sr).sel.setWidth 32 = OperandValue .w rm s ∧
      (readSeg t.seg sr).base.toNat = (OperandValue .w rm s).toNat * 16 ∧
      (readSeg t.seg sr).limit = (readSeg s.seg sr).limit ∧
      (∀ j, j ≠ sr → readSeg t.seg j = readSeg s.seg j) ∧ t.inhibit = (sr == .ss) ∧
      t.flags = s.flags ∧ t.gpr = s.gpr ∧ SameMemory s t ∧ t.draws = s.draws ∧ SystemSame s t

/-- MOV AL,[moffs] and MOV AX/EAX,[moffs] complete wherever the bytes can be read: the accumulator receives them, and
nothing else changes (R183, R184). -/
def Obligations.MovOffsetToAccumulator : Prop :=
  ∀ (s : State) (a : Moffs), s.cfg.moffsForms = true →
    (CanRead s (moffsSeg s) (moffsOffset a) 1 →
      RegisterReceives .b 0#3 (loadBytes s (moffsAddr s a) 1) (.movAlMoffs a) s) ∧
    (∀ sz, CanRead s (moffsSeg s) (moffsOffset a) (sizeBytes (sizeOf1 sz)) →
      RegisterReceives (sizeOf1 sz) 0#3 (loadBytes s (moffsAddr s a) (sizeBytes (sizeOf1 sz))) (.movAxMoffs sz a) s)

/-- MOV [moffs],AL and MOV [moffs],AX/EAX complete wherever the bytes can be written: they receive the accumulator, and
nothing else changes (R185, R186). -/
def Obligations.MovAccumulatorToOffset : Prop :=
  ∀ (s : State) (a : Moffs), s.mem.wf = true → s.cfg.moffsForms = true →
    (CanWrite s (moffsSeg s) (moffsOffset a) 1 →
      BytesReceive (moffsAddr s a) 1 (readX .b 0#3 s.gpr) (.movMoffsAl a) s) ∧
    (∀ sz, CanWrite s (moffsSeg s) (moffsOffset a) (sizeBytes (sizeOf1 sz)) →
      BytesReceive (moffsAddr s a) (sizeBytes (sizeOf1 sz)) (readX (sizeOf1 sz) 0#3 s.gpr) (.movMoffsAx sz a) s)

/-- A memory operand that reaches beyond the limit of its segment raises StackFault through SS and GeneralProtection
otherwise, before any byte moves, in every form that has one (20_memory.md R64, 41_mov.md R170, R213, R214). -/
def Obligations.AccessBeyondLimitRaises : Prop :=
  (∀ (s : State) (i : Instr) (m : MemOp) (n : Nat), AccessesMemory i m n →
    (effAddr s.gpr m).toNat + (n - 1) > (readSeg s.seg (memSeg s m)).limit.toNat →
    exec i s = raiseFault (if memSeg s m = .ss then .stackFault else .generalProtection) s) ∧
  (∀ (s : State) (i : Instr) (m : MemOp), AccessesSelector i m → s.cfg.sregForms = true →
    (effAddr s.gpr m).toNat + 1 > (readSeg s.seg (memSeg s m)).limit.toNat →
    exec i s = raiseFault (if memSeg s m = .ss then .stackFault else .generalProtection) s) ∧
  (∀ (s : State) (i : Instr) (a : Moffs) (n : Nat), AccessesMoffs i a n → s.cfg.moffsForms = true →
    (moffsOffset a).toNat + (n - 1) > (readSeg s.seg (moffsSeg s)).limit.toNat →
    exec i s = raiseFault (if moffsSeg s = .ss then .stackFault else .generalProtection) s)

/-- A MOV that stores into the program text is refused, in every form that stores, when it lies within the limit of its
segment (R81); which addresses are the program text is a parameter (log 11). So with the entry off no step changes a
byte of the program text, and launch premise P6 of 10_state.md R56 asks only that the bytes executed belong to it. -/
def Obligations.StoreIntoProgramTextRefused : Prop :=
  (∀ (s : State) (i : Instr) (j : SReg) (off : Word) (n k : Nat), StoresAt s i j off n → k < n →
    off.toNat + (n - 1) ≤ (readSeg s.seg j).limit.toNat →
    isProgramText s.cfg (physAddr s.cfg (linear s j off + BitVec.ofNat 32 k)) = true →
    exec i s = .refused .storeIntoProgramText) ∧
  (∀ s t : State, s.mem.wf = true → s.cfg.modelTrapEntry = false → step s = .next t →
    ∀ p, isProgramText s.cfg p = true → readCell t.mem p = readCell s.mem p) ∧
  (∀ launch : State, launch.mem.wf = true → launch.cfg.modelTrapEntry = false →
    (∀ s p, Executes launch s p → isProgramText launch.cfg p = true) → NothingStale launch)

/-- A register-to-register MOV has two encodings with the same effect, `d`=0 and `d`=1 (R114 (a)). -/
def Obligations.DirectionBitIsRedundant : Prop :=
  ∀ (s : State) (a b : RegNum),
    exec (.movRm8R8 (.reg a) b) s = exec (.movR8Rm8 a (.reg b)) s ∧
    (∀ sz, exec (.movRmR sz (.reg a) b) s = exec (.movRRm sz a (.reg b)) s)

/-- A memory-offset load has the effect of the 8Ah or 8Bh load of the accumulator from the same offset, encoded in one
byte less (42_mov_other_forms.md R183, R184). -/
def Obligations.MemoryOffsetLoadIsDirectLoad : Prop :=
  ∀ (s : State) (a : Moffs) (m : MemOp), s.cfg.moffsForms = true →
    (∃ w, a = .m16 w ∧ m = .direct16 w) ∨ (∃ w, a = .m32 w ∧ m = .direct32 w) →
    (CanRead s (moffsSeg s) (moffsOffset a) 1 →
      ∃ t, exec (.movAlMoffs a) s = .next t ∧ exec (.movR8Rm8 0#3 (.mem m)) s = .next { t with ip := t.ip + 1#32 }) ∧
    (∀ sz, CanRead s (moffsSeg s) (moffsOffset a) (sizeBytes (sizeOf1 sz)) →
      ∃ t, exec (.movAxMoffs sz a) s = .next t ∧
        exec (.movRRm sz 0#3 (.mem m)) s = .next { t with ip := t.ip + 1#32 })

/-- A form whose switch is off is refused (R180). That it is refused also where the form, switched on,
would raise an exception is the model's choice (log 25): InvalidOpcode for 8Ch and 8Eh with a bad segment register
number or CS as destination (R113 (b), (c)) and for the special-register moves with a bad `mod` or register (R187, R194,
R195), or the exception of an operand beyond its limit. -/
def Obligations.FormNotAdmittedRefused : Prop :=
  (∀ (s : State), s.cfg.sregForms = false →
    (∀ sz ops, exec (.movRm16Sreg sz ops) s = .refused .formNotAdmitted) ∧
    (∀ ops, exec (.movSregRm16 ops) s = .refused .formNotAdmitted)) ∧
  (∀ (s : State), s.cfg.moffsForms = false → ∀ a,
    exec (.movAlMoffs a) s = .refused .formNotAdmitted ∧ exec (.movMoffsAl a) s = .refused .formNotAdmitted ∧
    ∀ sz, exec (.movAxMoffs sz a) s = .refused .formNotAdmitted ∧
      exec (.movMoffsAx sz a) s = .refused .formNotAdmitted) ∧
  (∀ (s : State), s.cfg.specialForms = false → ∀ md n reg,
    exec (.movRCr md n reg) s = .refused .formNotAdmitted ∧ exec (.movCrR md n reg) s = .refused .formNotAdmitted ∧
    exec (.movRDr md n reg) s = .refused .formNotAdmitted ∧ exec (.movDrR md n reg) s = .refused .formNotAdmitted ∧
    exec (.movRTr md n reg) s = .refused .formNotAdmitted ∧ exec (.movTrR md n reg) s = .refused .formNotAdmitted)

/-! ## Special-register moves -/

/-- MOV r32,CRn for the control registers the 80486 has: the register receives all 32 bits of CR0 (ET reading 1), CR2 or
CR3; of the flags only the six free ones may change (R187, R188, R35). That ET reads 1 whatever was written is the
model's reading (log 13). -/
def Obligations.MovFromControlRegister : Prop :=
  ∀ (s : State) (md : BitVec 2) (reg : RegNum), SpecialOn md s →
    (∃ t, exec (.movRCr md 0#3 reg) s = .next t ∧ SpecialFrame (.movRCr md 0#3 reg) s t ∧
      SpecialRead reg (s.ctl.cr0 ||| 0x10#32) s t) ∧
    (∃ t, exec (.movRCr md 2#3 reg) s = .next t ∧ SpecialFrame (.movRCr md 2#3 reg) s t ∧
      SpecialRead reg s.ctl.cr2 s t) ∧
    (∃ t, exec (.movRCr md 3#3 reg) s = .next t ∧ SpecialFrame (.movRCr md 3#3 reg) s t ∧
      SpecialRead reg s.ctl.cr3 s t)

/-- MOV CRn,r32: CR2 and CR3 receive the register; CR0 does when neither PE nor PG would be set and, on the early
stepping, CD would not change (R189). Nothing else changes but the six free flags. -/
def Obligations.MovToControlRegister : Prop :=
  ∀ (s : State) (md : BitVec 2) (reg : RegNum), SpecialOn md s →
    ((readGpr s.gpr reg).getLsbD 0 = false → (readGpr s.gpr reg).getLsbD 31 = false →
      (s.cfg.stepping = .late ∨ (readGpr s.gpr reg).getLsbD 30 = s.ctl.cr0.getLsbD 30) →
      ∃ t, exec (.movCrR md 0#3 reg) s = .next t ∧ SpecialFrame (.movCrR md 0#3 reg) s t ∧
        t.ctl = { s.ctl with cr0 := readGpr s.gpr reg } ∧ t.gpr = s.gpr ∧ t.dbg = s.dbg) ∧
    (∃ t, exec (.movCrR md 2#3 reg) s = .next t ∧ SpecialFrame (.movCrR md 2#3 reg) s t ∧
      t.ctl = { s.ctl with cr2 := readGpr s.gpr reg } ∧ t.gpr = s.gpr ∧ t.dbg = s.dbg) ∧
    (∃ t, exec (.movCrR md 3#3 reg) s = .next t ∧ SpecialFrame (.movCrR md 3#3 reg) s t ∧
      t.ctl = { s.ctl with cr3 := readGpr s.gpr reg } ∧ t.gpr = s.gpr ∧ t.dbg = s.dbg)

/-- MOV CR0,r32 is refused where it would set PE or PG, and on the early stepping where it would change CD (R189,
R274). -/
def Obligations.Cr0WriteRefusals : Prop :=
  ∀ (s : State) (md : BitVec 2) (reg : RegNum), SpecialOn md s →
    ((readGpr s.gpr reg).getLsbD 0 = true ∨ (readGpr s.gpr reg).getLsbD 31 = true →
      exec (.movCrR md 0#3 reg) s = .refused .leavesRealMode) ∧
    ((readGpr s.gpr reg).getLsbD 0 = false → (readGpr s.gpr reg).getLsbD 31 = false → s.cfg.stepping = .early →
      (readGpr s.gpr reg).getLsbD 30 ≠ s.ctl.cr0.getLsbD 30 →
      exec (.movCrR md 0#3 reg) s = .refused .erratumR274)

/-- MOV r32,DRn for the debug registers the 80486 has: the register receives DR0 to DR3, DR6 or DR7 (R190). -/
def Obligations.MovFromDebugRegister : Prop :=
  ∀ (s : State) (md : BitVec 2) (reg : RegNum) (n : BitVec 3) (v : Word), SpecialOn md s →
    (n = 0#3 ∧ v = s.dbg.dr0) ∨ (n = 1#3 ∧ v = s.dbg.dr1) ∨ (n = 2#3 ∧ v = s.dbg.dr2) ∨ (n = 3#3 ∧ v = s.dbg.dr3) ∨
      (n = 6#3 ∧ v = s.dbg.dr6) ∨ (n = 7#3 ∧ v = s.dbg.dr7) →
    ∃ t, exec (.movRDr md n reg) s = .next t ∧ SpecialFrame (.movRDr md n reg) s t ∧ SpecialRead reg v s t

/-- MOV DRn,r32 for the debug registers the 80486 has: DRn receives the register, unless it is DR7 and one of bits 7:0
would be set (R191). Nothing else changes but the six free flags. -/
def Obligations.MovToDebugRegister : Prop :=
  ∀ (s : State) (md : BitVec 2) (reg : RegNum) (n : BitVec 3) (d : DebugRegs), SpecialOn md s →
    (n = 0#3 ∧ d = { s.dbg with dr0 := readGpr s.gpr reg }) ∨ (n = 1#3 ∧ d = { s.dbg with dr1 := readGpr s.gpr reg }) ∨
      (n = 2#3 ∧ d = { s.dbg with dr2 := readGpr s.gpr reg }) ∨ (n = 3#3 ∧ d = { s.dbg with dr3 := readGpr s.gpr reg }) ∨
      (n = 6#3 ∧ d = { s.dbg with dr6 := readGpr s.gpr reg }) ∨
      (n = 7#3 ∧ d = { s.dbg with dr7 := readGpr s.gpr reg } ∧ (readGpr s.gpr reg).toNat % 256 = 0) →
    ∃ t, exec (.movDrR md n reg) s = .next t ∧ SpecialFrame (.movDrR md n reg) s t ∧ t.dbg = d ∧ t.gpr = s.gpr ∧
      t.ctl = s.ctl

/-- A write of DR7, by its own number or by its alias 5 on the late stepping, that sets one of bits 7:0 is refused
(R191, R195). -/
def Obligations.EnablingBreakpointsRefused : Prop :=
  ∀ (s : State) (md : BitVec 2) (reg : RegNum), SpecialOn md s → (readGpr s.gpr reg).toNat % 256 ≠ 0 →
    exec (.movDrR md 7#3 reg) s = .refused .enablesBreakpoints ∧
    (s.cfg.stepping = .late → exec (.movDrR md 5#3 reg) s = .refused .enablesBreakpoints)

/-- MOV r32,TRn for TR3 to TR7 completes: nothing is said of the value the register receives or of the six free flags,
and nothing else changes (R192, R187). -/
def Obligations.MovFromTestRegister : Prop :=
  ∀ (s : State) (md : BitVec 2) (n : BitVec 3) (reg : RegNum), SpecialOn md s → 3 ≤ n.toNat →
    ∃ t, exec (.movRTr md n reg) s = .next t ∧ SpecialFrame (.movRTr md n reg) s t ∧ OtherRegs reg s t ∧
      t.ctl = s.ctl ∧ t.dbg = s.dbg ∧ t.draws = s.draws + 2

/-- MOV TRn,r32 for TR3 to TR7 stops: every write of a test register is refused (R193). -/
def Obligations.TestRegisterWriteRefused : Prop :=
  ∀ (s : State) (md : BitVec 2) (n : BitVec 3) (reg : RegNum), SpecialOn md s → 3 ≤ n.toNat →
    exec (.movTrR md n reg) s = .refused .testRegisterWrite

/-- A number that names no register of the 80486 raises InvalidOpcode: CR1, CR4 to CR7, TR0 to TR2 (R187). -/
def Obligations.MissingSpecialRegisterRaises : Prop :=
  ∀ (s : State) (md : BitVec 2) (n : BitVec 3) (reg : RegNum), SpecialOn md s →
    (n = 1#3 ∨ 4 ≤ n.toNat → exec (.movRCr md n reg) s = raiseFault .invalidOpcode s ∧
      exec (.movCrR md n reg) s = raiseFault .invalidOpcode s) ∧
    (n.toNat ≤ 2 → exec (.movRTr md n reg) s = raiseFault .invalidOpcode s ∧
      exec (.movTrR md n reg) s = raiseFault .invalidOpcode s)

/-- The `mod` field of the special-register moves: other than 11b it raises InvalidOpcode on the early stepping and is
ignored on the late one (R194). -/
def Obligations.SpecialMoveModField : Prop :=
  ∀ (s : State) (md : BitVec 2) (n : BitVec 3) (reg : RegNum) (f : BitVec 2 → BitVec 3 → RegNum → Instr),
    f ∈ [Instr.movRCr, Instr.movCrR, Instr.movRDr, Instr.movDrR, Instr.movRTr, Instr.movTrR] →
    s.cfg.specialForms = true →
    (s.cfg.stepping = .early → md ≠ 3#2 → exec (f md n reg) s = raiseFault .invalidOpcode s) ∧
    (s.cfg.stepping = .late → exec (f md n reg) s = exec (f 3#2 n reg) s)

/-- DR4 and DR5: InvalidOpcode on the early stepping; on the late one they act on DR6 and DR7 (R195). -/
def Obligations.DebugRegisterFourAndFive : Prop :=
  ∀ (s : State) (reg : RegNum) (md : BitVec 2) (f : BitVec 2 → BitVec 3 → RegNum → Instr),
    f ∈ [Instr.movRDr, Instr.movDrR] → s.cfg.specialForms = true →
    (s.cfg.stepping = .early → exec (f md 4#3 reg) s = raiseFault .invalidOpcode s ∧
      exec (f md 5#3 reg) s = raiseFault .invalidOpcode s) ∧
    (s.cfg.stepping = .late → exec (f md 4#3 reg) s = exec (f md 6#3 reg) s ∧
      exec (f md 5#3 reg) s = exec (f md 7#3 reg) s)

/-! ## Exceptions and interrupts -/

/-- A fault, with the entry on and nothing in its way, leads to the handler: FLAGS, CS and the `ip` of the first byte
of the instruction are pushed, I and T cleared, CS:IP loaded from the vector's entry (R220, R223). That the inhibition
after a load of SS stays as it was (log 9) and how the reserved bits of the pushed FLAGS read (log 13) are the model's
inferences. -/
def Obligations.FaultEntersHandler : Prop :=
  ∀ (s : State) (e : Exc), s.mem.wf = true → CanEnter (vectorOf e) s →
    ∃ t, raiseFault e s = .next t ∧ Entered (vectorOf e) s.ip s t

/-- LTR in real mode and the reserved encodings of C6h, C7h, 8Ch and 8Eh take InvalidOpcode, vector 6, whatever their
operand: every register, flag and byte is as before but for the entry, and `ip` of the first byte is saved (R113 (a) to
(c), R151, R212). That the inhibition after a load of SS stays as it was (log 9) and how the reserved bits of the pushed
FLAGS read (log 13) are the model's inferences. -/
def Obligations.InvalidOpcodeEncodingsEnterHandler : Prop :=
  ∀ (s : State) (md : BitVec 2) (reg rm : BitVec 3), s.mem.wf = true → CanEnter 6#8 s →
    (∀ i, i = .ltr md rm ∨ i = .reservedC6 md reg rm ∨ i = .reservedC7 md reg rm →
      ∃ t, exec i s = .next t ∧ Entered 6#8 s.ip s t) ∧
    (∀ i, (∃ sz, i = .movRm16Sreg sz (.invalid md reg rm)) ∨ i = .movSregRm16 (.invalid md reg rm) ∨
        (∃ op, i = .movSregRm16 (.valid .cs op)) → s.cfg.sregForms = true →
      ∃ t, exec i s = .next t ∧ Entered 6#8 s.ip s t)

/-- The breakpoint instruction takes vector 3 as a trap: the instruction has completed, and the `ip` of the next one is
saved (R200, R215, R220). That it ends the inhibition after a load of SS, since it completes (R226), is the model's
inference (log 9), and so is how the reserved bits of the pushed FLAGS read (log 13). -/
def Obligations.BreakpointEntersHandler : Prop :=
  ∀ s : State, s.mem.wf = true → CanEnter 3#8 s →
    ∃ t, exec .breakpoint s = .next t ∧
      Entered 3#8 (s.ip + BitVec.ofNat 32 (s.pfx.count + 1)) { s with inhibit := false } t

/-- An exception while entering a handler is refused, when the vector lies beyond the limit of IDTR or one of the three
pushes reaches beyond the limit of SS: for a fault, for the breakpoint trap, for an NMI or maskable interrupt, pending
or presented, that would be accepted at a boundary, and for the single-step trap (R223, R224). That the single-step trap
is taken at all is the model's (log 6), and so is the order of the events at a boundary where the spec gives none
(log 8). -/
def Obligations.NestedExceptionRefused : Prop :=
  ∀ s : State, s.cfg.modelTrapEntry = true →
    (∀ e, EntryRaises (vectorOf e) s → raiseFault e s = .refused .nestedException) ∧
    (EntryRaises 3#8 s → exec .breakpoint s = .refused .nestedException) ∧
    (s.pfx = Prefixes.none →
      (s.inhibit = false → (arrive s).nmiPending = true → EntryRaises 2#8 s →
        afterInstruction false (.next s) = .refused .nestedException) ∧
      (∀ v, s.inhibit = false → (arrive s).nmiPending = false → (arrive s).intrPending = some v →
        flagI s.flags = true → EntryRaises v s → afterInstruction false (.next s) = .refused .nestedException) ∧
      (flagT s.flags = true → EntryRaises 1#8 s → afterInstruction true (.next s) = .refused .nestedException))

/-- With the entry off a raise ends the run: every fault with its vector and the `ip` of the first byte, the breakpoint
instruction with vector 3 and the `ip` of the next one; and an instruction ends so only with the entry off, the
breakpoint instruction with vector 3, any other with vector 6, 12 or 13 (R211 to R215, R220). -/
def Obligations.TerminalFaults : Prop :=
  ∀ s : State,
    (s.cfg.modelTrapEntry = false →
      (∀ e, raiseFault e s = .fault (.exception e s.ip)) ∧
      exec .breakpoint s = .fault (.exception .breakpoint (s.ip + BitVec.ofNat 32 (s.pfx.count + 1)))) ∧
    (∀ (i : Instr) (e : Exc) (ip : Word), exec i s = .fault (.exception e ip) →
      s.cfg.modelTrapEntry = false ∧
      ((i = .breakpoint ∧ e = .breakpoint ∧ ip = s.ip + BitVec.ofNat 32 (s.pfx.count + 1)) ∨
        (i ≠ .breakpoint ∧ (e = .invalidOpcode ∨ e = .stackFault ∨ e = .generalProtection) ∧ ip = s.ip)))

/-- No interrupt is accepted after a load of SS: the load completes with `inhibit` set, and a pending or presented
interrupt, maskable or NMI, is not accepted at its boundary, with flag T clear (R226, R48). That what is presented
becomes pending there and what is pending stays so is the model's choice (log 8): `arrive t`, which ArrivalsBecomePending
gives in full, is `t` but for the requests, so that no handler was entered. -/
def Obligations.NoInterruptAfterLoadOfSs : Prop :=
  ∀ (s : State) (rm : Rm), s.cfg.sregForms = true → OperandReadable .w rm s → flagT s.flags = false →
    ∃ t, exec (.movSregRm16 (.valid .ss rm)) s = .next t ∧ t.inhibit = true ∧
      afterInstruction (flagT s.flags) (exec (.movSregRm16 (.valid .ss rm)) s) = .next (arrive t)

/-- At a boundary where nothing inhibits interrupts and no single-step trap is due, once what is presented there is
pending: a pending maskable interrupt enters its handler if I = 1 and is not accepted if I = 0; a pending NMI enters
vector 2 whatever I is, alone or before a pending maskable interrupt; with none pending none is entered. The `ip` of the
next instruction is saved (R226, R227). That a request that is not accepted stays pending, also one beside an NMI, is the
model's choice (log 8), and how the reserved bits of the pushed FLAGS read is its inference (log 13), as is that an
entry does not touch the inhibition (log 9). -/
def Obligations.InterruptAcceptance : Prop :=
  ∀ t : State, t.pfx = Prefixes.none → t.inhibit = false → t.mem.wf = true →
    (∀ v, (arrive t).nmiPending = false → (arrive t).intrPending = some v → flagI t.flags = true → CanEnter v t →
      ∃ u, afterInstruction false (.next t) = .next u ∧ Entered v t.ip { arrive t with intrPending := none } u) ∧
    (∀ v, (arrive t).nmiPending = false → (arrive t).intrPending = some v → flagI t.flags = false →
      afterInstruction false (.next t) = .next (arrive t)) ∧
    ((arrive t).nmiPending = true → CanEnter 2#8 t →
      ∃ u, afterInstruction false (.next t) = .next u ∧ Entered 2#8 t.ip { arrive t with nmiPending := false } u) ∧
    ((arrive t).nmiPending = false → (arrive t).intrPending = none →
      afterInstruction false (.next t) = .next (arrive t))

/-- What the oracle presents at a boundary becomes pending there: an NMI is added to a pending one, a maskable interrupt
takes the place of a pending one, and nothing else of the state changes; where the oracle has no more to present, the
state is as it was (R226; the queue of answers is the model's, log 8). -/
def Obligations.ArrivalsBecomePending : Prop :=
  ∀ s : State,
    (s.arrivals = [] → arrive s = s) ∧
    (∀ (a : Arrival) (rest : List Arrival), s.arrivals = a :: rest →
      (∀ v, a.intr = some v → arrive s =
        { s with arrivals := rest, nmiPending := s.nmiPending || a.nmi, intrPending := some v }) ∧
      (a.intr = none → arrive s = { s with arrivals := rest, nmiPending := s.nmiPending || a.nmi }))

/-- The single-step trap: after an instruction that completes with flag T set, Debug, vector 1, is taken with the `ip`
of the next instruction saved. R215 names the trap and says that the spec does not model it: that it is taken by the
entry of R223, with that `ip`, and that DR6 then holds a free value, is the model's inference (log 6); that it comes
before a pending or presented NMI or interrupt is its choice (log 8); how the reserved bits of the pushed FLAGS read
(log 13) and that the trap does not touch the inhibition (log 9) are its inferences. -/
def Obligations.SingleStepTrapAfterInstruction : Prop :=
  ∀ (s t : State) (i : Instr), exec i s = .next t → t.pfx.count = 0 → flagT t.flags = true → t.mem.wf = true →
    CanEnter 1#8 t →
    ∃ x u, afterInstruction (flagT s.flags) (exec i s) = .next u ∧
      Entered 1#8 t.ip { arrive t with dbg := { t.dbg with dr6 := x }, draws := t.draws + 1 } u
end

