-- ==== Sys2Proof/Laws/State.lean ====
section
/-! SUPPORT. One lemma per field per update of State, true by rfl. -/

namespace Sys2Proof.Machine

/-! ## setX -/

@[simp] theorem setX_gpr (sz : Size) (i : RegNum) (v : Word) (s : State) : (setX sz i v s).gpr = writeX sz i v s.gpr := rfl
@[simp] theorem setX_ip (sz : Size) (i : RegNum) (v : Word) (s : State) : (setX sz i v s).ip = s.ip := rfl
@[simp] theorem setX_flags (sz : Size) (i : RegNum) (v : Word) (s : State) : (setX sz i v s).flags = s.flags := rfl
@[simp] theorem setX_seg (sz : Size) (i : RegNum) (v : Word) (s : State) : (setX sz i v s).seg = s.seg := rfl
@[simp] theorem setX_ctl (sz : Size) (i : RegNum) (v : Word) (s : State) : (setX sz i v s).ctl = s.ctl := rfl
@[simp] theorem setX_dbg (sz : Size) (i : RegNum) (v : Word) (s : State) : (setX sz i v s).dbg = s.dbg := rfl
@[simp] theorem setX_test (sz : Size) (i : RegNum) (v : Word) (s : State) : (setX sz i v s).test = s.test := rfl
@[simp] theorem setX_sys (sz : Size) (i : RegNum) (v : Word) (s : State) : (setX sz i v s).sys = s.sys := rfl
@[simp] theorem setX_inhibit (sz : Size) (i : RegNum) (v : Word) (s : State) : (setX sz i v s).inhibit = s.inhibit := rfl
@[simp] theorem setX_nmiPending (sz : Size) (i : RegNum) (v : Word) (s : State) : (setX sz i v s).nmiPending = s.nmiPending := rfl
@[simp] theorem setX_intrPending (sz : Size) (i : RegNum) (v : Word) (s : State) : (setX sz i v s).intrPending = s.intrPending := rfl
@[simp] theorem setX_arrivals (sz : Size) (i : RegNum) (v : Word) (s : State) : (setX sz i v s).arrivals = s.arrivals := rfl
@[simp] theorem setX_mem (sz : Size) (i : RegNum) (v : Word) (s : State) : (setX sz i v s).mem = s.mem := rfl
@[simp] theorem setX_ports (sz : Size) (i : RegNum) (v : Word) (s : State) : (setX sz i v s).ports = s.ports := rfl
@[simp] theorem setX_pfx (sz : Size) (i : RegNum) (v : Word) (s : State) : (setX sz i v s).pfx = s.pfx := rfl
@[simp] theorem setX_draws (sz : Size) (i : RegNum) (v : Word) (s : State) : (setX sz i v s).draws = s.draws := rfl
@[simp] theorem setX_cfg (sz : Size) (i : RegNum) (v : Word) (s : State) : (setX sz i v s).cfg = s.cfg := rfl

/-! ## loadSeg -/

@[simp] theorem loadSeg_gpr (j : SReg) (v : BitVec 16) (s : State) : (loadSeg j v s).gpr = s.gpr := rfl
@[simp] theorem loadSeg_ip (j : SReg) (v : BitVec 16) (s : State) : (loadSeg j v s).ip = s.ip := rfl
@[simp] theorem loadSeg_flags (j : SReg) (v : BitVec 16) (s : State) : (loadSeg j v s).flags = s.flags := rfl
@[simp] theorem loadSeg_seg (j : SReg) (v : BitVec 16) (s : State) : (loadSeg j v s).seg = writeSeg s.seg j (loadSegReg (readSeg s.seg j) v) := rfl
@[simp] theorem loadSeg_ctl (j : SReg) (v : BitVec 16) (s : State) : (loadSeg j v s).ctl = s.ctl := rfl
@[simp] theorem loadSeg_dbg (j : SReg) (v : BitVec 16) (s : State) : (loadSeg j v s).dbg = s.dbg := rfl
@[simp] theorem loadSeg_test (j : SReg) (v : BitVec 16) (s : State) : (loadSeg j v s).test = s.test := rfl
@[simp] theorem loadSeg_sys (j : SReg) (v : BitVec 16) (s : State) : (loadSeg j v s).sys = s.sys := rfl
@[simp] theorem loadSeg_inhibit (j : SReg) (v : BitVec 16) (s : State) : (loadSeg j v s).inhibit = s.inhibit := rfl
@[simp] theorem loadSeg_nmiPending (j : SReg) (v : BitVec 16) (s : State) : (loadSeg j v s).nmiPending = s.nmiPending := rfl
@[simp] theorem loadSeg_intrPending (j : SReg) (v : BitVec 16) (s : State) : (loadSeg j v s).intrPending = s.intrPending := rfl
@[simp] theorem loadSeg_arrivals (j : SReg) (v : BitVec 16) (s : State) : (loadSeg j v s).arrivals = s.arrivals := rfl
@[simp] theorem loadSeg_mem (j : SReg) (v : BitVec 16) (s : State) : (loadSeg j v s).mem = s.mem := rfl
@[simp] theorem loadSeg_ports (j : SReg) (v : BitVec 16) (s : State) : (loadSeg j v s).ports = s.ports := rfl
@[simp] theorem loadSeg_pfx (j : SReg) (v : BitVec 16) (s : State) : (loadSeg j v s).pfx = s.pfx := rfl
@[simp] theorem loadSeg_draws (j : SReg) (v : BitVec 16) (s : State) : (loadSeg j v s).draws = s.draws := rfl
@[simp] theorem loadSeg_cfg (j : SReg) (v : BitVec 16) (s : State) : (loadSeg j v s).cfg = s.cfg := rfl

/-! ## endInstruction -/

@[simp] theorem endInstruction_gpr (s : State) : (endInstruction s).gpr = s.gpr := rfl
@[simp] theorem endInstruction_ip (s : State) : (endInstruction s).ip = s.ip := rfl
@[simp] theorem endInstruction_flags (s : State) : (endInstruction s).flags = s.flags := rfl
@[simp] theorem endInstruction_seg (s : State) : (endInstruction s).seg = s.seg := rfl
@[simp] theorem endInstruction_ctl (s : State) : (endInstruction s).ctl = s.ctl := rfl
@[simp] theorem endInstruction_dbg (s : State) : (endInstruction s).dbg = s.dbg := rfl
@[simp] theorem endInstruction_test (s : State) : (endInstruction s).test = s.test := rfl
@[simp] theorem endInstruction_sys (s : State) : (endInstruction s).sys = s.sys := rfl
@[simp] theorem endInstruction_inhibit (s : State) : (endInstruction s).inhibit = s.inhibit := rfl
@[simp] theorem endInstruction_nmiPending (s : State) : (endInstruction s).nmiPending = s.nmiPending := rfl
@[simp] theorem endInstruction_intrPending (s : State) : (endInstruction s).intrPending = s.intrPending := rfl
@[simp] theorem endInstruction_arrivals (s : State) : (endInstruction s).arrivals = s.arrivals := rfl
@[simp] theorem endInstruction_mem (s : State) : (endInstruction s).mem = s.mem := rfl
@[simp] theorem endInstruction_ports (s : State) : (endInstruction s).ports = s.ports := rfl
@[simp] theorem endInstruction_pfx (s : State) : (endInstruction s).pfx = Prefixes.none := rfl
@[simp] theorem endInstruction_draws (s : State) : (endInstruction s).draws = s.draws := rfl
@[simp] theorem endInstruction_cfg (s : State) : (endInstruction s).cfg = s.cfg := rfl

/-! ## completeWith -/

@[simp] theorem completeWith_gpr (b : Bool) (n : Nat) (s : State) : (completeWith b n s).gpr = s.gpr := rfl
@[simp] theorem completeWith_ip (b : Bool) (n : Nat) (s : State) : (completeWith b n s).ip = nextIp n s := rfl
@[simp] theorem completeWith_flags (b : Bool) (n : Nat) (s : State) : (completeWith b n s).flags = s.flags := rfl
@[simp] theorem completeWith_seg (b : Bool) (n : Nat) (s : State) : (completeWith b n s).seg = s.seg := rfl
@[simp] theorem completeWith_ctl (b : Bool) (n : Nat) (s : State) : (completeWith b n s).ctl = s.ctl := rfl
@[simp] theorem completeWith_dbg (b : Bool) (n : Nat) (s : State) : (completeWith b n s).dbg = s.dbg := rfl
@[simp] theorem completeWith_test (b : Bool) (n : Nat) (s : State) : (completeWith b n s).test = s.test := rfl
@[simp] theorem completeWith_sys (b : Bool) (n : Nat) (s : State) : (completeWith b n s).sys = s.sys := rfl
@[simp] theorem completeWith_inhibit (b : Bool) (n : Nat) (s : State) : (completeWith b n s).inhibit = b := rfl
@[simp] theorem completeWith_nmiPending (b : Bool) (n : Nat) (s : State) : (completeWith b n s).nmiPending = s.nmiPending := rfl
@[simp] theorem completeWith_intrPending (b : Bool) (n : Nat) (s : State) : (completeWith b n s).intrPending = s.intrPending := rfl
@[simp] theorem completeWith_arrivals (b : Bool) (n : Nat) (s : State) : (completeWith b n s).arrivals = s.arrivals := rfl
@[simp] theorem completeWith_mem (b : Bool) (n : Nat) (s : State) : (completeWith b n s).mem = s.mem := rfl
@[simp] theorem completeWith_ports (b : Bool) (n : Nat) (s : State) : (completeWith b n s).ports = s.ports := rfl
@[simp] theorem completeWith_pfx (b : Bool) (n : Nat) (s : State) : (completeWith b n s).pfx = Prefixes.none := rfl
@[simp] theorem completeWith_draws (b : Bool) (n : Nat) (s : State) : (completeWith b n s).draws = s.draws := rfl
@[simp] theorem completeWith_cfg (b : Bool) (n : Nat) (s : State) : (completeWith b n s).cfg = s.cfg := rfl

/-! ## complete -/

@[simp] theorem complete_gpr (n : Nat) (s : State) : (complete n s).gpr = s.gpr := rfl
@[simp] theorem complete_ip (n : Nat) (s : State) : (complete n s).ip = nextIp n s := rfl
@[simp] theorem complete_flags (n : Nat) (s : State) : (complete n s).flags = s.flags := rfl
@[simp] theorem complete_seg (n : Nat) (s : State) : (complete n s).seg = s.seg := rfl
@[simp] theorem complete_ctl (n : Nat) (s : State) : (complete n s).ctl = s.ctl := rfl
@[simp] theorem complete_dbg (n : Nat) (s : State) : (complete n s).dbg = s.dbg := rfl
@[simp] theorem complete_test (n : Nat) (s : State) : (complete n s).test = s.test := rfl
@[simp] theorem complete_sys (n : Nat) (s : State) : (complete n s).sys = s.sys := rfl
@[simp] theorem complete_inhibit (n : Nat) (s : State) : (complete n s).inhibit = false := rfl
@[simp] theorem complete_nmiPending (n : Nat) (s : State) : (complete n s).nmiPending = s.nmiPending := rfl
@[simp] theorem complete_intrPending (n : Nat) (s : State) : (complete n s).intrPending = s.intrPending := rfl
@[simp] theorem complete_arrivals (n : Nat) (s : State) : (complete n s).arrivals = s.arrivals := rfl
@[simp] theorem complete_mem (n : Nat) (s : State) : (complete n s).mem = s.mem := rfl
@[simp] theorem complete_ports (n : Nat) (s : State) : (complete n s).ports = s.ports := rfl
@[simp] theorem complete_pfx (n : Nat) (s : State) : (complete n s).pfx = Prefixes.none := rfl
@[simp] theorem complete_draws (n : Nat) (s : State) : (complete n s).draws = s.draws := rfl
@[simp] theorem complete_cfg (n : Nat) (s : State) : (complete n s).cfg = s.cfg := rfl

/-! ## afterDraw -/

@[simp] theorem afterDraw_gpr (s : State) : (afterDraw s).gpr = s.gpr := rfl
@[simp] theorem afterDraw_ip (s : State) : (afterDraw s).ip = s.ip := rfl
@[simp] theorem afterDraw_flags (s : State) : (afterDraw s).flags = s.flags := rfl
@[simp] theorem afterDraw_seg (s : State) : (afterDraw s).seg = s.seg := rfl
@[simp] theorem afterDraw_ctl (s : State) : (afterDraw s).ctl = s.ctl := rfl
@[simp] theorem afterDraw_dbg (s : State) : (afterDraw s).dbg = s.dbg := rfl
@[simp] theorem afterDraw_test (s : State) : (afterDraw s).test = s.test := rfl
@[simp] theorem afterDraw_sys (s : State) : (afterDraw s).sys = s.sys := rfl
@[simp] theorem afterDraw_inhibit (s : State) : (afterDraw s).inhibit = s.inhibit := rfl
@[simp] theorem afterDraw_nmiPending (s : State) : (afterDraw s).nmiPending = s.nmiPending := rfl
@[simp] theorem afterDraw_intrPending (s : State) : (afterDraw s).intrPending = s.intrPending := rfl
@[simp] theorem afterDraw_arrivals (s : State) : (afterDraw s).arrivals = s.arrivals := rfl
@[simp] theorem afterDraw_mem (s : State) : (afterDraw s).mem = s.mem := rfl
@[simp] theorem afterDraw_ports (s : State) : (afterDraw s).ports = s.ports := rfl
@[simp] theorem afterDraw_pfx (s : State) : (afterDraw s).pfx = s.pfx := rfl
@[simp] theorem afterDraw_draws (s : State) : (afterDraw s).draws = s.draws + 1 := rfl
@[simp] theorem afterDraw_cfg (s : State) : (afterDraw s).cfg = s.cfg := rfl

/-! ## drawFlags -/

@[simp] theorem drawFlags_gpr (s : State) : (drawFlags s).gpr = s.gpr := rfl
@[simp] theorem drawFlags_ip (s : State) : (drawFlags s).ip = s.ip := rfl
@[simp] theorem drawFlags_flags (s : State) : (drawFlags s).flags = setOSZAPC s.flags (drawWord s) := rfl
@[simp] theorem drawFlags_seg (s : State) : (drawFlags s).seg = s.seg := rfl
@[simp] theorem drawFlags_ctl (s : State) : (drawFlags s).ctl = s.ctl := rfl
@[simp] theorem drawFlags_dbg (s : State) : (drawFlags s).dbg = s.dbg := rfl
@[simp] theorem drawFlags_test (s : State) : (drawFlags s).test = s.test := rfl
@[simp] theorem drawFlags_sys (s : State) : (drawFlags s).sys = s.sys := rfl
@[simp] theorem drawFlags_inhibit (s : State) : (drawFlags s).inhibit = s.inhibit := rfl
@[simp] theorem drawFlags_nmiPending (s : State) : (drawFlags s).nmiPending = s.nmiPending := rfl
@[simp] theorem drawFlags_intrPending (s : State) : (drawFlags s).intrPending = s.intrPending := rfl
@[simp] theorem drawFlags_arrivals (s : State) : (drawFlags s).arrivals = s.arrivals := rfl
@[simp] theorem drawFlags_mem (s : State) : (drawFlags s).mem = s.mem := rfl
@[simp] theorem drawFlags_ports (s : State) : (drawFlags s).ports = s.ports := rfl
@[simp] theorem drawFlags_pfx (s : State) : (drawFlags s).pfx = s.pfx := rfl
@[simp] theorem drawFlags_draws (s : State) : (drawFlags s).draws = s.draws + 1 := rfl
@[simp] theorem drawFlags_cfg (s : State) : (drawFlags s).cfg = s.cfg := rfl

end Sys2Proof.Machine
end

