-- ==== Sys2Proof/Laws/Memory.lean ====
section
/-! SUPPORT. Memory by byte: read after write, and that every memory operation keeps the canonical form. -/

namespace Sys2Proof.Machine

theorem cellsWf_cons {lo k : Nat} {v : Byte} {m : Memory} :
    cellsWf lo ((k, v) :: m) = true ↔ lo ≤ k ∧ k < 4294967296 ∧ v ≠ unlistedByte ∧ cellsWf (k + 1) m = true := by
  simp [cellsWf, and_assoc]

/-- A lower bound may be lowered. -/
theorem cellsWf_mono {lo lo' : Nat} {m : Memory} (h : lo' ≤ lo) (hm : cellsWf lo m = true) : cellsWf lo' m = true := by
  cases m with
  | nil => rfl
  | cons c m =>
    obtain ⟨k, v⟩ := c
    rw [cellsWf_cons] at hm ⊢
    exact ⟨Nat.le_trans h hm.1, hm.2⟩

/-- Below the lower bound nothing is listed. -/
theorem readCell_of_lt {m : Memory} : ∀ {lo a : Nat}, cellsWf lo m = true → a < lo → readCell m a = unlistedByte := by
  induction m with
  | nil => intros; rfl
  | cons c m ih =>
    obtain ⟨k, v⟩ := c
    intro lo a hm ha
    rw [cellsWf_cons] at hm
    have hk : k ≠ a := by omega
    simp only [readCell, hk, if_false]
    exact ih hm.2.2.2 (by omega)

/-- A write keeps the canonical form. -/
theorem cellsWf_writeCell {m : Memory} (a : Nat) (b : Byte) (h32 : a < 4294967296) :
    ∀ {lo : Nat}, cellsWf lo m = true → lo ≤ a → cellsWf lo (writeCell m a b) = true := by
  induction m with
  | nil =>
    intro lo _ ha
    by_cases hb : b = unlistedByte <;> simp [writeCell, cellsWf, hb, ha, h32]
  | cons c m ih =>
    obtain ⟨k, v⟩ := c
    intro lo hm ha
    rw [cellsWf_cons] at hm
    obtain ⟨h1, h2, h3, h4⟩ := hm
    unfold writeCell
    split
    · rw [cellsWf_cons]
      exact ⟨h1, h2, h3, ih h4 (by omega)⟩
    · split
      · split
        · exact cellsWf_mono (by omega) h4
        · rw [cellsWf_cons]
          subst k
          exact ⟨ha, h32, ‹_›, h4⟩
      · split
        · rw [cellsWf_cons]; exact ⟨h1, h2, h3, h4⟩
        · rw [cellsWf_cons, cellsWf_cons]
          exact ⟨ha, h32, ‹_›, by omega, h2, h3, h4⟩

/-- A byte read after a write: the value written at its address, the old byte elsewhere. -/
theorem readCell_writeCell {m : Memory} (a x : Nat) (b : Byte) :
    ∀ {lo : Nat}, cellsWf lo m = true → readCell (writeCell m a b) x = if x = a then b else readCell m x := by
  induction m with
  | nil =>
    intro lo _
    by_cases hb : b = unlistedByte
    · simp [writeCell, readCell, hb]
    · by_cases hx : a = x
      · simp [writeCell, readCell, hb, hx]
      · simp [writeCell, readCell, hb, hx, Ne.symm hx]
  | cons c m ih =>
    obtain ⟨k, v⟩ := c
    intro lo hm
    rw [cellsWf_cons] at hm
    obtain ⟨_, _, _, h4⟩ := hm
    unfold writeCell
    split
    · by_cases hk : k = x
      · have hx : x ≠ a := by omega
        simp [readCell, hk, hx]
      · simp only [readCell, hk, if_false, ih h4]
    · split
      · subst k
        split
        · by_cases hx : x = a
          · subst hx
            simp [*, readCell_of_lt h4 (Nat.lt_succ_self _)]
          · simp [readCell, hx, Ne.symm hx]
        · by_cases hx : x = a
          · simp [readCell, hx]
          · simp [readCell, hx, Ne.symm hx]
      · split
        · by_cases hx : x = a
          · subst hx
            have hk : k ≠ x := by omega
            simp [readCell, *, readCell_of_lt h4 (show x < k + 1 by omega)]
          · simp [readCell, hx]
        · by_cases hx : x = a
          · simp [readCell, hx]
          · simp [readCell, hx, Ne.symm hx]

/-- Memory.wf is cellsWf from address 0. -/
theorem wf_iff {m : Memory} : m.wf = true ↔ cellsWf 0 m = true := Iff.rfl

/-- A write of one byte keeps the canonical form. -/
theorem wf_writeCell {m : Memory} {a : Nat} (b : Byte) (h : a < 4294967296) (hm : m.wf = true) :
    (writeCell m a b).wf = true :=
  cellsWf_writeCell a b h hm (Nat.zero_le _)

/-- A physical address lies in the 2^32 bytes of the address space. -/
theorem physAddr_lt (c : Config) (a : Word) : physAddr c a < 4294967296 := by
  unfold physAddr
  split
  · exact BitVec.isLt _
  · exact a.isLt

/-- The low 20 bits of a physical address are those of the linear address, whatever `a20_mask`. -/
theorem physAddr_mod (c : Config) (a : Word) : physAddr c a % 2 ^ 20 = a.toNat % 2 ^ 20 := by
  unfold physAddr
  split
  · have h : (0xFFEFFFFF#32 : Word).toNat % 2 ^ 20 = 2 ^ 20 - 1 := rfl
    rw [BitVec.toNat_and, Nat.and_mod_two_pow, h, Nat.and_two_pow_sub_one_eq_mod, Nat.mod_mod]
  · rfl

/-- Bytes less than 2^20 apart have different physical addresses. -/
theorem physAddr_add_ne (c : Config) (a : Word) {i j : Nat} (hi : i < j) (hj : j < 2 ^ 20) :
    physAddr c (a + BitVec.ofNat 32 i) ≠ physAddr c (a + BitVec.ofNat 32 j) := by
  intro h
  have h' := congrArg (· % 2 ^ 20) h
  simp only [physAddr_mod, BitVec.toNat_add, BitVec.toNat_ofNat] at h'
  omega

/-- Storing bytes keeps the canonical form. -/
theorem wf_storeBytes (c : Config) :
    ∀ (n : Nat) (m : Memory) (a v : Word), m.wf = true → (storeBytes c m a n v).wf = true
  | 0, _, _, _, h => h
  | n + 1, _, a, _, h => wf_storeBytes c n _ _ _ (wf_writeCell _ (physAddr_lt c a) h)

/-- The address one further on. -/
theorem add_one_add (a : Word) (k : Nat) : a + 1#32 + BitVec.ofNat 32 k = a + BitVec.ofNat 32 (k + 1) := by
  rw [BitVec.add_assoc, BitVec.add_right_inj, Nat.add_comm k 1, BitVec.ofNat_add]

/-- A byte outside the bytes stored keeps its value. -/
theorem readCell_storeBytes_other (c : Config) (x : Nat) :
    ∀ (n : Nat) (m : Memory) (a v : Word), m.wf = true → (∀ k < n, x ≠ physAddr c (a + BitVec.ofNat 32 k)) →
      readCell (storeBytes c m a n v) x = readCell m x
  | 0, _, _, _, _, _ => rfl
  | n + 1, m, a, v, hm, hx => by
    have h0 : x ≠ physAddr c a := by simpa using hx 0 (by omega)
    rw [storeBytes, readCell_storeBytes_other c x n _ _ _ (wf_writeCell _ (physAddr_lt c a) hm),
      readCell_writeCell _ _ _ hm, if_neg h0]
    intro k hk
    rw [add_one_add]
    exact hx (k + 1) (by omega)

/-- A byte stored reads as its part of the value, the lowest address least significant (R60). -/
theorem readCell_storeBytes_at (c : Config) :
    ∀ (n : Nat) (m : Memory) (a v : Word), m.wf = true → n ≤ 4 → ∀ k < n,
      readCell (storeBytes c m a n v) (physAddr c (a + BitVec.ofNat 32 k)) = v.extractLsb' (8 * k) 8
  | 0, _, _, _, _, _, _, hk => absurd hk (Nat.not_lt_zero _)
  | n + 1, m, a, v, hm, hn, k, hk => by
    have hw := wf_writeCell (v.extractLsb' 0 8) (physAddr_lt c a) hm
    cases k with
    | zero =>
      rw [storeBytes, readCell_storeBytes_other c _ n _ _ _ hw, readCell_writeCell _ _ _ hm]
      · simp
      · intro k hk
        rw [add_one_add]
        exact physAddr_add_ne c a (by omega) (by omega)
    | succ k =>
      rw [storeBytes, ← add_one_add a k, readCell_storeBytes_at c n _ _ _ hw (by omega) k (by omega)]
      ext i hi
      simp only [BitVec.getElem_extractLsb', BitVec.getLsbD_ushiftRight]
      congr 1
      omega

/-- Byte `j` of what a read of `n` bytes assembles is the byte at that address (R60, R61). -/
theorem extractLsb_loadBytes (s : State) :
    ∀ (n : Nat) (a : Word), n ≤ 4 → ∀ j < n,
      (loadBytes s a n).extractLsb' (8 * j) 8 = readLinear s (a + BitVec.ofNat 32 j)
  | 0, _, _, _, hj => absurd hj (Nat.not_lt_zero _)
  | n + 1, a, hn, j, hj => by
    cases j with
    | zero =>
      ext i hi
      simp only [loadBytes, BitVec.getElem_extractLsb', BitVec.getLsbD_or, BitVec.getLsbD_shiftLeft,
        BitVec.getLsbD_setWidth, BitVec.add_zero]
      rw [BitVec.getLsbD_eq_getElem (by omega)]
      simp [hi, show i < 32 by omega]
    | succ j =>
      rw [← add_one_add, ← extractLsb_loadBytes s n (a + 1#32) (by omega) j (by omega)]
      ext i hi
      simp only [loadBytes, BitVec.getElem_extractLsb', BitVec.getLsbD_or, BitVec.getLsbD_shiftLeft,
        BitVec.getLsbD_setWidth]
      rw [BitVec.getLsbD_of_ge (readLinear s a) _ (by omega)]
      simp [show 8 * (j + 1) + i < 32 by omega, show ¬8 * (j + 1) + i < 8 by omega,
        show 8 * (j + 1) + i - 8 = 8 * j + i by omega]

end Sys2Proof.Machine
end

