-- ==== Sys2Proof/Laws/Registers.lean ====
section
/-! SUPPORT. Reading and writing general registers and segment registers. -/

namespace Sys2Proof.Machine

/-- A register number is one of the eight of R21. -/
theorem regNum_cases (i : RegNum) :
    i = 0#3 ∨ i = 1#3 ∨ i = 2#3 ∨ i = 3#3 ∨ i = 4#3 ∨ i = 5#3 ∨ i = 6#3 ∨ i = 7#3 := by
  revert i; decide

/-- The register written reads as the value. -/
@[simp] theorem readGpr_writeGpr_same (g : Gprs) (i : RegNum) (v : Word) : readGpr (writeGpr g i v) i = v := by
  rcases regNum_cases i with h | h | h | h | h | h | h | h <;> subst h <;> rfl

/-- Every other register keeps its value. -/
theorem readGpr_writeGpr_of_ne (g : Gprs) {i j : RegNum} (v : Word) (h : j ≠ i) :
    readGpr (writeGpr g i v) j = readGpr g j := by
  rcases regNum_cases i with hi | hi | hi | hi | hi | hi | hi | hi <;> subst hi <;>
    rcases regNum_cases j with hj | hj | hj | hj | hj | hj | hj | hj <;> subst hj <;>
    first | exact absurd rfl h | rfl

/-- The segment register written reads as the value. -/
@[simp] theorem readSeg_writeSeg_same (g : SegRegs) (j : SReg) (r : SegReg) : readSeg (writeSeg g j r) j = r := by
  cases j <;> rfl

/-- Every other segment register keeps its value. -/
theorem readSeg_writeSeg_of_ne (g : SegRegs) {i j : SReg} (r : SegReg) (h : j ≠ i) :
    readSeg (writeSeg g i r) j = readSeg g j := by
  cases i <;> cases j <;> first | rfl | exact absurd rfl h

/-- A load of a segment register keeps every limit. -/
@[simp] theorem limit_loadSeg (j k : SReg) (v : BitVec 16) (s : State) :
    (readSeg (loadSeg j v s).seg k).limit = (readSeg s.seg k).limit := by
  by_cases h : k = j
  · subst h; simp [loadSegReg]
  · simp [readSeg_writeSeg_of_ne _ _ h]

end Sys2Proof.Machine
end

