-- ==== Sys2Proof/Laws/Access.lean ====
section
/-! SUPPORT. What each shared operation over memory and operands can do, said once: when it answers, and with what. -/

namespace Sys2Proof.Machine

/-- Each of the `n` bytes holds memory. -/
theorem allMapped_eq_true (c : Config) :
    ∀ (n : Nat) (a : Word),
      allMapped c a n = true ↔ ∀ k < n, isMapped c (physAddr c (a + BitVec.ofNat 32 k)) = true
  | 0, a => by simp [allMapped]
  | n + 1, a => by
    rw [allMapped, Bool.and_eq_true, allMapped_eq_true c n]
    constructor
    · rintro ⟨h0, h⟩ k hk
      cases k with
      | zero => simpa using h0
      | succ k => rw [← add_one_add]; exact h k (by omega)
    · intro h
      refine ⟨by simpa using h 0 (by omega), fun k hk => ?_⟩
      rw [add_one_add]; exact h (k + 1) (by omega)

/-- One of the `n` bytes belongs to the program text. -/
theorem anyProgramText_eq_true (c : Config) :
    ∀ (n : Nat) (a : Word),
      anyProgramText c a n = true ↔ ∃ k, k < n ∧ isProgramText c (physAddr c (a + BitVec.ofNat 32 k)) = true
  | 0, a => by simp [anyProgramText]
  | n + 1, a => by
    rw [anyProgramText, Bool.or_eq_true, anyProgramText_eq_true c n]
    constructor
    · rintro (h | ⟨k, hk, h⟩)
      · exact ⟨0, by omega, by simpa using h⟩
      · rw [add_one_add] at h; exact ⟨k + 1, by omega, h⟩
    · rintro ⟨k, hk, h⟩
      cases k with
      | zero => exact .inl (by simpa using h)
      | succ k => rw [← add_one_add] at h; exact .inr ⟨k, by omega, h⟩

/-- A memory read answers exactly where there is memory. -/
theorem memRead_eq_ok {s : State} {a : Word} {n : Nat} {v : Word} :
    memRead s a n = .ok v ↔ allMapped s.cfg a n = true ∧ v = loadBytes s a n := by
  unfold memRead
  split
  · simp only [Except.ok.injEq, *, true_and]
    exact eq_comm
  · simp_all

/-- A memory write answers exactly where there is memory, and changes memory alone. -/
theorem memWrite_eq_ok {s t : State} {a : Word} {n : Nat} {v : Word} :
    memWrite s a n v = .ok t ↔ allMapped s.cfg a n = true ∧ t = { s with mem := storeBytes s.cfg s.mem a n v } := by
  unfold memWrite
  split
  · simp only [Except.ok.injEq, *, true_and]
    exact eq_comm
  · simp_all

/-- A segmented read answers exactly within the limit and where there is memory (R64). -/
theorem segRead_eq_ok {s : State} {j : SReg} {off : Word} {n : Nat} {v : Word} :
    segRead s j off n = .ok v ↔
      withinLimit s j off n = true ∧ allMapped s.cfg (linear s j off) n = true ∧ v = loadBytes s (linear s j off) n := by
  unfold segRead
  split <;> simp_all [memRead_eq_ok]

/-- A segmented write answers exactly within the limit and where there is memory (R64). -/
theorem segWrite_eq_ok {s t : State} {j : SReg} {off : Word} {n : Nat} {v : Word} :
    segWrite s j off n v = .ok t ↔
      withinLimit s j off n = true ∧ allMapped s.cfg (linear s j off) n = true ∧
        t = { s with mem := storeBytes s.cfg s.mem (linear s j off) n v } := by
  unfold segWrite
  split <;> simp_all [memWrite_eq_ok]

/-- The store of a MOV answers where a segmented write does, outside the program text (R81). -/
theorem dataWrite_eq_ok {s t : State} {j : SReg} {off : Word} {n : Nat} {v : Word} :
    dataWrite s j off n v = .ok t ↔
      withinLimit s j off n = true ∧ anyProgramText s.cfg (linear s j off) n = false ∧
        allMapped s.cfg (linear s j off) n = true ∧
        t = { s with mem := storeBytes s.cfg s.mem (linear s j off) n v } := by
  unfold dataWrite
  split <;> simp_all [segWrite_eq_ok]

/-- What writing an operand can do: a register changes, or memory does. -/
theorem writeRm_ok {sz : Size} {rm : Rm} {v : Word} {s t : State} (h : writeRm sz rm v s = .ok t) :
    (∃ i, rm = .reg i ∧ t = setX sz i v s) ∨
      (∃ m, rm = .mem m ∧ t = { s with mem := storeBytes s.cfg s.mem (memAddr s m) (sizeBytes sz) v }) := by
  cases rm with
  | reg i =>
    simp only [writeRm, Except.ok.injEq] at h
    exact .inl ⟨i, rfl, h.symm⟩
  | mem m =>
    rw [writeRm, dataWrite_eq_ok] at h
    exact .inr ⟨m, rfl, h.2.2.2⟩

/-- What a load into a register can do. -/
theorem loadReg_ok {sz : Size} {i : RegNum} {s t : State} {r : Result Word} (h : loadReg sz i s r = .ok t) :
    ∃ v, r = .ok v ∧ t = setX sz i v s := by
  unfold loadReg at h
  split at h
  · exact ⟨_, rfl, by simpa [eq_comm] using h⟩
  · simp at h

/-- A push answers exactly where its word lies within the limit of SS and in memory: SP moves down by two, modulo 2^16,
and the word is stored there (R223). -/
theorem push16_eq_ok {v : BitVec 16} {s t : State} :
    push16 v s = .ok t ↔
      withinLimit s .ss (((readGpr s.gpr 4#3).extractLsb' 0 16 - 2#16).setWidth 32) 2 = true ∧
        allMapped s.cfg (linear s .ss (((readGpr s.gpr 4#3).extractLsb' 0 16 - 2#16).setWidth 32)) 2 = true ∧
        t = { s with
          gpr := writeX .w 4#3 (((readGpr s.gpr 4#3).extractLsb' 0 16 - 2#16).setWidth 32) s.gpr
          mem := storeBytes s.cfg s.mem
            (linear s .ss (((readGpr s.gpr 4#3).extractLsb' 0 16 - 2#16).setWidth 32)) 2 (v.setWidth 32) } := by
  simp only [push16]
  exact segWrite_eq_ok

/-- What a push can do: SP moves down by two, and two bytes of memory are stored through SS. -/
theorem push16_ok {v : BitVec 16} {s t : State} (h : push16 v s = .ok t) :
    ∃ g m, t = { s with gpr := g, mem := m } ∧ (s.mem.wf = true → m.wf = true) := by
  simp only [push16] at h
  rw [segWrite_eq_ok] at h
  exact ⟨_, _, h.2.2, wf_storeBytes _ _ _ _ _⟩

/-- The last part of an entry answers exactly where the table's entry holds memory, and loads IP from its first word and
CS from its second (R223). -/
theorem jumpThroughTable_eq_ok {v : Byte} {s t : State} :
    jumpThroughTable v s = .ok t ↔
      allMapped s.cfg (s.sys.idtr.base + v.setWidth 32 * 4#32) 2 = true ∧
        allMapped s.cfg (s.sys.idtr.base + v.setWidth 32 * 4#32 + 2#32) 2 = true ∧
        t = { loadSeg .cs ((loadBytes s (s.sys.idtr.base + v.setWidth 32 * 4#32 + 2#32) 2).setWidth 16) s with
          ip := loadBytes s (s.sys.idtr.base + v.setWidth 32 * 4#32) 2 } := by
  unfold jumpThroughTable memRead
  by_cases h1 : allMapped s.cfg (s.sys.idtr.base + v.setWidth 32 * 4#32) 2 = true
  · by_cases h2 : allMapped s.cfg (s.sys.idtr.base + v.setWidth 32 * 4#32 + 2#32) 2 = true
    · simp only [h1, h2, if_true, Except.ok.injEq, true_and]
      exact eq_comm
    · simp [h1, h2]
  · simp [h1]

/-- What the last part of an entry can do: CS is loaded and `ip` set. -/
theorem jumpThroughTable_ok {v : Byte} {s t : State} (h : jumpThroughTable v s = .ok t) :
    ∃ cs ip, t = { loadSeg .cs cs s with ip := ip } := by
  unfold jumpThroughTable at h
  split at h
  · simp at h
  · split at h
    · simp at h
    · simp only [Except.ok.injEq] at h
      exact ⟨_, _, h.symm⟩

/-- What an entry can do (R223): the general registers (SP), memory, CS, `ip`, and I and T of the flags change, and
nothing else. -/
theorem enterHandler_ok {v : Byte} {ip : Word} {s t : State} (h : enterHandler v ip s = .ok t) :
    ∃ g m cs ip', t = { s with
      gpr := g, mem := m, flags := clearIT s.flags, ip := ip'
      seg := writeSeg s.seg .cs (loadSegReg (readSeg s.seg .cs) cs) } ∧ (s.mem.wf = true → m.wf = true) := by
  unfold enterHandler at h
  split at h
  · simp at h
  · split at h
    · simp at h
    · rename_i s1 h1
      split at h
      · simp at h
      · rename_i s2 h2
        split at h
        · simp at h
        · rename_i s3 h3
          obtain ⟨g1, m1, rfl, w1⟩ := push16_ok h1
          obtain ⟨g2, m2, rfl, w2⟩ := push16_ok h2
          obtain ⟨g3, m3, rfl, w3⟩ := push16_ok h3
          obtain ⟨cs, ip', rfl⟩ := jumpThroughTable_ok h
          exact ⟨g3, m3, cs, ip', rfl, fun hw => w3 (w2 (w1 hw))⟩

/-- An entry as an outcome answers a next state exactly when the entry succeeds. -/
theorem enterOutcome_eq_next {v : Byte} {ip : Word} {s t : State} :
    enterOutcome v ip s = .next t ↔ enterHandler v ip s = .ok t := by
  unfold enterOutcome
  split <;> simp_all

/-- An exception answers a next state exactly when the entry is on and succeeds. -/
theorem takeException_eq_next {e : Exc} {ip : Word} {s t : State} :
    takeException e ip s = .next t ↔ s.cfg.modelTrapEntry = true ∧ enterHandler (vectorOf e) ip s = .ok t := by
  unfold takeException
  split <;> simp_all [enterOutcome_eq_next]

/-- What finishing an instruction can do: complete it, or enter a handler. -/
theorem finish_next {len : Nat} {s t : State} {r : Result State} (h : finish len s r = .next t) :
    (∃ s', r = .ok s' ∧ t = complete len s') ∨ (∃ e, r = .error (.raise e) ∧ raiseFault e s = .next t) := by
  unfold finish at h
  split at h
  · exact .inl ⟨_, rfl, by simpa [eq_comm] using h⟩
  · exact .inr ⟨_, rfl, h⟩
  · simp at h

end Sys2Proof.Machine
end

