-- ==== Sys2Proof/Laws/Decode.lean ====
section
/-! SUPPORT. The decoder's and the encoder's small lemmas: fields, lengths, and reading back one part. -/

namespace Sys2Proof

@[simp] theorem field76_packFields (a : BitVec 2) (b c : BitVec 3) : field76 (packFields a b c) = a := by
  revert a b c; decide

@[simp] theorem field53_packFields (a : BitVec 2) (b c : BitVec 3) : field53 (packFields a b c) = b := by
  revert a b c; decide

@[simp] theorem field20_packFields (a : BitVec 2) (b c : BitVec 3) : field20 (packFields a b c) = c := by
  revert a b c; decide

/-- The three fields make up the byte. -/
theorem packFields_fields (b : Byte) : packFields (field76 b) (field53 b) (field20 b) = b := by
  revert b; decide

@[simp] theorem sreg_ofCode_code (r : SReg) : SReg.ofCode r.code = some r := by cases r <;> rfl

@[simp] theorem form16_ofCode_code (f : Form16) : Form16.ofCode f.code = f := by cases f <;> rfl

/-- Two bytes written low first read back. -/
@[simp] theorem take16_bytes16 (v : BitVec 16) (rest : List Byte) : take16 (bytes16 v ++ rest) = .ok v rest := by
  simp only [bytes16, take16, List.cons_append, List.nil_append, Parsed.ok.injEq, and_true]
  ext i hi
  simp only [BitVec.getElem_append, BitVec.getElem_extractLsb']
  split
  · rw [BitVec.getLsbD_eq_getElem (by omega)]; simp
  · rw [BitVec.getLsbD_eq_getElem (by omega)]
    congr 1
    omega

/-- Four bytes written low first read back. -/
@[simp] theorem take32_bytes32 (v : Word) (rest : List Byte) : take32 (bytes32 v ++ rest) = .ok v rest := by
  simp only [bytes32, take32, List.cons_append, List.nil_append, Parsed.ok.injEq, and_true]
  ext i hi
  simp only [BitVec.getElem_append, BitVec.getElem_extractLsb']
  split
  · rw [BitVec.getLsbD_eq_getElem (by omega)]; simp
  · split
    · rw [BitVec.getLsbD_eq_getElem (by omega)]
      congr 1
      omega
    · split
      · rw [BitVec.getLsbD_eq_getElem (by omega)]
        congr 1
        omega
      · rw [BitVec.getLsbD_eq_getElem (by omega)]
        congr 1
        omega

@[simp] theorem length_bytes16 (v : BitVec 16) : (bytes16 v).length = 2 := rfl
@[simp] theorem length_bytes32 (v : Word) : (bytes32 v).length = 4 := rfl

@[simp] theorem length_disp16 (d : Disp16) : d.encode.length = d.len := by cases d <;> rfl
@[simp] theorem length_disp32 (d : Disp32) : d.encode.length = d.len := by cases d <;> rfl

/-- The encoder writes as many bytes as the operand's length says. -/
@[simp] theorem length_memOp (reg : BitVec 3) (m : MemOp) : (m.encode reg).length = m.len := by
  cases m <;> simp [MemOp.encode, MemOp.len] <;> omega

@[simp] theorem length_rm (reg : BitVec 3) (rm : Rm) : (rm.encode reg).length = rm.len := by
  cases rm <;> simp [Rm.encode, Rm.len]

@[simp] theorem length_sregOps (ops : SregOps) : ops.encode.length = ops.len := by
  cases ops <;> simp [SregOps.encode, SregOps.len]

@[simp] theorem length_moffs (a : Moffs) : a.encode.length = a.len := by cases a <;> rfl
@[simp] theorem length_immW (v : ImmW) : v.encode.length = v.len := by cases v <;> rfl

/-- A memory operand takes one to six bytes. -/
theorem memOp_len_bounds (m : MemOp) : 1 ≤ m.len ∧ m.len ≤ 6 := by
  cases m with
  | form16 f d => cases d <;> simp [MemOp.len, Disp16.len]
  | direct16 d => simp [MemOp.len]
  | base32 b d => cases d <;> simp [MemOp.len, Disp32.len]
  | direct32 d => simp [MemOp.len]
  | sib scale index base d => cases d <;> simp [MemOp.len, Disp32.len]
  | sibNoBase scale index d => simp [MemOp.len]

/-- A `mod`+`r/m` operand takes one to six bytes. -/
theorem rm_len_bounds (rm : Rm) : 1 ≤ rm.len ∧ rm.len ≤ 6 := by
  cases rm with
  | reg i => simp [Rm.len]
  | mem m => exact memOp_len_bounds m

end Sys2Proof
end

