-- ==== Sys2Proof/Laws/Exec.lean ====
section
/-! SUPPORT. What an instruction can do when it answers a next state, said once for all instructions; invariants are
derived from it instead of unfolding the meanings again. -/

namespace Sys2Proof.Machine

/-- Memory after an instruction that enters no handler: canonical, and the program text is as it was (20_memory.md
R81). -/
structure KeepsText (s : State) (m : Memory) : Prop where
  wf : m.wf = true
  text : ∀ p, isProgramText s.cfg p = true → readCell m p = readCell s.mem p

/-- Memory that was not written keeps the program text. -/
theorem keepsText_self (s : State) (h : s.mem.wf = true) : KeepsText s s.mem := ⟨h, fun _ _ => rfl⟩

/-- A store outside the program text keeps it. -/
theorem keepsText_storeBytes {s : State} {a v : Word} {n : Nat} (hp : anyProgramText s.cfg a n = false)
    (h : s.mem.wf = true) : KeepsText s (storeBytes s.cfg s.mem a n v) := by
  refine ⟨wf_storeBytes _ _ _ _ _ h, fun p ht => readCell_storeBytes_other _ _ _ _ _ _ h ?_⟩
  rintro k hk rfl
  have := (anyProgramText_eq_true s.cfg n a).2 ⟨k, hk, ht⟩
  simp [this] at hp

/-- The five shapes of an instruction's effect; `sp` says whether it is a special-register move. -/
inductive Effect (sp : Bool) (s : State) : State → Prop where
  /-- A prefix byte is recorded. -/
  | recorded (p : Prefixes) (h : p.count = s.pfx.count + 1) : Effect sp s { s with pfx := p }
  /-- A general register or memory is written, and the instruction completes. -/
  | moved (len : Nat) (g : Gprs) (m : Memory) (d : Nat) (hm : s.mem.wf = true → KeepsText s m) :
      Effect sp s (complete len { s with gpr := g, mem := m, draws := d })
  /-- A segment register other than CS is loaded; a load of SS inhibits interrupts. -/
  | segLoaded (len : Nat) (sr : SReg) (v : BitVec 16) (h : sr ≠ .cs) :
      Effect sp s (completeWith (sr == .ss) len (loadSeg sr v s))
  /-- A special-register move: neither PE nor PG is set, and no breakpoint is enabled. -/
  | special (g : Gprs) (c : ControlRegs) (d : DebugRegs) (n : Nat)
      (hsp : sp = true) (hc : c.cr0 = s.ctl.cr0 ∨ setsPeOrPg c.cr0 = false)
      (hd : d.dr7 = s.dbg.dr7 ∨ enablesBreakpoint d.dr7 = false) :
      Effect sp s (complete 3 (drawFlags { s with gpr := g, ctl := c, dbg := d, draws := n }))
  /-- A handler is entered, which the parameter `model_trap_entry` must allow. -/
  | entered (v : Byte) (ip : Word) (s0 t : State) (on : s.cfg.modelTrapEntry = true)
      (h0 : s0 = endInstruction s ∨ s0 = complete 1 s) (h : enterHandler v ip s0 = .ok t) : Effect sp s t

/-- A fault that answers a next state enters a handler. -/
theorem effect_of_raiseFault {e : Exc} {s t : State} (h : raiseFault e s = .next t) : Effect sp s t :=
  .entered _ _ _ _ (takeException_eq_next.1 h).1 (.inl rfl) (takeException_eq_next.1 h).2

/-- A recorded prefix. -/
theorem effect_of_recordPrefix {p : Prefixes} {s t : State} (h : recordPrefix p s = .next t)
    (hp : p.count = s.pfx.count) : Effect sp s t := by
  simp only [recordPrefix, Host.Outcome.next.injEq] at h
  subst h
  exact .recorded _ (by simp [hp])

/-- A recorded segment override. -/
theorem effect_of_recordSegment {j : SReg} {s t : State} (h : recordSegment j s = .next t) : Effect sp s t := by
  unfold recordSegment at h
  split at h
  · exact effect_of_recordPrefix h rfl
  · split at h
    · exact effect_of_recordPrefix h rfl
    · simp at h

/-- A finished move. -/
theorem effect_of_finish {len : Nat} {s t : State} {r : Result State} (h : finish len s r = .next t)
    (hr : ∀ s', r = .ok s' → ∃ g m d, s' = { s with gpr := g, mem := m, draws := d } ∧
      (s.mem.wf = true → KeepsText s m)) : Effect sp s t := by
  rcases finish_next h with ⟨s', h1, rfl⟩ | ⟨e, _, h2⟩
  · obtain ⟨g, m, d, rfl, hm⟩ := hr s' h1
    exact .moved len g m d hm
  · exact effect_of_raiseFault h2

/-- A store of a MOV changes memory only. -/
theorem dataWrite_moves {j : SReg} {off : Word} {n : Nat} {v : Word} {s s' : State}
    (h : dataWrite s j off n v = .ok s') :
    ∃ g m d, s' = { s with gpr := g, mem := m, draws := d } ∧ (s.mem.wf = true → KeepsText s m) := by
  rw [dataWrite_eq_ok] at h
  exact ⟨_, _, _, h.2.2.2, keepsText_storeBytes h.2.1⟩

/-- A load into a register changes general registers only. -/
theorem loadReg_moves {sz : Size} {i : RegNum} {r : Result Word} {s s' : State} (h : loadReg sz i s r = .ok s') :
    ∃ g m d, s' = { s with gpr := g, mem := m, draws := d } ∧ (s.mem.wf = true → KeepsText s m) := by
  obtain ⟨v, _, rfl⟩ := loadReg_ok h
  exact ⟨_, _, _, rfl, keepsText_self s⟩

/-- Setting a register changes general registers only. -/
theorem setX_moves {sz : Size} {i : RegNum} {v : Word} {s s' : State} (h : (.ok (setX sz i v s) : Result State) = .ok s') :
    ∃ g m d, s' = { s with gpr := g, mem := m, draws := d } ∧ (s.mem.wf = true → KeepsText s m) := by
  simp only [Except.ok.injEq] at h
  subst h
  exact ⟨_, _, _, rfl, keepsText_self s⟩

/-- Writing an operand changes general registers and memory only. -/
theorem writeRm_moves {sz : Size} {rm : Rm} {v : Word} {s s' : State} (h : writeRm sz rm v s = .ok s') :
    ∃ g m d, s' = { s with gpr := g, mem := m, draws := d } ∧ (s.mem.wf = true → KeepsText s m) := by
  cases rm with
  | reg i => exact setX_moves h
  | mem m => exact dataWrite_moves h

/-- Writing a selector changes general registers, memory and the count of draws only. -/
theorem writeSelector_moves {sz : OpSize} {rm : Rm} {v : BitVec 16} {s s' : State}
    (h : writeSelector sz rm v s = .ok s') :
    ∃ g m d, s' = { s with gpr := g, mem := m, draws := d } ∧ (s.mem.wf = true → KeepsText s m) := by
  cases rm with
  | mem m => exact dataWrite_moves h
  | reg i =>
    cases sz <;> simp only [writeSelector, Except.ok.injEq] at h <;> subst h <;> exact ⟨_, _, _, rfl, keepsText_self s⟩

/-- The flags after an instruction: only a special-register move leaves any of them free, and otherwise at most I and T
are cleared, by an entry. -/
theorem effect_flags {s t : State} (h : Effect false s t) : t.flags = s.flags ∨ t.flags = clearIT s.flags := by
  cases h with
  | recorded | moved | segLoaded => exact .inl rfl
  | special _ _ _ _ hsp => cases hsp
  | entered v ip s0 t on h0 h =>
    obtain ⟨g, m, cs, ip', rfl, -⟩ := enterHandler_ok h
    rcases h0 with rfl | rfl <;> exact .inr rfl

/-- The guard of the special-register moves adds only the InvalidOpcode of the early stepping. -/
theorem guardSpecial_next {md : BitVec 2} {s t : State} {o : Outcome} (h : guardSpecial md s o = .next t) :
    o = .next t ∨ raiseFault .invalidOpcode s = .next t := by
  unfold guardSpecial at h
  split at h
  · split at h
    · exact .inr h
    · exact .inl h
  · simp at h

/-- Of a control-register write: a CR0 without PE and PG leaves both clear. -/
theorem writeCr_cr0 {c c' : ControlRegs} {n : BitVec 3} {v : Word} (h : writeCr c n v = some c')
    (hv : ¬(n = 0#3 ∧ setsPeOrPg v = true)) : c'.cr0 = c.cr0 ∨ setsPeOrPg c'.cr0 = false := by
  unfold writeCr at h
  split at h
  · simp only [Option.some.injEq] at h
    subst h
    exact .inr (by simp_all)
  · split at h
    · simp only [Option.some.injEq] at h; subst h; exact .inl rfl
    · split at h
      · simp only [Option.some.injEq] at h; subst h; exact .inl rfl
      · simp at h

/-- DRn is never a number 4 or 5 once resolved (R195). -/
theorem drNumber_ne {st : Stepping} {n k : BitVec 3} (h : drNumber st n = some k) : k ≠ 4#3 ∧ k ≠ 5#3 := by
  unfold drNumber at h
  cases st <;> revert n k <;> decide

/-- Of a debug-register write: a DR7 without enables leaves every breakpoint off. -/
theorem writeDr_dr7 {d : DebugRegs} {k : BitVec 3} {v : Word} (hk : k ≠ 4#3 ∧ k ≠ 5#3)
    (hv : ¬(k = 7#3 ∧ enablesBreakpoint v = true)) :
    (writeDr d k v).dr7 = d.dr7 ∨ enablesBreakpoint (writeDr d k v).dr7 = false := by
  rcases regNum_cases k with h | h | h | h | h | h | h | h <;> subst h <;>
    first
    | exact .inl rfl
    | exact absurd rfl hk.1
    | exact absurd rfl hk.2
    | exact .inr (by simpa [writeDr] using hv)

/-- What any instruction can do when it answers a next state. -/
theorem exec_effect {i : Instr} {s t : State} (h : exec i s = .next t) :
    Effect i.isSpecialMove s t := by
  cases i with
  | prefixOperandSize | prefixAddressSize | prefixLock | prefixRepne | prefixRep =>
    exact effect_of_recordPrefix h rfl
  | prefixEs | prefixCs | prefixSs | prefixDs | prefixFs | prefixGs => exact effect_of_recordSegment h
  | movRm8R8 rm reg => exact effect_of_finish h fun _ => writeRm_moves
  | movRmR sz rm reg => exact effect_of_finish h fun _ => writeRm_moves
  | movR8Rm8 reg rm => exact effect_of_finish h fun _ => loadReg_moves
  | movRRm sz reg rm => exact effect_of_finish h fun _ => loadReg_moves
  | movRm16Sreg sz ops =>
    simp only [exec, execMovRm16Sreg] at h
    split at h
    · split at h
      · exact effect_of_raiseFault h
      · exact effect_of_finish h fun _ => writeSelector_moves
    · simp at h
  | movSregRm16 ops =>
    simp only [exec, execMovSregRm16] at h
    split at h
    · split at h
      · exact effect_of_raiseFault h
      · split at h
        · exact effect_of_raiseFault h
        · unfold finishSegLoad at h
          split at h
          · simp only [Host.Outcome.next.injEq] at h
            subst h
            exact .segLoaded _ _ _ ‹_›
          · exact effect_of_raiseFault h
          · simp at h
    · simp at h
  | movAlMoffs a | movAxMoffs sz a =>
    simp only [exec, execMovAlMoffs, execMovAxMoffs, loadMoffs] at h
    split at h
    · exact effect_of_finish h fun _ => loadReg_moves
    · simp at h
  | movMoffsAl a | movMoffsAx sz a =>
    simp only [exec, execMovMoffsAl, execMovMoffsAx, storeMoffs] at h
    split at h
    · exact effect_of_finish h fun _ => dataWrite_moves
    · simp at h
  | movR8Imm8 reg imm | movRImm reg imm =>
    simp only [exec, execMovR8Imm8, execMovRImm] at h
    exact effect_of_finish h fun _ => setX_moves
  | movRm8Imm8 rm imm => exact effect_of_finish h fun _ => writeRm_moves
  | movRmImm rm imm => exact effect_of_finish h fun _ => writeRm_moves
  | reservedC6 md reg rm | reservedC7 md reg rm | ltr md rm => exact effect_of_raiseFault h
  | breakpoint => exact .entered _ _ _ _ (takeException_eq_next.1 h).1 (.inr rfl) (takeException_eq_next.1 h).2
  | movRCr md n reg =>
    rcases guardSpecial_next h with h | h
    · split at h
      · exact effect_of_raiseFault h
      · simp only [completeSpecial, Host.Outcome.next.injEq] at h
        subst h
        exact .special _ _ _ _ rfl (.inl rfl) (.inl rfl)
    · exact effect_of_raiseFault h
  | movCrR md n reg =>
    rcases guardSpecial_next h with h | h
    · split at h
      · exact effect_of_raiseFault h
      · rename_i c hc
        split at h
        · simp at h
        · rename_i hv
          split at h
          · simp at h
          · simp only [completeSpecial, Host.Outcome.next.injEq] at h
            subst h
            exact .special _ _ _ _ rfl (writeCr_cr0 hc hv) (.inl rfl)
    · exact effect_of_raiseFault h
  | movRDr md n reg =>
    rcases guardSpecial_next h with h | h
    · split at h
      · exact effect_of_raiseFault h
      · simp only [completeSpecial, Host.Outcome.next.injEq] at h
        subst h
        exact .special _ _ _ _ rfl (.inl rfl) (.inl rfl)
    · exact effect_of_raiseFault h
  | movDrR md n reg =>
    rcases guardSpecial_next h with h | h
    · split at h
      · exact effect_of_raiseFault h
      · rename_i k hk
        split at h
        · simp at h
        · rename_i hv
          simp only [completeSpecial, Host.Outcome.next.injEq] at h
          subst h
          exact .special _ _ _ _ rfl (.inl rfl) (writeDr_dr7 (drNumber_ne hk) hv)
    · exact effect_of_raiseFault h
  | movRTr md n reg =>
    rcases guardSpecial_next h with h | h
    · split at h
      · simp only [completeSpecial, Host.Outcome.next.injEq] at h
        subst h
        exact .special _ _ _ _ rfl (.inl rfl) (.inl rfl)
      · exact effect_of_raiseFault h
    · exact effect_of_raiseFault h
  | movTrR md n reg =>
    rcases guardSpecial_next h with h | h
    · split at h
      · simp at h
      · exact effect_of_raiseFault h
    · exact effect_of_raiseFault h

end Sys2Proof.Machine
end

