-- ==== Sys2Proof/Laws/Flags.lean ====
section
/-! SUPPORT. The bits of the flags register after each of the two writes there are. -/

namespace Sys2Proof.Machine

/-- Clearing I and T clears bits 9 and 8 and keeps every other bit (R223). -/
theorem getLsbD_clearIT (f : Word) (b : Nat) : (clearIT f).getLsbD b = (f.getLsbD b && (b != 8 && b != 9)) := by
  by_cases hb : b < 32
  · have mask : ∀ b : Fin 32, (~~~(0x300#32 : Word)).getLsbD b = (b.val != 8 && b.val != 9) := by decide
    rw [clearIT, maskIT, BitVec.getLsbD_and, mask ⟨b, hb⟩]
  · rw [BitVec.getLsbD_of_ge _ _ (by omega), BitVec.getLsbD_of_ge _ _ (by omega), Bool.false_and]

/-- Setting O, S, Z, A, P and C takes bits 11, 7, 6, 4, 2 and 0 from the value and keeps every other bit (R187). -/
theorem getLsbD_setOSZAPC (f v : Word) (b : Nat) :
    (setOSZAPC f v).getLsbD b =
      if b = 0 ∨ b = 2 ∨ b = 4 ∨ b = 6 ∨ b = 7 ∨ b = 11 then v.getLsbD b else f.getLsbD b := by
  by_cases hb : b < 32
  · have mask : ∀ b : Fin 32, (0x8D5#32 : Word).getLsbD b =
        decide (b.val = 0 ∨ b.val = 2 ∨ b.val = 4 ∨ b.val = 6 ∨ b.val = 7 ∨ b.val = 11) := by decide
    rw [setOSZAPC, maskOSZAPC, BitVec.getLsbD_or, BitVec.getLsbD_and, BitVec.getLsbD_and, BitVec.getLsbD_not,
      mask ⟨b, hb⟩]
    split <;> simp [*]
  · rw [BitVec.getLsbD_of_ge _ _ (by omega), BitVec.getLsbD_of_ge f _ (by omega), BitVec.getLsbD_of_ge v _ (by omega)]
    split <;> rfl

end Sys2Proof.Machine
end

