-- ==== Sys2Proof/Laws/PerInstr.lean ====
section
/-! SUPPORT. Statements for all instructions, one lemma per constructor of Instr. -/

namespace Sys2Proof.Laws

/-- Without its prefixes an instruction is encoded in 1 to 11 bytes (30_encoding.md R100: the opcode, the addressing
mode byte, the SIB byte, 4 bytes of displacement and 4 of immediate at most). -/
def EncodedLength.Statement (i : Instr) : Prop := 1 ≤ (encode i).length ∧ (encode i).length ≤ 11

theorem EncodedLength.prefixOperandSize : EncodedLength.Statement .prefixOperandSize := by simp [EncodedLength.Statement, encode]

theorem EncodedLength.prefixAddressSize : EncodedLength.Statement .prefixAddressSize := by simp [EncodedLength.Statement, encode]

theorem EncodedLength.prefixEs : EncodedLength.Statement .prefixEs := by simp [EncodedLength.Statement, encode]

theorem EncodedLength.prefixCs : EncodedLength.Statement .prefixCs := by simp [EncodedLength.Statement, encode]

theorem EncodedLength.prefixSs : EncodedLength.Statement .prefixSs := by simp [EncodedLength.Statement, encode]

theorem EncodedLength.prefixDs : EncodedLength.Statement .prefixDs := by simp [EncodedLength.Statement, encode]

theorem EncodedLength.prefixFs : EncodedLength.Statement .prefixFs := by simp [EncodedLength.Statement, encode]

theorem EncodedLength.prefixGs : EncodedLength.Statement .prefixGs := by simp [EncodedLength.Statement, encode]

theorem EncodedLength.prefixLock : EncodedLength.Statement .prefixLock := by simp [EncodedLength.Statement, encode]

theorem EncodedLength.prefixRepne : EncodedLength.Statement .prefixRepne := by simp [EncodedLength.Statement, encode]

theorem EncodedLength.prefixRep : EncodedLength.Statement .prefixRep := by simp [EncodedLength.Statement, encode]

theorem EncodedLength.movRm8R8 (rm : Rm) (reg : RegNum) : EncodedLength.Statement (.movRm8R8 rm reg) := by
  have := rm_len_bounds rm
  simp [EncodedLength.Statement, encode]
  omega

theorem EncodedLength.movRmR (sz : OpSize) (rm : Rm) (reg : RegNum) : EncodedLength.Statement (.movRmR sz rm reg) := by
  have := rm_len_bounds rm
  simp [EncodedLength.Statement, encode]
  omega

theorem EncodedLength.movR8Rm8 (reg : RegNum) (rm : Rm) : EncodedLength.Statement (.movR8Rm8 reg rm) := by
  have := rm_len_bounds rm
  simp [EncodedLength.Statement, encode]
  omega

theorem EncodedLength.movRRm (sz : OpSize) (reg : RegNum) (rm : Rm) : EncodedLength.Statement (.movRRm sz reg rm) := by
  have := rm_len_bounds rm
  simp [EncodedLength.Statement, encode]
  omega

theorem EncodedLength.movRm16Sreg (sz : OpSize) (ops : SregOps) : EncodedLength.Statement (.movRm16Sreg sz ops) := by
  cases ops with
  | valid sr rm =>
    have := rm_len_bounds rm
    simp [EncodedLength.Statement, encode, SregOps.len]
    omega
  | invalid md reg rm => simp [EncodedLength.Statement, encode, SregOps.len]

theorem EncodedLength.movSregRm16 (ops : SregOps) : EncodedLength.Statement (.movSregRm16 ops) := by
  cases ops with
  | valid sr rm =>
    have := rm_len_bounds rm
    simp [EncodedLength.Statement, encode, SregOps.len]
    omega
  | invalid md reg rm => simp [EncodedLength.Statement, encode, SregOps.len]

theorem EncodedLength.movAlMoffs (a : Moffs) : EncodedLength.Statement (.movAlMoffs a) := by
  cases a <;> simp [EncodedLength.Statement, encode, Moffs.len]

theorem EncodedLength.movAxMoffs (sz : OpSize) (a : Moffs) : EncodedLength.Statement (.movAxMoffs sz a) := by
  cases a <;> simp [EncodedLength.Statement, encode, Moffs.len]

theorem EncodedLength.movMoffsAl (a : Moffs) : EncodedLength.Statement (.movMoffsAl a) := by
  cases a <;> simp [EncodedLength.Statement, encode, Moffs.len]

theorem EncodedLength.movMoffsAx (sz : OpSize) (a : Moffs) : EncodedLength.Statement (.movMoffsAx sz a) := by
  cases a <;> simp [EncodedLength.Statement, encode, Moffs.len]

theorem EncodedLength.movR8Imm8 (reg : RegNum) (imm : Byte) : EncodedLength.Statement (.movR8Imm8 reg imm) := by simp [EncodedLength.Statement, encode]

theorem EncodedLength.movRImm (reg : RegNum) (imm : ImmW) : EncodedLength.Statement (.movRImm reg imm) := by
  cases imm <;> simp [EncodedLength.Statement, encode, ImmW.len]

theorem EncodedLength.movRm8Imm8 (rm : Rm) (imm : Byte) : EncodedLength.Statement (.movRm8Imm8 rm imm) := by
  have := rm_len_bounds rm
  simp [EncodedLength.Statement, encode]
  omega

theorem EncodedLength.reservedC6 (md : BitVec 2) (reg : BitVec 3) (rm : BitVec 3) : EncodedLength.Statement (.reservedC6 md reg rm) := by simp [EncodedLength.Statement, encode]

theorem EncodedLength.movRmImm (rm : Rm) (imm : ImmW) : EncodedLength.Statement (.movRmImm rm imm) := by
  have := rm_len_bounds rm
  cases imm <;> simp [EncodedLength.Statement, encode, ImmW.encode] <;> omega

theorem EncodedLength.reservedC7 (md : BitVec 2) (reg : BitVec 3) (rm : BitVec 3) : EncodedLength.Statement (.reservedC7 md reg rm) := by simp [EncodedLength.Statement, encode]

theorem EncodedLength.breakpoint : EncodedLength.Statement .breakpoint := by simp [EncodedLength.Statement, encode]

theorem EncodedLength.ltr (md : BitVec 2) (rm : BitVec 3) : EncodedLength.Statement (.ltr md rm) := by simp [EncodedLength.Statement, encode]

theorem EncodedLength.movRCr (md : BitVec 2) (n : BitVec 3) (reg : RegNum) : EncodedLength.Statement (.movRCr md n reg) := by simp [EncodedLength.Statement, encode]

theorem EncodedLength.movCrR (md : BitVec 2) (n : BitVec 3) (reg : RegNum) : EncodedLength.Statement (.movCrR md n reg) := by simp [EncodedLength.Statement, encode]

theorem EncodedLength.movRDr (md : BitVec 2) (n : BitVec 3) (reg : RegNum) : EncodedLength.Statement (.movRDr md n reg) := by simp [EncodedLength.Statement, encode]

theorem EncodedLength.movDrR (md : BitVec 2) (n : BitVec 3) (reg : RegNum) : EncodedLength.Statement (.movDrR md n reg) := by simp [EncodedLength.Statement, encode]

theorem EncodedLength.movRTr (md : BitVec 2) (n : BitVec 3) (reg : RegNum) : EncodedLength.Statement (.movRTr md n reg) := by simp [EncodedLength.Statement, encode]

theorem EncodedLength.movTrR (md : BitVec 2) (n : BitVec 3) (reg : RegNum) : EncodedLength.Statement (.movTrR md n reg) := by simp [EncodedLength.Statement, encode]

end Sys2Proof.Laws
end

