-- ==== Sys2Proof/Laws/Run.lean ====
section
/-! SUPPORT. Runs and their ends (70_reset_and_hazards.md R253): a run is in one state at a time, takes no step past its
end, and has at most one final state. -/

namespace Sys2Proof.Machine

/-- A run is in one state after a number of steps. -/
theorem Run.unique {launch s t : State} {n : Nat} (hs : Run launch n s) : Run launch n t → s = t := by
  induction hs generalizing t with
  | start => rintro ⟨⟩; rfl
  | next h on h1 ih =>
    rintro (_ | ⟨h', -, h1'⟩)
    cases ih h'
    rw [h1] at h1'
    simpa using h1'

/-- A run that has steps after `s` goes on past `s`. -/
theorem Run.goesOn {launch s t : State} {n m : Nat} (hs : Run launch n s) (ht : Run launch m t) (hnm : n < m) :
    GoesOn launch s := by
  induction ht with
  | start => omega
  | @next k u v h on h1 ih =>
    rcases Nat.lt_or_ge n k with hk | hk
    · exact ih hk
    · obtain rfl : n = k := by omega
      cases hs.unique h
      exact on

/-- A final state is one of a state of the run that the run does not go on from: that state, or the one in which its
instruction has completed. -/
theorem Final.cases {launch t : State} (h : Final launch t) :
    ∃ n s, Run launch n s ∧ ¬GoesOn launch s ∧
      ((runOver launch s ∧ t = s) ∨ (¬runOver launch s ∧ runInstruction s = .next t)) := by
  cases h with
  | between h ended => exact ⟨_, _, h, fun g => g.here ended, .inl ⟨ended, rfl⟩⟩
  | completed h here h1 ended => exact ⟨_, _, h, fun g => g.completed _ h1 ended, .inr ⟨here, h1⟩⟩

/-- A run has at most one final state (R253). -/
theorem Final.unique {launch t u : State} (ht : Final launch t) (hu : Final launch u) : t = u := by
  obtain ⟨n, s, hs, gs, h1⟩ := ht.cases
  obtain ⟨m, s', hs', gs', h2⟩ := hu.cases
  rcases Nat.lt_trichotomy n m with h | rfl | h
  · exact absurd (hs.goesOn hs' h) gs
  · cases hs.unique hs'
    rcases h1 with ⟨o1, rfl⟩ | ⟨o1, e1⟩ <;> rcases h2 with ⟨o2, rfl⟩ | ⟨o2, e2⟩
    · rfl
    · exact absurd o1 o2
    · exact absurd o2 o1
    · rw [e1] at e2
      simpa using e2
  · exact absurd (hs'.goesOn hs h) gs'

/-- A run whose first step is its last is only ever in its launch state. -/
theorem Run.of_not_goesOn {launch s : State} {n : Nat} (h : Run launch n s) (hl : ¬GoesOn launch launch) : s = launch := by
  cases n with
  | zero => exact h.unique .start
  | succ n => exact absurd (Run.start.goesOn h (Nat.succ_pos n)) hl

/-- A run that reaches a refusal at its launch is only ever in its launch state. -/
theorem Run.of_refused {launch s : State} {n : Nat} {r : Refusal} (h : Run launch n s)
    (hl : step launch = .refused r) : s = launch := by
  induction h with
  | start => rfl
  | next h on h1 ih =>
    cases ih
    rw [hl] at h1
    cases h1

end Sys2Proof.Machine
end

