-- ==== Sys2Proof/Laws/Step.lean ====
section
/-! SUPPORT. What a step can do when it answers a next state, said once. -/

namespace Sys2Proof.Machine

/-- What the decoder's answer can do: an instruction's effect. -/
theorem runDecoded_effect {d : Decoded} {s t : State} (h : runDecoded d s = .next t) :
    Effect d.isSpecialMove s t := by
  cases d with
  | instr i rest => exact exec_effect h
  | truncated =>
    simp only [runDecoded] at h
    unfold stopOutcome at h
    split at h
    · exact effect_of_raiseFault h
    · simp at h
  | invalidOpcode => exact effect_of_raiseFault h
  | refused r => simp [runDecoded] at h

/-- What the oracle presents changes only what is pending. -/
@[simp] theorem arrive_mem (s : State) : (arrive s).mem = s.mem := by unfold arrive; split <;> rfl
@[simp] theorem arrive_gpr (s : State) : (arrive s).gpr = s.gpr := by unfold arrive; split <;> rfl
@[simp] theorem arrive_ip (s : State) : (arrive s).ip = s.ip := by unfold arrive; split <;> rfl
@[simp] theorem arrive_flags (s : State) : (arrive s).flags = s.flags := by unfold arrive; split <;> rfl
@[simp] theorem arrive_seg (s : State) : (arrive s).seg = s.seg := by unfold arrive; split <;> rfl
@[simp] theorem arrive_ctl (s : State) : (arrive s).ctl = s.ctl := by unfold arrive; split <;> rfl
@[simp] theorem arrive_dbg (s : State) : (arrive s).dbg = s.dbg := by unfold arrive; split <;> rfl
@[simp] theorem arrive_test (s : State) : (arrive s).test = s.test := by unfold arrive; split <;> rfl
@[simp] theorem arrive_sys (s : State) : (arrive s).sys = s.sys := by unfold arrive; split <;> rfl
@[simp] theorem arrive_inhibit (s : State) : (arrive s).inhibit = s.inhibit := by unfold arrive; split <;> rfl
@[simp] theorem arrive_ports (s : State) : (arrive s).ports = s.ports := by unfold arrive; split <;> rfl
@[simp] theorem arrive_pfx (s : State) : (arrive s).pfx = s.pfx := by unfold arrive; split <;> rfl
@[simp] theorem arrive_draws (s : State) : (arrive s).draws = s.draws := by unfold arrive; split <;> rfl
@[simp] theorem arrive_cfg (s : State) : (arrive s).cfg = s.cfg := by unfold arrive; split <;> rfl

/-- What the instruction boundary can do after an instruction that led to `u`. -/
inductive BoundaryEffect (u : State) : State → Prop where
  /-- Nothing, between the bytes of an instruction. -/
  | within : BoundaryEffect u u
  /-- The oracle's answer becomes pending, and nothing is accepted. -/
  | waited : BoundaryEffect u (arrive u)
  /-- A handler is entered, for an interrupt that is no longer pending or for the single-step trap, which leaves DR6
  free. -/
  | accepted (v : Byte) (ip : Word) (n : Bool) (w : Option Byte) (x : Word) (k : Nat) (t : State)
      (on : u.cfg.modelTrapEntry = true) (h : enterHandler v ip { arrive u with
        nmiPending := n, intrPending := w, dbg := { (arrive u).dbg with dr6 := x }, draws := k } = .ok t) :
      BoundaryEffect u t

/-- An accepted interrupt enters a handler. -/
theorem acceptInterrupt_next {v : Byte} {s t : State} (h : acceptInterrupt v s = .next t) :
    s.cfg.modelTrapEntry = true ∧ enterHandler v s.ip s = .ok t := by
  unfold acceptInterrupt at h
  split at h
  · exact ⟨‹_›, enterOutcome_eq_next.1 h⟩
  · simp at h

/-- What the boundary can do. -/
theorem atBoundary_effect {b : Bool} {u t : State} (h : atBoundary b u = .next t) : BoundaryEffect u t := by
  unfold atBoundary at h
  split at h
  · exact .accepted _ _ _ _ _ _ _ (by simpa using (takeException_eq_next.1 h).1) (takeException_eq_next.1 h).2
  · unfold pollInterrupts at h
    split at h
    · exact .accepted _ _ _ _ _ _ _ (by simpa using (acceptInterrupt_next h).1) (acceptInterrupt_next h).2
    · split at h
      · simp only [Host.Outcome.next.injEq] at h
        subst h
        exact .waited
      · split at h
        · exact .accepted _ _ _ _ _ _ _ (by simpa using (acceptInterrupt_next h).1) (acceptInterrupt_next h).2
        · simp only [Host.Outcome.next.injEq] at h
          subst h
          exact .waited

/-- The instruction of a step answers a next state exactly when the state is in scope and what was decoded does. -/
theorem runInstruction_eq_next {s t : State} :
    runInstruction s = .next t ↔ outOfScope s = none ∧ runDecoded (decodeNext s) s = .next t := by
  unfold runInstruction
  split <;> simp_all

/-- From a state in scope the instruction of a step is what was decoded. -/
theorem runInstruction_of_inScope {s : State} (h : outOfScope s = none) :
    runInstruction s = runDecoded (decodeNext s) s := by
  unfold runInstruction
  rw [h]

/-- A step is its instruction and then its boundary. -/
theorem step_next {s t : State} (h : step s = .next t) : ∃ u, runInstruction s = .next u ∧ BoundaryEffect u t := by
  unfold step afterInstruction at h
  split at h
  · rename_i u hu
    refine ⟨u, hu, ?_⟩
    split at h
    · exact atBoundary_effect h
    · simp only [Host.Outcome.next.injEq] at h
      subst h
      exact .within
  · simp at h
  · simp at h

/-- What a step can do: an instruction's effect from a state in scope, then what the boundary does. -/
theorem step_effect {s t : State} (h : step s = .next t) :
    outOfScope s = none ∧ ∃ u, Effect (decodeNext s).isSpecialMove s u ∧ BoundaryEffect u t := by
  obtain ⟨u, hu, hb⟩ := step_next h
  obtain ⟨h0, hr⟩ := runInstruction_eq_next.1 hu
  exact ⟨h0, u, runDecoded_effect hr, hb⟩

/-- The boundary does not touch the inhibition after a load of SS. -/
theorem boundaryEffect_inhibit {u t : State} (h : BoundaryEffect u t) : t.inhibit = u.inhibit := by
  cases h with
  | within => rfl
  | waited => exact arrive_inhibit u
  | accepted v ip n w x k t on h =>
    obtain ⟨g, m, cs, ip', rfl, -⟩ := enterHandler_ok h
    exact arrive_inhibit u

/-- An instruction keeps the canonical form of memory. -/
theorem effect_wf {sp : Bool} {s t : State} (h : Effect sp s t) (hw : s.mem.wf = true) : t.mem.wf = true := by
  cases h with
  | recorded => exact hw
  | moved _ _ _ _ hm => exact (hm hw).wf
  | segLoaded => exact hw
  | special => exact hw
  | entered v ip s0 t on h0 h =>
    obtain ⟨g, m, cs, ip', rfl, hm⟩ := enterHandler_ok h
    rcases h0 with rfl | rfl <;> exact hm hw

/-- The boundary keeps the canonical form of memory. -/
theorem boundaryEffect_wf {u t : State} (h : BoundaryEffect u t) (hw : u.mem.wf = true) : t.mem.wf = true := by
  cases h with
  | within => exact hw
  | waited => simpa using hw
  | accepted v ip n w x k t on h =>
    obtain ⟨g, m, cs, ip', rfl, hm⟩ := enterHandler_ok h
    exact hm (by simpa using hw)

end Sys2Proof.Machine
end

