-- ==== Sys2Proof/Tests/Slice0.lean ====
section
/-! SUPPORT. Tests of the model. Expected results come from the spec: the encoding rows of 30_encoding.md R115, and the
vectors of 95_test_vectors.md (their ids stand in the comments). Each step test runs one step. -/

namespace Sys2Proof.Tests

open Sys2Proof.Machine

/-! ## WellFormed refuses ill-formed terms -/

/-- `[BP]` without displacement has no encoding of its own (R105). -/
theorem test_wf_bp_none : (Instr.movRm8R8 (.mem (.form16 .bp .none)) 0#3).wf = false := by decide
/-- A base 100b needs a SIB byte (R106). -/
theorem test_wf_base_esp : (Instr.movRmR .o16 (.mem (.base32 4#3 .none)) 0#3).wf = false := by decide
/-- `[EBP]` without displacement has no encoding of its own (R106). -/
theorem test_wf_ebp_none : (Instr.movR8Rm8 0#3 (.mem (.base32 5#3 .none))).wf = false := by decide
/-- ESP cannot be an index (R108 (a)). -/
theorem test_wf_index_esp : (Instr.movRRm .o16 0#3 (.mem (.sib 0#2 (some 4#3) 0#3 .none))).wf = false := by decide
/-- Without an index the scale is 00b (R108 (a)). -/
theorem test_wf_no_index_scale : (Instr.movRm8Imm8 (.mem (.sibNoBase 1#2 none 0#32)) 0#8).wf = false := by decide
/-- Base EBP behind a SIB byte needs a displacement (R108 (b)). -/
theorem test_wf_sib_ebp_none : (Instr.movRmImm (.mem (.sib 0#2 none 5#3 .none)) (.i16 0#16)).wf = false := by decide
/-- A number that names a segment register is not invalid (R181). -/
theorem test_wf_source_named : (Instr.movRm16Sreg .o16 (.invalid 3#2 1#3 0#3)).wf = false := by decide
/-- CS is no destination (R182). -/
theorem test_wf_dest_cs : (Instr.movSregRm16 (.valid .cs (.reg 0#3))).wf = false := by decide
/-- `reg` 000b of C6h is not reserved (R113 (a)). -/
theorem test_wf_c6_zero : (Instr.reservedC6 0#2 0#3 0#3).wf = false := by decide
/-- `reg` 000b of C7h is not reserved (R113 (a)). -/
theorem test_wf_c7_zero : (Instr.reservedC7 0#2 0#3 0#3).wf = false := by decide

/-! ## Decoding: every constructor from a word written out from the spec -/

/-- The decoder under these size prefixes. -/
def sizes (op32 ad32 : Bool) : Prefixes := { Prefixes.none with op32 := op32, ad32 := ad32 }

/-- R101. -/
theorem test_decode_operand_size : decode Prefixes.none [0x66#8] = .instr (.prefixOperandSize) [] := by decide
/-- R101. -/
theorem test_decode_address_size : decode Prefixes.none [0x67#8] = .instr (.prefixAddressSize) [] := by decide
/-- R102. -/
theorem test_decode_es : decode Prefixes.none [0x26#8] = .instr (.prefixEs) [] := by decide
/-- R102. -/
theorem test_decode_cs : decode Prefixes.none [0x2E#8] = .instr (.prefixCs) [] := by decide
/-- R102. -/
theorem test_decode_ss : decode Prefixes.none [0x36#8] = .instr (.prefixSs) [] := by decide
/-- R102. -/
theorem test_decode_ds : decode Prefixes.none [0x3E#8] = .instr (.prefixDs) [] := by decide
/-- R102. -/
theorem test_decode_fs : decode Prefixes.none [0x64#8] = .instr (.prefixFs) [] := by decide
/-- R102. -/
theorem test_decode_gs : decode Prefixes.none [0x65#8] = .instr (.prefixGs) [] := by decide
/-- R102. -/
theorem test_decode_lock : decode Prefixes.none [0xF0#8] = .instr (.prefixLock) [] := by decide
/-- R102. -/
theorem test_decode_repne : decode Prefixes.none [0xF2#8] = .instr (.prefixRepne) [] := by decide
/-- R102. -/
theorem test_decode_rep : decode Prefixes.none [0xF3#8] = .instr (.prefixRep) [] := by decide
/-- M1: MOV [BX],AL. -/
theorem test_decode_88 : decode Prefixes.none [0x88#8, 0x07#8] = .instr (.movRm8R8 (.mem (.form16 .bx .none)) 0#3) [] := by decide
/-- V3: MOV [BP-2],DI. -/
theorem test_decode_89 : decode Prefixes.none [0x89#8, 0x7E#8, 0xFE#8] = .instr (.movRmR .o16 (.mem (.form16 .bp (.d8 0xFE#8))) 7#3) [] := by decide
/-- M3: MOV BH,BL. -/
theorem test_decode_8A : decode Prefixes.none [0x8A#8, 0xFB#8] = .instr (.movR8Rm8 7#3 (.reg 3#3)) [] := by decide
/-- M6: MOV BX,[BX]. -/
theorem test_decode_8B : decode Prefixes.none [0x8B#8, 0x1F#8] = .instr (.movRRm .o16 3#3 (.mem (.form16 .bx .none))) [] := by decide
/-- S1: MOV AX,DS. -/
theorem test_decode_8C : decode Prefixes.none [0x8C#8, 0xD8#8] = .instr (.movRm16Sreg .o16 (.valid .ds (.reg 0#3))) [] := by decide
/-- S6. -/
theorem test_decode_8C_six : decode Prefixes.none [0x8C#8, 0xF0#8] = .instr (.movRm16Sreg .o16 (.invalid 3#2 6#3 0#3)) [] := by decide
/-- S7: MOV SS,AX. -/
theorem test_decode_8E : decode Prefixes.none [0x8E#8, 0xD0#8] = .instr (.movSregRm16 (.valid .ss (.reg 0#3))) [] := by decide
/-- S8. -/
theorem test_decode_8E_cs : decode Prefixes.none [0x8E#8, 0xC8#8] = .instr (.movSregRm16 (.invalid 3#2 1#3 0#3)) [] := by decide
/-- A1. -/
theorem test_decode_A0 : decode Prefixes.none [0xA0#8, 0x34#8, 0x12#8] = .instr (.movAlMoffs (.m16 0x1234#16)) [] := by decide
/-- A2. -/
theorem test_decode_A1 : decode Prefixes.none [0xA1#8, 0x34#8, 0x12#8] = .instr (.movAxMoffs .o16 (.m16 0x1234#16)) [] := by decide
/-- A6. -/
theorem test_decode_A2 : decode Prefixes.none [0xA2#8, 0x34#8, 0x12#8] = .instr (.movMoffsAl (.m16 0x1234#16)) [] := by decide
/-- A7. -/
theorem test_decode_A3 : decode Prefixes.none [0xA3#8, 0x34#8, 0x12#8] = .instr (.movMoffsAx .o16 (.m16 0x1234#16)) [] := by decide
/-- M17: MOV AH,9Ah. -/
theorem test_decode_B4 : decode Prefixes.none [0xB4#8, 0x9A#8] = .instr (.movR8Imm8 4#3 0x9A#8) [] := by decide
/-- M18: MOV AX,1234h. -/
theorem test_decode_B8 : decode Prefixes.none [0xB8#8, 0x34#8, 0x12#8] = .instr (.movRImm 0#3 (.i16 0x1234#16)) [] := by decide
/-- M21. -/
theorem test_decode_C6 : decode Prefixes.none [0xC6#8, 0x40#8, 0x02#8, 0x7F#8] = .instr (.movRm8Imm8 (.mem (.form16 .bxSi (.d8 0x02#8))) 0x7F#8) [] := by decide
/-- M23, which fetches no further. -/
theorem test_decode_C6_reserved : decode Prefixes.none [0xC6#8, 0x48#8] = .instr (.reservedC6 1#2 1#3 0#3) [] := by decide
/-- M26. -/
theorem test_decode_C7 : decode Prefixes.none [0xC7#8, 0x46#8, 0xFE#8, 0x34#8, 0x12#8] = .instr (.movRmImm (.mem (.form16 .bp (.d8 0xFE#8))) (.i16 0x1234#16)) [] := by decide
/-- R113 (a): 11 111 000b. -/
theorem test_decode_C7_reserved : decode Prefixes.none [0xC7#8, 0xF8#8] = .instr (.reservedC7 3#2 7#3 0#3) [] := by decide
/-- B1. -/
theorem test_decode_CC : decode Prefixes.none [0xCC#8] = .instr (.breakpoint) [] := by decide
/-- L1: LTR AX. -/
theorem test_decode_ltr : decode Prefixes.none [0x0F#8, 0x00#8, 0xD8#8] = .instr (.ltr 3#2 0#3) [] := by decide
/-- X2: MOV EAX,CR0. -/
theorem test_decode_mov_r_cr : decode Prefixes.none [0x0F#8, 0x20#8, 0xC0#8] = .instr (.movRCr 3#2 0#3 0#3) [] := by decide
/-- X3: MOV CR0,EAX. -/
theorem test_decode_mov_cr_r : decode Prefixes.none [0x0F#8, 0x22#8, 0xC0#8] = .instr (.movCrR 3#2 0#3 0#3) [] := by decide
/-- R190: MOV EAX,DR7. -/
theorem test_decode_mov_r_dr : decode Prefixes.none [0x0F#8, 0x21#8, 0xF8#8] = .instr (.movRDr 3#2 7#3 0#3) [] := by decide
/-- X10: MOV DR7,EAX. -/
theorem test_decode_mov_dr_r : decode Prefixes.none [0x0F#8, 0x23#8, 0xF8#8] = .instr (.movDrR 3#2 7#3 0#3) [] := by decide
/-- X13: MOV EAX,TR6. -/
theorem test_decode_mov_r_tr : decode Prefixes.none [0x0F#8, 0x24#8, 0xF0#8] = .instr (.movRTr 3#2 6#3 0#3) [] := by decide
/-- X11: MOV TR5,EAX. -/
theorem test_decode_mov_tr_r : decode Prefixes.none [0x0F#8, 0x26#8, 0xE8#8] = .instr (.movTrR 3#2 5#3 0#3) [] := by decide
/-- V2: MOV [ESI*4][ESP],EAX. -/
theorem test_decode_example_2 : decode (sizes true true) [0x89#8, 0x04#8, 0xB4#8] = .instr (.movRmR .o32 (.mem (.sib 2#2 (some 6#3) 4#3 .none)) 0#3) [] := by decide
/-- V1: MOV AX,[EBX+ECX+5]. -/
theorem test_decode_example_1 : decode (sizes false true) [0x8B#8, 0x44#8, 0x0B#8, 0x05#8] = .instr (.movRRm .o16 0#3 (.mem (.sib 0#2 (some 1#3) 3#3 (.d8 0x05#8)))) [] := by decide
/-- E15. -/
theorem test_decode_no_index : decode (sizes false true) [0x8B#8, 0x04#8, 0x24#8] = .instr (.movRRm .o16 0#3 (.mem (.sib 0#2 none 4#3 .none))) [] := by decide
/-- E16. -/
theorem test_decode_no_index_scaled : decode (sizes false true) [0x8B#8, 0x04#8, 0x64#8] = .refused .sibNoIndexWithScale := by decide
/-- E18. -/
theorem test_decode_no_base : decode (sizes false true) [0x8B#8, 0x04#8, 0x8D#8, 0x00#8, 0x02#8, 0x00#8, 0x00#8] = .instr (.movRRm .o16 0#3 (.mem (.sibNoBase 2#2 (some 1#3) 0x200#32))) [] := by decide
/-- E17. -/
theorem test_decode_direct32 : decode (sizes false true) [0x8B#8, 0x05#8, 0x78#8, 0x56#8, 0x00#8, 0x00#8] = .instr (.movRRm .o16 0#3 (.mem (.direct32 0x5678#32))) [] := by decide
/-- E13. -/
theorem test_decode_direct16 : decode (sizes false false) [0x8B#8, 0x06#8, 0x34#8, 0x12#8] = .instr (.movRRm .o16 0#3 (.mem (.direct16 0x1234#16))) [] := by decide
/-- M25: disp16 before imm32. -/
theorem test_decode_disp_then_imm : decode (sizes true false) [0xC7#8, 0x06#8, 0x34#8, 0x12#8, 0x01#8, 0x00#8, 0x00#8, 0x00#8] = .instr (.movRmImm (.mem (.direct16 0x1234#16)) (.i32 1#32)) [] := by decide
/-- A4. -/
theorem test_decode_moffs32 : decode (sizes false true) [0xA1#8, 0x34#8, 0x12#8, 0x00#8, 0x00#8] = .instr (.movAxMoffs .o16 (.m32 0x1234#32)) [] := by decide
/-- E10. -/
theorem test_decode_not_in_spec : decode (sizes false false) [0x90#8] = .refused .opcodeNotInSpec := by decide
/-- R115: 0Fh 00h with reg 010b. -/
theorem test_decode_0F00_other : decode (sizes false false) [0x0F#8, 0x00#8, 0xD0#8] = .refused .opcodeNotInSpec := by decide
/-- E8: a lock prefix, once the addressing-mode byte is read. -/
theorem test_decode_after_lock : decode { Prefixes.none with lock := true } [0x88#8, 0x07#8] = .invalidOpcode := by decide
/-- E9: a repeat prefix. -/
theorem test_decode_after_rep : decode { Prefixes.none with rep := true } [0x89#8, 0xD9#8] = .refused .repPrefix := by decide
/-- The table's numbering: the second byte is bits 15..8. -/
theorem test_decode_table_word : decodeTableWord 24 0xD8000F = some (.ltr 3#2 0#3) := by decide

/-! ## One step -/

/-- The common start state of 95_test_vectors.md, its parameters but for the two that State.reset turns on. -/
def start : State :=
  { State.reset with
    ip := 0x0100#32
    seg :=
      { es := ⟨0x3000#16, 0x00030000#32, 0xFFFF#32⟩
        cs := ⟨0x0000#16, 0x00000000#32, 0xFFFF#32⟩
        ss := ⟨0x2000#16, 0x00020000#32, 0xFFFF#32⟩
        ds := ⟨0x1000#16, 0x00010000#32, 0xFFFF#32⟩
        fs := ⟨0x0000#16, 0x00000000#32, 0xFFFF#32⟩
        gs := ⟨0x0000#16, 0x00000000#32, 0xFFFF#32⟩ } }

/-- The start state with every general register zero but those given. -/
def regs (eax ecx ebx esp ebp esi edi : Word) (s : State) : State :=
  { s with gpr := ⟨eax, ecx, 0#32, ebx, esp, ebp, esi, edi⟩ }

/-- Bytes at a physical address. -/
def poke (m : Memory) (a : Nat) : List Byte → Memory
  | [] => m
  | b :: bs => poke (writeCell m a b) (a + 1) bs

/-- Data bytes at a physical address. -/
def data (a : Nat) (bs : List Byte) (s : State) : State := { s with mem := poke s.mem a bs }

/-- The prefixes an instruction had before. -/
def prefixed (p : Prefixes) (s : State) : State := { s with pfx := p }

/-- A terminal fault instead of the entry (the default of R220). -/
def terminal (s : State) : State := { s with cfg := { s.cfg with modelTrapEntry := false } }

/-- The early stepping. -/
def early (s : State) : State := { s with cfg := { s.cfg with stepping := .early } }

/-- One step with these bytes at the running fetch offset. -/
def run (bs : List Byte) (s : State) : Outcome := step (placeBytes s (fetchOffset s) bs)

/-- What a next state shows. -/
def seen {α : Type} (f : State → α) : Outcome → Option α
  | .next s => some (f s)
  | .fault _ => none
  | .refused _ => none

/-- The refusal, if that is the outcome. -/
def refusal : Outcome → Option Refusal
  | .next _ => none
  | .fault _ => none
  | .refused r => some r

/-- The fault, if that is the outcome. -/
def faulted : Outcome → Option Fault
  | .next _ => none
  | .fault f => some f
  | .refused _ => none

/-- Bytes of memory from a physical address on. -/
def peek (s : State) (a n : Nat) : List Byte := (List.range n).map fun k => readCell s.mem (a + k)

/-- I = 1. -/
def interruptible (s : State) : State := { s with flags := 0x0202#32 }

/-- The oracle presents a maskable interrupt of vector 40h at the next boundary. -/
def arriving (s : State) : State := { s with arrivals := [⟨false, some 0x40#8⟩] }

/-- DR6 with a value. -/
def dr6 (v : Word) (s : State) : State := { s with dbg := { s.dbg with dr6 := v } }

/-- The instruction pointer two bytes before the end of the segment. -/
def endOfSegment (s : State) : State := { s with ip := 0xFFFE#32 }

/-- M1. -/
theorem test_88 : seen (fun t => (peek t 0x10200 1, t.ip)) (run [0x88#8, 0x07#8] (regs 0x5A#32 0x0#32 0x200#32 0x0#32 0x0#32 0x0#32 0x0#32 start)) = some (([0x5A#8], 0x102#32)) := by decide
/-- M4: 8-bit number 4 is AH. -/
theorem test_88_high : seen (fun t => (t.gpr.eax, t.ip)) (run [0x88#8, 0xE0#8] (regs 0xA1B2#32 0x0#32 0x0#32 0x0#32 0x0#32 0x0#32 0x0#32 start)) = some ((0xA1A1#32, 0x102#32)) := by decide
/-- V2, after its two prefixes. -/
theorem test_89_example_2 : seen (fun t => (peek t 0x21040 4, t.ip)) (run [0x89#8, 0x04#8, 0xB4#8] (prefixed ⟨true, true, none, false, false, 2⟩ (regs 0x12345678#32 0x0#32 0x0#32 0x1000#32 0x0#32 0x10#32 0x0#32 start))) = some (([0x78#8, 0x56#8, 0x34#8, 0x12#8], 0x105#32)) := by decide
/-- V3. -/
theorem test_89_stray : seen (fun t => (peek t 0x20FFE 2, t.ip)) (run [0x89#8, 0x7E#8, 0xFE#8] (regs 0x0#32 0x0#32 0x0#32 0x0#32 0x1000#32 0x0#32 0xBEEF#32 start)) = some (([0xEF#8, 0xBE#8], 0x103#32)) := by decide
/-- M3. -/
theorem test_8A : seen (fun t => (t.gpr.ebx, t.ip)) (run [0x8A#8, 0xFB#8] (regs 0x0#32 0x0#32 0x12345678#32 0x0#32 0x0#32 0x0#32 0x0#32 start)) = some ((0x12347878#32, 0x102#32)) := by decide
/-- M11: the last byte of the segment. -/
theorem test_8A_last_byte : seen (fun t => (t.gpr.eax, t.ip)) (run [0x8A#8, 0x07#8] (data 0x1FFFF [0x7E#8] (regs 0x0#32 0x0#32 0xFFFF#32 0x0#32 0x0#32 0x0#32 0x0#32 start))) = some ((0x7E#32, 0x102#32)) := by decide
/-- V1, after its prefix. -/
theorem test_8B_example_1 : seen (fun t => (t.gpr.eax, t.ip)) (run [0x8B#8, 0x44#8, 0x0B#8, 0x05#8] (prefixed ⟨false, true, none, false, false, 1⟩ (data 0x10125 [0xEF#8, 0xBE#8] (regs 0x12345678#32 0x20#32 0x100#32 0x0#32 0x0#32 0x0#32 0x0#32 start)))) = some ((0x1234BEEF#32, 0x105#32)) := by decide
/-- M9: a 16-bit sum wraps. -/
theorem test_8B_wrap : seen (fun t => (t.gpr.eax, t.ip)) (run [0x8B#8, 0x00#8] (data 0x10001 [0xCD#8, 0xAB#8] (regs 0x0#32 0x0#32 0xFFFF#32 0x0#32 0x0#32 0x2#32 0x0#32 start))) = some ((0xABCD#32, 0x102#32)) := by decide
/-- S2: one free value is drawn for the upper half. -/
theorem test_8C_free_half : seen (fun t => (t.draws, t.ip)) (run [0x8C#8, 0xD8#8] (prefixed ⟨true, false, none, false, false, 1⟩ (regs 0xAAAA0000#32 0x0#32 0x0#32 0x0#32 0x0#32 0x0#32 0x0#32 start))) = some ((1, 0x103#32)) := by decide
/-- S4: two bytes whatever the operand size. -/
theorem test_8C_memory : seen (fun t => (peek t 0x10200 4, t.ip)) (run [0x8C#8, 0x1F#8] (prefixed ⟨true, false, none, false, false, 1⟩ (data 0x10200 [0xFF#8, 0xFF#8, 0xFF#8, 0xFF#8] (regs 0x0#32 0x0#32 0x200#32 0x0#32 0x0#32 0x0#32 0x0#32 start)))) = some (([0x00#8, 0x10#8, 0xFF#8, 0xFF#8], 0x103#32)) := by decide
/-- S7. -/
theorem test_8E_ss : seen (fun t => (t.seg.ss, t.inhibit, t.ip)) (run [0x8E#8, 0xD0#8] (regs 0x4000#32 0x0#32 0x0#32 0x0#32 0x0#32 0x0#32 0x0#32 start)) = some ((⟨0x4000#16, 0x40000#32, 0xFFFF#32⟩, true, 0x102#32)) := by decide
/-- S9: read through the old DS. -/
theorem test_8E_old_ds : seen (fun t => (t.seg.ds, t.inhibit, t.ip)) (run [0x8E#8, 0x1E#8, 0x34#8, 0x12#8] (data 0x11234 [0x00#8, 0x30#8] start)) = some ((⟨0x3000#16, 0x30000#32, 0xFFFF#32⟩, false, 0x104#32)) := by decide
/-- A1. -/
theorem test_A0 : seen (fun t => (t.gpr.eax, t.ip)) (run [0xA0#8, 0x34#8, 0x12#8] (data 0x11234 [0x7E#8] start)) = some ((0x7E#32, 0x103#32)) := by decide
/-- A8, after its prefix. -/
theorem test_A1_es : seen (fun t => (t.gpr.eax, t.ip)) (run [0xA1#8, 0x34#8, 0x12#8] (prefixed ⟨false, false, some .es, false, false, 1⟩ (data 0x31234 [0xCD#8, 0xAB#8] start))) = some ((0xABCD#32, 0x104#32)) := by decide
/-- A9: a word at offset FFFFh. -/
theorem test_A1_limit : faulted (run [0xA1#8, 0xFF#8, 0xFF#8] (terminal start)) = some (.exception .generalProtection 0x100#32) := by decide
/-- A6. -/
theorem test_A2 : seen (fun t => (peek t 0x11234 2, t.ip)) (run [0xA2#8, 0x34#8, 0x12#8] (regs 0x5A#32 0x0#32 0x0#32 0x0#32 0x0#32 0x0#32 0x0#32 start)) = some (([0x5A#8, 0x00#8], 0x103#32)) := by decide
/-- A7. -/
theorem test_A3 : seen (fun t => (peek t 0x11234 2, t.ip)) (run [0xA3#8, 0x34#8, 0x12#8] (regs 0xABCD#32 0x0#32 0x0#32 0x0#32 0x0#32 0x0#32 0x0#32 start)) = some (([0xCD#8, 0xAB#8], 0x103#32)) := by decide
/-- M17. -/
theorem test_B4 : seen (fun t => (t.gpr.eax, t.ip)) (run [0xB4#8, 0x9A#8] (regs 0x1234#32 0x0#32 0x0#32 0x0#32 0x0#32 0x0#32 0x0#32 start)) = some ((0x9A34#32, 0x102#32)) := by decide
/-- M18: the upper half stays. -/
theorem test_B8_upper : seen (fun t => (t.gpr.eax, t.ip)) (run [0xB8#8, 0x34#8, 0x12#8] (regs 0xAAAA0000#32 0x0#32 0x0#32 0x0#32 0x0#32 0x0#32 0x0#32 start)) = some ((0xAAAA1234#32, 0x103#32)) := by decide
/-- E21: the sum does not wrap. -/
theorem test_B8_end : seen (fun t => (t.gpr.ecx, t.ip)) (run [0x89#8, 0xD9#8] (regs 0x0#32 0x0#32 0x2222#32 0x0#32 0x0#32 0x0#32 0x0#32 (endOfSegment start))) = some ((0x2222#32, 0x10000#32)) := by decide
/-- M21. -/
theorem test_C6 : seen (fun t => (peek t 0x10206 1, t.ip)) (run [0xC6#8, 0x40#8, 0x02#8, 0x7F#8] (regs 0x0#32 0x0#32 0x200#32 0x0#32 0x0#32 0x4#32 0x0#32 start)) = some (([0x7F#8], 0x104#32)) := by decide
/-- M23. -/
theorem test_C6_reserved : faulted (run [0xC6#8, 0x48#8, 0x02#8, 0x7F#8] (terminal start)) = some (.exception .invalidOpcode 0x100#32) := by decide
/-- M25, after its prefix. -/
theorem test_C7 : seen (fun t => (peek t 0x11234 4, t.ip)) (run [0xC7#8, 0x06#8, 0x34#8, 0x12#8, 0x01#8, 0x00#8, 0x00#8, 0x00#8] (prefixed ⟨true, false, none, false, false, 1⟩ (data 0x11234 [0xFF#8, 0xFF#8, 0xFF#8, 0xFF#8] start))) = some (([0x01#8, 0x00#8, 0x00#8, 0x00#8], 0x109#32)) := by decide
/-- E11, after its eight prefixes. -/
theorem test_C7_too_long : faulted (run [0xC7#8, 0x06#8, 0x34#8, 0x12#8, 0x01#8, 0x00#8, 0x00#8, 0x00#8] (prefixed ⟨true, false, none, false, false, 8⟩ (terminal start))) = some (.exception .generalProtection 0x100#32) := by decide
/-- R113 (a). -/
theorem test_C7_reserved : faulted (run [0xC7#8, 0xF8#8] (terminal start)) = some (.exception .invalidOpcode 0x100#32) := by decide
/-- B2. -/
theorem test_breakpoint : seen (fun t => (t.gpr.esp, peek t 0x20FFA 6, t.flags, t.seg.cs.sel, t.seg.cs.base, t.ip)) (run [0xCC#8] (data 0xC [0x00#8, 0x05#8, 0x00#8, 0xF0#8] (regs 0x0#32 0x0#32 0x0#32 0x1000#32 0x0#32 0x0#32 0x0#32 (interruptible start)))) = some ((0xFFA#32, [0x01#8, 0x01#8, 0x00#8, 0x00#8, 0x02#8, 0x02#8], 0x2#32, 0xF000#16, 0xF0000#32, 0x500#32)) := by decide
/-- B1. -/
theorem test_breakpoint_terminal : faulted (run [0xCC#8] (terminal start)) = some (.exception .breakpoint 0x101#32) := by decide
/-- L1. -/
theorem test_ltr : faulted (run [0x0F#8, 0x00#8, 0xD8#8] (terminal start)) = some (.exception .invalidOpcode 0x100#32) := by decide
/-- X2. -/
theorem test_mov_r_cr : seen (fun t => (t.gpr.eax, t.ip)) (run [0x0F#8, 0x20#8, 0xC0#8] (start)) = some ((0x60000010#32, 0x103#32)) := by decide
/-- X12. -/
theorem test_mov_r_cr_missing : faulted (run [0x0F#8, 0x20#8, 0xC8#8] (terminal start)) = some (.exception .invalidOpcode 0x100#32) := by decide
/-- X3. -/
theorem test_mov_cr_r_pe : refusal (run [0x0F#8, 0x22#8, 0xC0#8] (regs 0x11#32 0x0#32 0x0#32 0x0#32 0x0#32 0x0#32 0x0#32 start)) = some (.leavesRealMode) := by decide
/-- X5. -/
theorem test_mov_cr_r : seen (fun t => (t.ctl.cr0, t.ip)) (run [0x0F#8, 0x22#8, 0xC0#8] (regs 0x40000010#32 0x0#32 0x0#32 0x0#32 0x0#32 0x0#32 0x0#32 start)) = some ((0x40000010#32, 0x103#32)) := by decide
/-- X6: DR4 is DR6 on the late stepping. -/
theorem test_mov_r_dr_alias : seen (fun t => (t.gpr.eax, t.ip)) (run [0x0F#8, 0x21#8, 0xE0#8] (dr6 0xFFFF0FF0#32 start)) = some ((0xFFFF0FF0#32, 0x103#32)) := by decide
/-- X7. -/
theorem test_mov_r_dr_early : faulted (run [0x0F#8, 0x21#8, 0xE0#8] (early (terminal start))) = some (.exception .invalidOpcode 0x100#32) := by decide
/-- X10. -/
theorem test_mov_dr_r_enables : refusal (run [0x0F#8, 0x23#8, 0xF8#8] (regs 0x1#32 0x0#32 0x0#32 0x0#32 0x0#32 0x0#32 0x0#32 start)) = some (.enablesBreakpoints) := by decide
/-- R191: DR0 receives EBX. -/
theorem test_mov_dr_r : seen (fun t => (t.dbg.dr0, t.ip)) (run [0x0F#8, 0x23#8, 0xC3#8] (regs 0x0#32 0x0#32 0x1234#32 0x0#32 0x0#32 0x0#32 0x0#32 start)) = some ((0x1234#32, 0x103#32)) := by decide
/-- X13. -/
theorem test_mov_r_tr : seen (fun t => t.ip) (run [0x0F#8, 0x24#8, 0xF0#8] (start)) = some (0x103#32) := by decide
/-- X11. -/
theorem test_mov_tr_r : refusal (run [0x0F#8, 0x26#8, 0xE8#8] (start)) = some (.testRegisterWrite) := by decide
/-- E2, its first byte: ip stays, the loop records it. -/
theorem test_prefix_operand_size : seen (fun t => (t.pfx.op32, t.pfx.count, t.ip)) (run [0x66#8, 0x66#8, 0x89#8, 0xD9#8] (start)) = some ((true, 1, 0x100#32)) := by decide
/-- R101. -/
theorem test_prefix_address_size : seen (fun t => (t.pfx.ad32, t.pfx.count)) (run [0x67#8, 0x89#8, 0xD9#8] (start)) = some ((true, 1)) := by decide
/-- E7, its second byte. -/
theorem test_prefix_two_segments : refusal (run [0x36#8, 0x8B#8, 0x07#8] (prefixed ⟨false, false, some .es, false, false, 1⟩ start)) = some (.twoSegmentOverrides) := by decide
/-- E8, after its prefix. -/
theorem test_prefix_lock : faulted (run [0x88#8, 0x07#8] (prefixed ⟨false, false, none, true, false, 1⟩ (terminal start))) = some (.exception .invalidOpcode 0x100#32) := by decide
/-- E9, after its prefix. -/
theorem test_prefix_rep : refusal (run [0x89#8, 0xD9#8] (prefixed ⟨false, false, none, false, true, 1⟩ start)) = some (.repPrefix) := by decide
/-- P5: no interrupt after MOV SS. -/
theorem test_interrupt_held : seen (fun t => (t.ip, t.intrPending)) (run [0x8E#8, 0xD0#8] (arriving (interruptible start))) = some ((0x102#32, some 0x40#8)) := by decide

/-! ## Witnesses: a concrete state and operands that meet the hypotheses of each statement, at the edges of its clauses -/

open Sys2Proof.Claims

/-- Whether the outcome is a next state. -/
def isNext : Outcome → Bool
  | .next _ => true
  | .fault _ => false
  | .refused _ => false

/-- Such an outcome is one. -/
theorem next_of_isNext {o : Outcome} (h : isNext o = true) : ∃ t, o = .next t := by
  cases o with
  | next t => exact ⟨t, rfl⟩
  | fault => cases h
  | refused => cases h

/-- The start state with these bytes where the next ones are fetched. -/
def holding (bs : List Byte) (s : State) : State := placeBytes s (fetchOffset s) bs

/-- C7h with a 16-bit displacement and a 32-bit immediate, 8 bytes. -/
def longMov : Instr := .movRmImm (.mem (.direct16 0x1234#16)) (.i32 1#32)

/-- It stands after seven prefixes, 15 bytes in all. -/
def longest : State := holding (encode longMov) (prefixed ⟨true, false, none, false, false, 7⟩ start)

/-- It stands after eight, too long by one byte. -/
def tooLong : State := holding ((encode longMov).take 7) (prefixed ⟨true, false, none, false, false, 8⟩ start)

/-- It stands after a lock prefix. -/
def locked : State := holding (encode longMov) (prefixed ⟨true, false, none, true, false, 7⟩ start)

/-- It stands after a repeat prefix. -/
def repeated : State := holding (encode longMov) (prefixed ⟨true, false, none, false, true, 7⟩ start)

/-- The first byte of MOV AH,9Ah is the last byte of the code segment. -/
def atEnd : State := holding [0xB4#8] { start with ip := 0xFFFF#32 }

/-- It has the sizes of prefixes with a 66h and no 67h. -/
theorem sizesFit_longMov {p : Prefixes} (h1 : p.op32 = true) (h2 : p.ad32 = false) : SizesFit p longMov := by
  refine ⟨?_, ?_⟩
  · intro sz h; cases h; simp [Prefixes.opSize, h1, ImmW.size]
  · intro a h; cases h; simp [h2, MemOp.addr32]

/-- It fits prefixes with a 66h and no 67h. -/
theorem fit_longMov {p : Prefixes} (h1 : p.op32 = true) (h2 : p.ad32 = false) (h3 : p.lock = false) (h4 : p.rep = false) :
    p.fit longMov :=
  ⟨(sizesFit_longMov h1 h2).1, (sizesFit_longMov h1 h2).2, fun _ => ⟨h3, h4⟩⟩

theorem witness_DecodeOfEncodeIsTheInstruction :
    longMov.wf = true ∧ Prefixes.fit { Prefixes.none with op32 := true } longMov :=
  ⟨rfl, fit_longMov rfl rfl rfl rfl⟩

theorem witness_DecodedBytesAreTheEncoding :
    decode { Prefixes.none with op32 := true } (encode longMov ++ [0x90#8]) = .instr longMov [0x90#8] := by decide

/-- Each group of opcodes, at the ends of its `reg` values. -/
theorem witness_TakesRm :
    TakesRm 0x88#8 7#3 ∧ TakesRm 0x8C#8 5#3 ∧ TakesRm 0x8E#8 0#3 ∧ TakesRm 0x8E#8 2#3 ∧ TakesRm 0xC7#8 0#3 ∧
      ¬TakesRm 0x8C#8 6#3 ∧ ¬TakesRm 0x8E#8 1#3 ∧ ¬TakesRm 0xC6#8 1#3 := by
  unfold TakesRm
  refine ⟨?_, ?_, ?_, ?_, ?_, ?_, ?_, ?_⟩ <;> decide

theorem witness_SibScaleWithoutIndexRefused :
    (sizes false true).ad32 = true ∧ (sizes false true).lock = false ∧ (sizes false true).rep = false ∧
      (2#2 : BitVec 2) ≠ 3#2 ∧ (1#2 : BitVec 2) ≠ 0#2 := by
  decide

/-- Fifteen bytes with the prefixes. -/
theorem witness_StepRunsDecodedInstruction :
    outOfScope longest = none ∧ longMov.wf = true ∧ longest.pfx.fit longMov ∧
      longest.pfx.count + (encode longMov).length = 15 ∧ FetchHolds longest (encode longMov) :=
  ⟨by decide, rfl, fit_longMov rfl rfl rfl rfl, by decide, by unfold FetchHolds; decide⟩

theorem witness_StepWithoutEventsIsTheInstruction :
    outOfScope longest = none ∧ longMov.wf = true ∧ longest.pfx.fit longMov ∧
      longest.pfx.count + (encode longMov).length ≤ 15 ∧ FetchHolds longest (encode longMov) ∧
      flagT longest.flags = false ∧ NoInterrupts longest :=
  ⟨by decide, rfl, fit_longMov rfl rfl rfl rfl, by decide, by unfold FetchHolds; decide, rfl, rfl, rfl, rfl⟩

/-- The 16th byte: after eight prefixes, seven of the eight bytes of the instruction are in place. -/
theorem witness_FetchBeyondLimit_length :
    outOfScope tooLong = none ∧ longMov.wf = true ∧ tooLong.pfx.fit longMov ∧ 7 < (encode longMov).length ∧
      FetchHolds tooLong ((encode longMov).take 7) ∧ tooLong.pfx.count + 7 = 15 :=
  ⟨by decide, rfl, fit_longMov rfl rfl rfl rfl, by decide, by unfold FetchHolds; decide, by decide⟩

/-- The byte after the last one within the limit of CS. -/
theorem witness_FetchBeyondLimit_limit :
    outOfScope atEnd = none ∧ (Instr.movR8Imm8 4#3 0x9A#8).wf = true ∧ atEnd.pfx.fit (.movR8Imm8 4#3 0x9A#8) ∧
      1 < (encode (.movR8Imm8 4#3 0x9A#8)).length ∧ FetchHolds atEnd ((encode (.movR8Imm8 4#3 0x9A#8)).take 1) ∧
      atEnd.pfx.count + 1 ≤ 15 ∧ fetchOffset atEnd + 1 > atEnd.seg.cs.limit.toNat :=
  ⟨by decide, rfl, ⟨nofun, nofun, fun _ => ⟨rfl, rfl⟩⟩, by decide, by unfold FetchHolds; decide, by decide, by decide⟩

theorem witness_LockPrefixRaisesInvalidOpcode :
    outOfScope locked = none ∧ longMov.wf = true ∧ longMov.isPrefix = false ∧ SizesFit locked.pfx longMov ∧
      locked.pfx.count + (encode longMov).length = 15 ∧ FetchHolds locked (encode longMov) ∧
      locked.pfx.lock = true ∧ locked.pfx.rep = false :=
  ⟨by decide, rfl, rfl, sizesFit_longMov rfl rfl, by decide, by unfold FetchHolds; decide, rfl, rfl⟩

theorem witness_RepeatPrefixRefused :
    outOfScope repeated = none ∧ longMov.wf = true ∧ longMov.isPrefix = false ∧ SizesFit repeated.pfx longMov ∧
      repeated.pfx.count + (encode longMov).length = 15 ∧ FetchHolds repeated (encode longMov) ∧
      repeated.pfx.rep = true :=
  ⟨by decide, rfl, rfl, sizesFit_longMov rfl rfl, by decide, by unfold FetchHolds; decide, rfl⟩

/-- A second override that names the same segment. -/
theorem witness_PrefixBytesAreRecorded :
    Instr.prefixEs ∈ prefixInstrs ∧ ∀ j k, prefixSeg .prefixEs = some j →
      (prefixed ⟨false, false, some .es, false, false, 1⟩ start).pfx.seg = some k → k = j :=
  ⟨by decide, fun _ _ h1 h2 => by cases h1; cases h2; rfl⟩

theorem witness_SecondSegmentOverrideRefused :
    prefixSeg .prefixEs = some .es ∧ (prefixed ⟨false, false, some .ss, false, false, 1⟩ start).pfx.seg = some .ss ∧
      SReg.ss ≠ SReg.es := by decide

theorem witness_PrefixOrderDoesNotMatter :
    ∃ t u t', Instr.prefixEs ∈ prefixInstrs ∧ Instr.prefixLock ∈ prefixInstrs ∧ exec .prefixEs start = .next t ∧
      exec .prefixLock t = .next u ∧ exec .prefixLock start = .next t' :=
  ⟨_, _, _, by decide, by decide, rfl, rfl, rfl⟩

/-- MOV BH,BL, from the launch premises. -/
theorem witness_StepKeepsRealMode :
    RealMode (holding [0x8A#8, 0xFB#8] start) ∧ (holding [0x8A#8, 0xFB#8] start).mem.wf = true ∧
      ∃ t, step (holding [0x8A#8, 0xFB#8] start) = .next t :=
  ⟨⟨rfl, rfl, fun j => by cases j <;> rfl, rfl, rfl, rfl⟩, by decide, next_of_isNext (by decide)⟩

/-- The same step meets the hypothesis of StepKeepsSystemRegisters; one that clears flag I, of
StepNeverSetsInterruptOrTrapFlag. -/
theorem witness_StepKeepsSystemRegisters_Flags :
    (∃ t, step (holding [0x8A#8, 0xFB#8] start) = .next t) ∧ ¬freeFlag 9 ∧
      seen (fun t => t.flags.getLsbD 9)
        (step (holding [0xCC#8] (regs 0#32 0#32 0#32 0x1000#32 0#32 0#32 0#32 (interruptible start)))) = some false :=
  ⟨next_of_isNext (by decide), by unfold freeFlag; decide, by decide⟩

/-- MOV EAX,CR0, after which the six flags are free. -/
theorem witness_StepKeepsFlags_special :
    freeFlag 11 ∧ (∃ t, step (holding [0x0F#8, 0x20#8, 0xC0#8] start) = .next t) ∧
      (decodeNext (holding [0x0F#8, 0x20#8, 0xC0#8] start)).isSpecialMove = true :=
  ⟨by unfold freeFlag; decide, next_of_isNext (by decide), by decide⟩

theorem witness_OnlyLoadOfSsInhibits :
    ∃ t, exec (.movSregRm16 (.valid .ss (.reg 0#3))) start = .next t ∧ start.inhibit = false ∧ t.inhibit = true :=
  ⟨_, rfl, rfl, rfl⟩

/-- The same as a step, with an interrupt presented at its boundary. -/
theorem witness_OnlyLoadOfSsInhibits_step :
    seen (·.inhibit) (run [0x8E#8, 0xD0#8] (arriving (interruptible start))) = some true ∧
      (interruptible start).inhibit = false := by decide

theorem witness_CanonicalMemoryIsUnique :
    Memory.wf [(0, 1#8), (4294967295, 2#8)] = true ∧ Memory.wf [(4294967296, 2#8)] = false := by decide

/-- The clauses meet between registers 3 and 4. -/
theorem witness_RegisterAliasing : (3#3 : RegNum).toNat < 4 ∧ 4 ≤ (4#3 : RegNum).toNat := by decide

theorem witness_ByteOrderIsLittleEndian : start.mem.wf = true ∧ 4 ≤ 4 ∧ 1 < 2 ∧ 3 < 4 := by decide

/-- A word read at the last byte a doubleword write reached: its byte 0 was written, its byte 1 was not. -/
theorem witness_NarrowReadAfterWideWrite :
    start.mem.wf = true ∧ 4 ≤ 4 ∧ 2 ≤ 4 ∧ 0 < 2 ∧ 1 < 2 ∧
      physAddr start.cfg (0x103#32 + BitVec.ofNat 32 0) = physAddr start.cfg (0x100#32 + BitVec.ofNat 32 3) ∧
      ∀ k < 4, physAddr start.cfg (0x103#32 + BitVec.ofNat 32 1) ≠ physAddr start.cfg (0x100#32 + BitVec.ofNat 32 k) := by
  decide

/-- A displacement of each width, at the ends. -/
theorem witness_EffectiveAddress16 :
    (0x80#8 : Byte).toInt = -128 ∧ (0x7F#8 : Byte).toInt = 127 ∧ (0xFFFF#16 : BitVec 16).toNat = 65535 := by decide

theorem witness_EffectiveAddress32 :
    (0x80#8 : Byte).toInt = -128 ∧ (0x7F#8 : Byte).toInt = 127 ∧ (0xFFFFFFFF#32 : Word).toNat = 4294967295 := by decide

theorem witness_DefaultSegment :
    (prefixed ⟨false, false, some .gs, false, false, 1⟩ start).pfx.seg = some .gs ∧ start.pfx.seg = none := by decide

/-- Both settings of `a20_mask`, and a segment register beside the one loaded. -/
theorem witness_SegmentTimesSixteenPlusOffset :
    start.cfg.a20Mask = false ∧ ({ start.cfg with a20Mask := true } : Config).a20Mask = true ∧ SReg.fs ≠ SReg.gs := by
  decide

/-- The last byte, word and doubleword of the data segment. -/
theorem witness_operand_memory :
    start.mem.wf = true ∧ OperandWritable .b (.mem (.direct16 0xFFFF#16)) start ∧
      OperandWritable .w (.mem (.direct16 0xFFFE#16)) start ∧ OperandWritable .d (.mem (.direct16 0xFFFC#16)) start ∧
      OperandReadable .d (.mem (.direct16 0xFFFC#16)) start := by
  unfold OperandWritable OperandReadable CanWrite CanRead; decide

/-- A register operand. -/
theorem witness_operand_register :
    OperandWritable .d (.reg 7#3) start ∧ OperandReadable .d (.reg 7#3) start := ⟨trivial, trivial⟩

/-- MOV r/m16,sreg and MOV sreg,r/m16 at the last word of the segment, and on a register. -/
theorem witness_MovSegment :
    start.mem.wf = true ∧ start.cfg.sregForms = true ∧ SReg.ss ≠ SReg.cs ∧
      OperandWritable .w (.mem (.direct16 0xFFFE#16)) start ∧ OperandReadable .w (.mem (.direct16 0xFFFE#16)) start ∧
      OperandWritable .w (.reg 0#3) start ∧ OperandReadable .w (.reg 0#3) start := by
  unfold OperandWritable OperandReadable CanWrite CanRead; decide

/-- The last doubleword of the segment, at both widths of the offset, and the direct operand of the same offset. -/
theorem witness_MovOffset :
    start.mem.wf = true ∧ start.cfg.moffsForms = true ∧
      CanRead start (moffsSeg start) (moffsOffset (.m16 0xFFFC#16)) 4 ∧
      CanRead start (moffsSeg start) (moffsOffset (.m16 0xFFFF#16)) 1 ∧
      CanWrite start (moffsSeg start) (moffsOffset (.m32 0xFFFC#32)) 4 ∧
      ∃ w, Moffs.m16 0xFFFC#16 = .m16 w ∧ MemOp.direct16 0xFFFC#16 = .direct16 w :=
  ⟨by decide, rfl, by unfold CanRead; decide, by unfold CanRead; decide, by unfold CanWrite CanRead; decide, _, rfl, rfl⟩

/-- One byte further, in each group of forms. -/
theorem witness_AccessBeyondLimitRaises :
    start.cfg.sregForms = true ∧ start.cfg.moffsForms = true ∧ AccessesMemory (.movRRm .o32 0#3 (.mem (.direct16 0xFFFD#16))) (.direct16 0xFFFD#16) 4 ∧
      AccessesSelector (.movSregRm16 (.valid .ss (.mem (.direct16 0xFFFF#16)))) (.direct16 0xFFFF#16) ∧
      AccessesMoffs (.movMoffsAx .o16 (.m16 0xFFFF#16)) (.m16 0xFFFF#16) 2 ∧
      (effAddr start.gpr (.direct16 0xFFFD#16)).toNat + 3 > (readSeg start.seg .ds).limit.toNat ∧
      (effAddr start.gpr (.direct16 0xFFFF#16)).toNat + 1 > (readSeg start.seg .ds).limit.toNat ∧
      (moffsOffset (.m16 0xFFFF#16)).toNat + 1 > (readSeg start.seg .ds).limit.toNat :=
  ⟨rfl, rfl, .movRRm .o32 _ 0#3, .load .ss _ (by decide), .storeAx .o16 _, by decide, by decide, by decide⟩

/-- The program text is the one byte 10003h, the last a doubleword stored at 10000h reaches. -/
theorem witness_StoreIntoProgramTextRefused :
    StoresAt { start with cfg := { start.cfg with programText := [⟨0x10003, 1⟩] } }
        (.movRmR .o32 (.mem (.direct16 0#16)) 0#3) .ds 0#32 4 ∧ 3 < 4 ∧
      (0#32 : Word).toNat + (4 - 1) ≤ (readSeg start.seg .ds).limit.toNat ∧
      isProgramText { start.cfg with programText := [⟨0x10003, 1⟩] }
        (physAddr start.cfg (linear start .ds 0#32 + BitVec.ofNat 32 3)) = true :=
  ⟨.movRmR .o32 (.direct16 0#16) 0#3, by decide, by decide, by decide⟩

/-- MOV BH,BL with the entry off and its two bytes as the program text, at 100h in CS, to its end at 102h. An NMI is
presented at that boundary. -/
def oneMove : State :=
  holding [0x8A#8, 0xFB#8] (regs 0#32 0#32 0x78#32 0#32 0#32 0#32 0#32
    { start with
      arrivals := [⟨true, none⟩]
      cfg := { start.cfg with
        modelTrapEntry := false, endIp := some 0x102#32
        programText := [⟨codeAddr start (fetchOffset start), 2⟩] } })

/-- The state it ends in: BH is written, and the NMI is still to come (R253). -/
def oneMoved : State := { oneMove with gpr := { oneMove.gpr with ebx := 0x7878#32 }, ip := 0x102#32 }

/-- Its run is over when its one instruction completes. -/
theorem oneMove_ends : runInstruction oneMove = .next oneMoved ∧ runOver oneMove oneMoved := ⟨rfl, rfl, rfl, rfl⟩

/-- Only its two bytes are fetched. -/
theorem oneMove_fetches {p : Nat} (h : Fetches oneMove p) : isProgramText oneMove.cfg p = true := by
  obtain ⟨k, hk, ht, rfl⟩ := h
  have : ∀ k < 15, decode oneMove.pfx ((fetchBytes oneMove).1.take k) = .truncated → k < 2 := by decide
  have h2 : ∀ k < 2, isProgramText oneMove.cfg (codeAddr oneMove (fetchOffset oneMove + k)) = true := by decide
  exact h2 k (this k hk ht)

/-- The one-instruction run meets the launch premises, P6 among them, and is safe (R56, R253), although an NMI is
presented at its last boundary. It meets the hypotheses of StoreIntoProgramTextRefused too. -/
theorem test_safe_run :
    SafeRun oneMove oneMoved ∧ oneMove.mem.wf = true ∧ oneMove.cfg.modelTrapEntry = false := by
  have hs : ∀ {s n}, Run oneMove n s → s = oneMove := fun h =>
    h.of_not_goesOn fun g => g.completed _ oneMove_ends.1 oneMove_ends.2
  refine ⟨⟨⟨⟨rfl, rfl, fun j => by cases j <;> rfl, rfl, rfl, rfl⟩, rfl, ⟨?_, ?_⟩, rfl⟩, ?_⟩, by decide, rfl⟩
  · rintro s p ⟨⟨n, h⟩, -, hf, -⟩
    cases hs h
    exact oneMove_fetches hf
  · rintro s p ⟨⟨n, h⟩, -, -, -⟩
    cases hs h
    rfl
  · exact .completed .start (fun h => absurd h.2.1 (by decide)) oneMove_ends.1 oneMove_ends.2

theorem witness_FormNotAdmittedRefused :
    ({ Config.atReset with sregForms := false } : Config).sregForms = false ∧
      ({ Config.atReset with moffsForms := false } : Config).moffsForms = false ∧
      ({ Config.atReset with specialForms := false } : Config).specialForms = false := by decide

/-- The late stepping accepts every `mod`, the early one 11b. -/
theorem witness_SpecialOn : SpecialOn 0#2 start ∧ SpecialOn 3#2 (early start) := ⟨⟨rfl, .inr rfl⟩, rfl, .inl rfl⟩

/-- On the early stepping: a CR0 that leaves CD as it is, one that changes it, one with PE and one with PG. -/
theorem witness_Cr0Writes :
    SpecialOn 3#2 (early start) ∧ (early start).cfg.stepping = .early ∧
      (0x60000010#32 : Word).getLsbD 0 = false ∧ (0x60000010#32 : Word).getLsbD 31 = false ∧
      (0x60000010#32 : Word).getLsbD 30 = (early start).ctl.cr0.getLsbD 30 ∧
      (0x20000010#32 : Word).getLsbD 30 ≠ (early start).ctl.cr0.getLsbD 30 ∧
      (0x60000011#32 : Word).getLsbD 0 = true ∧ (0xE0000010#32 : Word).getLsbD 31 = true :=
  ⟨⟨rfl, .inl rfl⟩, by decide⟩

/-- In EBX, register 3: the last value of DR7 that enables nothing, and the first that does. -/
theorem witness_DebugRegisterWrites :
    SpecialOn 3#2 start ∧ start.cfg.stepping = .late ∧
      (readGpr (regs 0#32 0#32 0xFFFFFF00#32 0#32 0#32 0#32 0#32 start).gpr 3#3).toNat % 256 = 0 ∧
      (readGpr (regs 0#32 0#32 0xFFFFFF01#32 0#32 0#32 0#32 0#32 start).gpr 3#3).toNat % 256 ≠ 0 :=
  ⟨⟨rfl, .inl rfl⟩, by decide⟩

/-- TR2 does not exist and TR3 does; CR3 exists and CR4 does not. -/
theorem witness_RegisterNumbers :
    (2#3 : BitVec 3).toNat ≤ 2 ∧ 3 ≤ (3#3 : BitVec 3).toNat ∧ 4 ≤ (4#3 : BitVec 3).toNat ∧ ¬4 ≤ (3#3 : BitVec 3).toNat := by
  decide

/-- For SpecialMoveModField and DebugRegisterFourAndFive: both steppings, with the forms admitted. -/
theorem witness_SpecialMoveModField :
    Instr.movRDr ∈ [Instr.movRDr, Instr.movDrR] ∧ (early start).cfg.specialForms = true ∧
      (early start).cfg.stepping = .early ∧ start.cfg.specialForms = true ∧ start.cfg.stepping = .late ∧
      (2#2 : BitVec 2) ≠ 3#2 :=
  ⟨.head _, by decide⟩

/-- A stack, for the entries. -/
def stacked : State := regs 0#32 0#32 0#32 0x1000#32 0#32 0#32 0#32 (interruptible start)

/-- Every vector whose table entry is within the limit can be entered with it. -/
theorem canEnter_stacked {v : Byte} (h : 4 * v.toNat + 3 ≤ stacked.sys.idtr.limit.toNat)
    (ht : ∀ b < 4, isMapped stacked.cfg (physAddr stacked.cfg (tableAddr stacked v + BitVec.ofNat 32 b)) = true) :
    CanEnter v stacked := by
  refine ⟨rfl, h, ?_, ?_, ht⟩ <;> rintro k (rfl | rfl | rfl) <;> decide

/-- The table's limit lets every vector up to FFh in. -/
theorem witness_CanEnter :
    stacked.mem.wf = true ∧ CanEnter 6#8 stacked ∧ CanEnter 13#8 stacked ∧ CanEnter 3#8 stacked ∧
      CanEnter 0xFF#8 stacked ∧ stacked.cfg.sregForms = true :=
  ⟨by decide, canEnter_stacked (by decide) (by decide), canEnter_stacked (by decide) (by decide),
    canEnter_stacked (by decide) (by decide), canEnter_stacked (by decide) (by decide), rfl⟩

/-- SP with a value. -/
def spAt (v : Word) : State := { stacked with gpr := writeGpr stacked.gpr 4#3 v }

/-- A table too short by one byte; and the first, the second and the third push at the last byte of the stack segment,
with a maskable interrupt that would be accepted, or with flag T set. -/
theorem witness_NestedExceptionRefused :
    stacked.cfg.modelTrapEntry = true ∧ 4 * (vectorOf .invalidOpcode).toNat + 3 > (26#16 : BitVec 16).toNat ∧
      EntryRaises 6#8 (spAt 1#32) ∧ EntryRaises 6#8 (spAt 3#32) ∧ EntryRaises 6#8 (spAt 5#32) ∧
      ¬EntryRaises 6#8 (spAt 6#32) ∧ (spAt 5#32).pfx = Prefixes.none ∧
      (spAt 5#32).inhibit = false ∧ (arrive (arriving (spAt 5#32))).nmiPending = false ∧
      (arrive (arriving (spAt 5#32))).intrPending = some 0x40#8 ∧
      (arrive { spAt 5#32 with nmiPending := true }).nmiPending = true ∧ flagI (spAt 5#32).flags = true ∧
      flagT (0x0102#32 : Word) = true := by
  unfold EntryRaises PushFits PushBeyond; decide

theorem witness_TerminalFaults :
    exec .breakpoint (terminal start) = .fault (.exception .breakpoint 0x101#32) ∧
      exec (.ltr 3#2 0#3) (terminal start) = .fault (.exception .invalidOpcode 0x100#32) ∧
      (terminal start).cfg.modelTrapEntry = false := ⟨rfl, rfl, rfl⟩

theorem witness_NoInterruptAfterLoadOfSs :
    start.cfg.sregForms = true ∧ OperandReadable .w (.reg 0#3) start ∧ flagT start.flags = false := ⟨rfl, trivial, rfl⟩

/-- Pending or presented with I = 1, pending with I = 0, an NMI, alone or beside it, and none. -/
theorem witness_InterruptAcceptance :
    stacked.pfx = Prefixes.none ∧ stacked.inhibit = false ∧ stacked.mem.wf = true ∧
      (arrive { stacked with intrPending := some 0x40#8 }).intrPending = some 0x40#8 ∧
      (arrive (arriving stacked)).intrPending = some 0x40#8 ∧ (arrive (arriving stacked)).nmiPending = false ∧
      flagI stacked.flags = true ∧ flagI start.flags = false ∧
      (arrive { stacked with nmiPending := true }).nmiPending = true ∧ (arrive stacked).intrPending = none ∧
      CanEnter 0x40#8 stacked ∧ CanEnter 2#8 stacked :=
  ⟨rfl, rfl, by decide, rfl, rfl, rfl, rfl, rfl, rfl, rfl, canEnter_stacked (by decide) (by decide),
    canEnter_stacked (by decide) (by decide)⟩

theorem witness_ArrivalsBecomePending :
    start.arrivals = [] ∧ (arriving start).arrivals = ⟨false, some 0x40#8⟩ :: [] := ⟨rfl, rfl⟩

/-- MOV BH,BL with flag T set. -/
theorem witness_SingleStepTrapAfterInstruction :
    ∃ t, exec (.movR8Rm8 7#3 (.reg 3#3)) { stacked with flags := 0x0102#32 } = .next t ∧ t.pfx.count = 0 ∧
      flagT t.flags = true ∧ t.mem.wf = true ∧ CanEnter 1#8 t := by
  refine ⟨_, rfl, rfl, rfl, by decide, rfl, by decide, ?_, ?_, by decide⟩
  · rintro k (rfl | rfl | rfl) <;> decide
  · rintro k (rfl | rfl | rfl) <;> decide

end Sys2Proof.Tests
end

/-! # The invariants of a step

Everything a step can do is said by `step_effect`: an instruction's `Effect`, then a `BoundaryEffect`. Each invariant is
a lemma over the two, and the entry of a handler, which both can end in, has one of its own. -/

namespace Sys2Proof.Proofs

open Sys2Proof.Machine
open Sys2Proof.Claims

/-! ## Real mode -/

/-- A value of CR0 that sets neither PE nor PG has both bits clear. -/
theorem setsPeOrPg_eq_false {v : Word} : setsPeOrPg v = false ↔ v.getLsbD 0 = false ∧ v.getLsbD 31 = false := by
  simp [setsPeOrPg]

/-- A value of DR7 that enables no breakpoint has bits 7:0 clear. -/
theorem enablesBreakpoint_eq_false {v : Word} : enablesBreakpoint v = false ↔ v.extractLsb' 0 8 = 0#8 := by
  simp [enablesBreakpoint]

/-- Real mode rests on CR0, DR7, the limits of the segment registers, and flags T and VM alone. -/
theorem realMode_of_same {s t : State} (hr : RealMode s) (hc : t.ctl.cr0 = s.ctl.cr0) (hd : t.dbg.dr7 = s.dbg.dr7)
    (hl : ∀ j, (readSeg t.seg j).limit = (readSeg s.seg j).limit) (hf : t.flags = s.flags) : RealMode t where
  noPe := hc ▸ hr.noPe
  noPg := hc ▸ hr.noPg
  limits j := (hl j).trans (hr.limits j)
  noT := hf ▸ hr.noT
  noVm := hf ▸ hr.noVm
  noBreakpoint := hd ▸ hr.noBreakpoint

/-- An entry clears flag T. -/
theorem flagT_clearIT (f : Word) : flagT (clearIT f) = false := by
  rw [flagT, getLsbD_clearIT]
  simp

/-- An entry keeps flag VM. -/
theorem flagVM_clearIT (f : Word) : flagVM (clearIT f) = flagVM f := by
  rw [flagVM, flagVM, getLsbD_clearIT]
  simp

/-- A special-register move keeps flag T. -/
theorem flagT_setOSZAPC (f v : Word) : flagT (setOSZAPC f v) = flagT f := getLsbD_setOSZAPC f v 8

/-- A special-register move keeps flag VM. -/
theorem flagVM_setOSZAPC (f v : Word) : flagVM (setOSZAPC f v) = flagVM f := getLsbD_setOSZAPC f v 17

/-- The entry of a handler keeps real mode: it clears I and T and loads CS, whose limit stays. -/
theorem enterHandler_realMode {v : Byte} {ip : Word} {s t : State} (h : enterHandler v ip s = .ok t)
    (hr : RealMode s) : RealMode t := by
  obtain ⟨g, m, cs, ip', rfl, -⟩ := enterHandler_ok h
  exact {
    noPe := hr.noPe
    noPg := hr.noPg
    limits := fun j => (limit_loadSeg .cs j cs s).trans (hr.limits j)
    noT := flagT_clearIT s.flags
    noVm := (flagVM_clearIT s.flags).trans hr.noVm
    noBreakpoint := hr.noBreakpoint }

/-- An instruction keeps real mode: a special-register move that would leave it is refused. -/
theorem effect_realMode {sp : Bool} {s t : State} (h : Effect sp s t) (hr : RealMode s) : RealMode t := by
  cases h with
  | recorded | moved => exact realMode_of_same hr rfl rfl (fun _ => rfl) rfl
  | segLoaded len sr v => exact realMode_of_same hr rfl rfl (fun j => limit_loadSeg sr j v s) rfl
  | special g c d n _ hc hd =>
    have hpe : c.cr0.getLsbD 0 = false ∧ c.cr0.getLsbD 31 = false := by
      rcases hc with hc | hc
      · exact hc ▸ ⟨hr.noPe, hr.noPg⟩
      · exact setsPeOrPg_eq_false.1 hc
    have hdr : d.dr7.extractLsb' 0 8 = 0#8 := by
      rcases hd with hd | hd
      · exact hd ▸ hr.noBreakpoint
      · exact enablesBreakpoint_eq_false.1 hd
    exact {
      noPe := hpe.1
      noPg := hpe.2
      limits := hr.limits
      noT := (flagT_setOSZAPC s.flags _).trans hr.noT
      noVm := (flagVM_setOSZAPC s.flags _).trans hr.noVm
      noBreakpoint := hdr }
  | entered v ip s0 t _ h0 h =>
    have hr0 : RealMode s0 := by
      rcases h0 with rfl | rfl <;> exact realMode_of_same hr rfl rfl (fun _ => rfl) rfl
    exact enterHandler_realMode h hr0

/-- The instruction boundary keeps real mode. -/
theorem boundaryEffect_realMode {u t : State} (h : BoundaryEffect u t) (hr : RealMode u) : RealMode t := by
  cases h with
  | within => exact hr
  | waited => exact realMode_of_same hr (by simp) (by simp) (by simp) (by simp)
  | accepted v ip n w x k t _ h =>
    exact enterHandler_realMode h (realMode_of_same hr (by simp) (by simp) (by simp) (by simp))

/-- Settles O13: real mode and canonical memory are kept by the instruction and by its boundary. -/
theorem stepKeepsRealMode : Obligations.StepKeepsRealMode := by
  unfold Obligations.StepKeepsRealMode
  intro s t hr hw h
  obtain ⟨-, u, he, hb⟩ := step_effect h
  exact ⟨boundaryEffect_realMode hb (effect_realMode he hr), boundaryEffect_wf hb (effect_wf he hw)⟩

/-- The first step from reset finds the byte 00h, which the spec does not have (log 12). -/
theorem runInstruction_reset : runInstruction State.reset = .refused .opcodeNotInSpec := rfl

/-- No byte is executed from reset: the run never leaves its launch state, and its step there is refused. -/
theorem not_executes_reset {s : State} {p : Nat} : ¬Executes State.reset s p := by
  rintro ⟨⟨n, hn⟩, -, -, hnot⟩
  have hstep : step State.reset = .refused .opcodeNotInSpec := by
    rw [step, runInstruction_reset]; rfl
  cases hn.of_refused hstep
  exact hnot _ runInstruction_reset

/-- The reset state is one of real mode (R55). -/
theorem realMode_reset : RealMode State.reset :=
  ⟨rfl, rfl, fun j => by cases j <;> rfl, rfl, rfl, rfl⟩

/-- Settles O14: the values of R55, and P6 because nothing is executed. -/
theorem resetMeetsLaunchPremises : Obligations.ResetMeetsLaunchPremises := by
  unfold Obligations.ResetMeetsLaunchPremises
  refine ⟨?_, rfl⟩
  exact {
    realMode := realMode_reset
    inhibit := rfl
    nothingStale := ⟨fun _ _ h => absurd h not_executes_reset, fun _ _ h => absurd h not_executes_reset⟩
    boundary := rfl }

/-! ## What no step changes -/

/-- The state that no step changes: the system registers, the test registers, the ports and the parameters. -/
structure FixedSame (s t : State) : Prop where
  sys : t.sys = s.sys
  test : t.test = s.test
  ports : t.ports = s.ports
  cfg : t.cfg = s.cfg

/-- The entry of a handler changes none of it. -/
theorem enterHandler_fixedSame {v : Byte} {ip : Word} {s t : State} (h : enterHandler v ip s = .ok t) :
    FixedSame s t := by
  obtain ⟨g, m, cs, ip', rfl, -⟩ := enterHandler_ok h
  exact ⟨rfl, rfl, rfl, rfl⟩

/-- An instruction changes none of it: a write of a test register is refused (R193). -/
theorem effect_fixedSame {sp : Bool} {s t : State} (h : Effect sp s t) : FixedSame s t := by
  cases h with
  | recorded | moved | segLoaded | special => exact ⟨rfl, rfl, rfl, rfl⟩
  | entered v ip s0 t _ h0 h =>
    obtain ⟨hsys, htest, hports, hcfg⟩ := enterHandler_fixedSame h
    rcases h0 with rfl | rfl <;> exact ⟨hsys, htest, hports, hcfg⟩

/-- The instruction boundary changes none of it. -/
theorem boundaryEffect_fixedSame {u t : State} (h : BoundaryEffect u t) : FixedSame u t := by
  cases h with
  | within => exact ⟨rfl, rfl, rfl, rfl⟩
  | waited => exact ⟨by simp, by simp, by simp, by simp⟩
  | accepted v ip n w x k t _ h =>
    obtain ⟨hsys, htest, hports, hcfg⟩ := enterHandler_fixedSame h
    exact ⟨by simpa using hsys, by simpa using htest, by simpa using hports, by simpa using hcfg⟩

/-- Settles O16: neither the instruction nor its boundary changes any of it. -/
theorem stepKeepsSystemRegisters : Obligations.StepKeepsSystemRegisters := by
  unfold Obligations.StepKeepsSystemRegisters
  intro s t h
  obtain ⟨-, u, he, hb⟩ := step_effect h
  have hu := effect_fixedSame he
  have ht := boundaryEffect_fixedSame hb
  have hsys : t.sys = s.sys := ht.sys.trans hu.sys
  exact ⟨by rw [hsys], by rw [hsys], by rw [hsys], by rw [hsys], ht.test.trans hu.test, ht.ports.trans hu.ports,
    ht.cfg.trans hu.cfg⟩

/-! ## The flags -/

/-- A bit after an entry: as before, or flag I or T and now clear (R223). -/
theorem getLsbD_clearIT_cases (f : Word) (b : Nat) :
    (clearIT f).getLsbD b = f.getLsbD b ∨ ((b = 8 ∨ b = 9) ∧ (clearIT f).getLsbD b = false) := by
  rw [getLsbD_clearIT]
  by_cases hb : b = 8 ∨ b = 9
  · exact .inr ⟨hb, by rcases hb with rfl | rfl <;> simp⟩
  · rw [not_or] at hb
    exact .inl (by simp [hb.1, hb.2])

/-- The entry of a handler writes the flags by clearing I and T. -/
theorem enterHandler_flags {v : Byte} {ip : Word} {s t : State} (h : enterHandler v ip s = .ok t) :
    t.flags = clearIT s.flags := by
  obtain ⟨g, m, cs, ip', rfl, -⟩ := enterHandler_ok h
  rfl

/-- A bit of the flags after an instruction: as before, or flag I or T and now clear, or one that a special-register
move leaves free (R187). -/
theorem effect_flag_cases {sp : Bool} {s t : State} (h : Effect sp s t) (b : Nat) :
    t.flags.getLsbD b = s.flags.getLsbD b ∨ ((b = 8 ∨ b = 9) ∧ t.flags.getLsbD b = false) ∨
      (freeFlag b ∧ sp = true) := by
  cases h with
  | recorded | moved | segLoaded => exact .inl rfl
  | special g c d n hsp =>
    by_cases hb : freeFlag b
    · exact .inr (.inr ⟨hb, hsp⟩)
    · exact .inl ((getLsbD_setOSZAPC _ _ b).trans (if_neg hb))
  | entered v ip s0 t _ h0 h =>
    have hf : t.flags = clearIT s.flags := by
      rcases h0 with rfl | rfl <;> simpa using enterHandler_flags h
    rcases getLsbD_clearIT_cases s.flags b with hb | hb
    · exact .inl (hf ▸ hb)
    · exact .inr (.inl (hf ▸ hb))

/-- A bit of the flags after the boundary: as before, or flag I or T and now clear. -/
theorem boundaryEffect_flag_cases {u t : State} (h : BoundaryEffect u t) (b : Nat) :
    t.flags.getLsbD b = u.flags.getLsbD b ∨ ((b = 8 ∨ b = 9) ∧ t.flags.getLsbD b = false) := by
  cases h with
  | within => exact .inl rfl
  | waited => exact .inl (by simp)
  | accepted v ip n w x k t _ h =>
    have hf : t.flags = clearIT u.flags := by simpa using enterHandler_flags h
    exact hf ▸ getLsbD_clearIT_cases u.flags b

/-- Flags I and T are not among the free ones. -/
theorem not_freeFlag_of_IT {b : Nat} (h : b = 8 ∨ b = 9) : ¬freeFlag b := by
  rcases h with rfl | rfl <;> simp [freeFlag]

/-- A decoded special-register move is one of an instruction. -/
theorem exists_of_isSpecialMove {d : Decoded} (h : d.isSpecialMove = true) :
    ∃ i rest, d = .instr i rest ∧ i.isSpecialMove = true := by
  cases d with
  | instr i rest => exact ⟨i, rest, rfl, h⟩
  | truncated | invalidOpcode | refused => cases h

/-- A bit of the flags after a step: as before, or flag I or T and now clear, or one that the special-register move
which was decoded leaves free. -/
theorem step_flag_cases {s t : State} (h : step s = .next t) (b : Nat) :
    t.flags.getLsbD b = s.flags.getLsbD b ∨ ((b = 8 ∨ b = 9) ∧ t.flags.getLsbD b = false) ∨
      (freeFlag b ∧ (decodeNext s).isSpecialMove = true) := by
  obtain ⟨-, u, he, hb⟩ := step_effect h
  rcases boundaryEffect_flag_cases hb b with htu | hclear
  · rw [htu]
    exact effect_flag_cases he b
  · exact .inr (.inl hclear)

/-- Settles O17. -/
theorem stepNeverSetsInterruptOrTrapFlag : Obligations.StepNeverSetsInterruptOrTrapFlag := by
  unfold Obligations.StepNeverSetsInterruptOrTrapFlag
  intro s t h b
  rcases step_flag_cases h b with hsame | hclear | ⟨hfree, hsp⟩
  · exact ⟨fun _ => .inl hsame, fun _ hne => absurd hsame hne⟩
  · exact ⟨fun _ => .inr hclear, fun hb => absurd hb (not_freeFlag_of_IT hclear.1)⟩
  · exact ⟨fun hb => absurd hfree hb, fun _ _ => exists_of_isSpecialMove hsp⟩

/-! ## The inhibition after a load of SS -/

/-- A fault leaves the inhibition as it was (log 9). -/
theorem raiseFault_inhibit {e : Exc} {s t : State} (h : raiseFault e s = .next t) : t.inhibit = s.inhibit := by
  obtain ⟨g, m, cs, ip', rfl, -⟩ := enterHandler_ok (takeException_eq_next.1 h).2
  rfl

/-- The breakpoint instruction completes before its trap, and inhibits nothing. -/
theorem execBreakpoint_inhibit {s t : State} (h : execBreakpoint s = .next t) : t.inhibit = false := by
  obtain ⟨g, m, cs, ip', rfl, -⟩ := enterHandler_ok (takeException_eq_next.1 h).2
  rfl

/-- A recorded prefix leaves the inhibition as it was. -/
theorem recordPrefix_inhibit {p : Prefixes} {s t : State} (h : recordPrefix p s = .next t) :
    t.inhibit = s.inhibit := by
  simp only [recordPrefix, Host.Outcome.next.injEq] at h
  rw [← h]

/-- A recorded segment override leaves the inhibition as it was. -/
theorem recordSegment_inhibit {j : SReg} {s t : State} (h : recordSegment j s = .next t) :
    t.inhibit = s.inhibit := by
  unfold recordSegment at h
  split at h
  · exact recordPrefix_inhibit h
  · split at h
    · exact recordPrefix_inhibit h
    · cases h

/-- An instruction that completes or faults inhibits nothing new. -/
theorem finish_inhibit {len : Nat} {s t : State} {r : Result State} (h : finish len s r = .next t)
    (hs : s.inhibit = false) : t.inhibit = false := by
  rcases finish_next h with ⟨s', -, rfl⟩ | ⟨e, -, hf⟩
  · rfl
  · rw [raiseFault_inhibit hf, hs]

/-- A special-register move inhibits nothing. -/
theorem completeSpecial_inhibit {s t : State} (h : completeSpecial s = .next t) : t.inhibit = false := by
  simp only [completeSpecial, Host.Outcome.next.injEq] at h
  rw [← h]
  rfl

/-- The guard of the special-register moves adds only a fault, which leaves the inhibition as it was. -/
theorem guardSpecial_inhibit {md : BitVec 2} {s t : State} {o : Outcome} (h : guardSpecial md s o = .next t)
    (hs : s.inhibit = false) (ho : o = .next t → t.inhibit = false) : t.inhibit = false := by
  rcases guardSpecial_next h with h | h
  · exact ho h
  · rw [raiseFault_inhibit h, hs]

/-- A load of a segment register inhibits interrupts only if it is one of SS (R182). -/
theorem finishSegLoad_inhibit {len : Nat} {sr : SReg} {s t : State} {r : Result Word}
    (h : finishSegLoad len sr s r = .next t) (hs : s.inhibit = false) : t.inhibit = false ∨ sr = .ss := by
  unfold finishSegLoad at h
  split at h
  · simp only [Host.Outcome.next.injEq] at h
    rw [← h, completeWith_inhibit]
    by_cases hss : sr = .ss
    · exact .inr hss
    · exact .inl (by simp [hss])
  · exact .inl ((raiseFault_inhibit h).trans hs)
  · cases h

/-- No instruction but a load of SS inhibits interrupts that were not inhibited (R48). -/
theorem exec_inhibit {i : Instr} {s t : State} (h : exec i s = .next t) (hs : s.inhibit = false) :
    t.inhibit = false ∨ ∃ rm, i = .movSregRm16 (.valid .ss rm) := by
  cases i with
  | prefixOperandSize | prefixAddressSize | prefixLock | prefixRepne | prefixRep =>
    exact .inl ((recordPrefix_inhibit h).trans hs)
  | prefixEs | prefixCs | prefixSs | prefixDs | prefixFs | prefixGs =>
    exact .inl ((recordSegment_inhibit h).trans hs)
  | movRm8R8 | movRmR | movR8Rm8 | movRRm | movRm8Imm8 | movRmImm => exact .inl (finish_inhibit h hs)
  | movR8Imm8 reg imm | movRImm reg imm =>
    simp only [exec, execMovR8Imm8, execMovRImm] at h
    exact .inl (finish_inhibit h hs)
  | movRm16Sreg sz ops =>
    simp only [exec, execMovRm16Sreg] at h
    split at h
    · split at h
      · exact .inl ((raiseFault_inhibit h).trans hs)
      · exact .inl (finish_inhibit h hs)
    · cases h
  | movSregRm16 ops =>
    simp only [exec, execMovSregRm16] at h
    split at h
    · split at h
      · exact .inl ((raiseFault_inhibit h).trans hs)
      · split at h
        · exact .inl ((raiseFault_inhibit h).trans hs)
        · rcases finishSegLoad_inhibit h hs with ht | rfl
          · exact .inl ht
          · exact .inr ⟨_, rfl⟩
    · cases h
  | movAlMoffs a | movAxMoffs sz a =>
    simp only [exec, execMovAlMoffs, execMovAxMoffs, loadMoffs] at h
    split at h
    · exact .inl (finish_inhibit h hs)
    · cases h
  | movMoffsAl a | movMoffsAx sz a =>
    simp only [exec, execMovMoffsAl, execMovMoffsAx, storeMoffs] at h
    split at h
    · exact .inl (finish_inhibit h hs)
    · cases h
  | reservedC6 | reservedC7 | ltr => exact .inl ((raiseFault_inhibit h).trans hs)
  | breakpoint => exact .inl (execBreakpoint_inhibit h)
  | movRCr md n reg =>
    refine .inl (guardSpecial_inhibit h hs fun h => ?_)
    split at h
    · exact (raiseFault_inhibit h).trans hs
    · exact completeSpecial_inhibit h
  | movCrR md n reg =>
    refine .inl (guardSpecial_inhibit h hs fun h => ?_)
    split at h
    · exact (raiseFault_inhibit h).trans hs
    · split at h
      · cases h
      · split at h
        · cases h
        · exact completeSpecial_inhibit h
  | movRDr md n reg =>
    refine .inl (guardSpecial_inhibit h hs fun h => ?_)
    split at h
    · exact (raiseFault_inhibit h).trans hs
    · exact completeSpecial_inhibit h
  | movDrR md n reg =>
    refine .inl (guardSpecial_inhibit h hs fun h => ?_)
    split at h
    · exact (raiseFault_inhibit h).trans hs
    · split at h
      · cases h
      · exact completeSpecial_inhibit h
  | movRTr md n reg =>
    refine .inl (guardSpecial_inhibit h hs fun h => ?_)
    split at h
    · exact completeSpecial_inhibit h
    · exact (raiseFault_inhibit h).trans hs
  | movTrR md n reg =>
    refine .inl (guardSpecial_inhibit h hs fun h => ?_)
    split at h
    · cases h
    · exact (raiseFault_inhibit h).trans hs

/-- What was decoded inhibits interrupts only if it is a load of SS. -/
theorem runDecoded_inhibit {d : Decoded} {s t : State} (h : runDecoded d s = .next t) (hs : s.inhibit = false) :
    t.inhibit = false ∨ ∃ rm rest, d = .instr (.movSregRm16 (.valid .ss rm)) rest := by
  cases d with
  | instr i rest =>
    rcases exec_inhibit h hs with ht | ⟨rm, rfl⟩
    · exact .inl ht
    · exact .inr ⟨rm, rest, rfl⟩
  | truncated =>
    simp only [runDecoded, stopOutcome] at h
    split at h
    · exact .inl ((raiseFault_inhibit h).trans hs)
    · cases h
  | invalidOpcode => exact .inl ((raiseFault_inhibit h).trans hs)
  | refused r => cases h

/-- Settles O18: the boundary leaves the inhibition as the instruction left it. -/
theorem onlyLoadOfSsInhibits : Obligations.OnlyLoadOfSsInhibits := by
  unfold Obligations.OnlyLoadOfSsInhibits
  constructor
  · intro s t i h hs ht
    exact (exec_inhibit h hs).resolve_left (by simp [ht])
  · intro s t h hs ht
    obtain ⟨u, hu, hb⟩ := step_next h
    have hui : u.inhibit = true := (boundaryEffect_inhibit hb).symm.trans ht
    exact (runDecoded_inhibit (runInstruction_eq_next.1 hu).2 hs).resolve_left (by simp [hui])

end Sys2Proof.Proofs

/-! # The test registers

`withTest x s` is `s` with other test registers. Every operation of the model commutes with it: what reads the state
does not see the test registers, and what answers a state answers the same one, but for them. -/

namespace Sys2Proof.Proofs

open Sys2Proof.Machine
open Sys2Proof.Claims

/-- The state with other test registers. -/
def withTest (x : TestRegs) (s : State) : State := { s with test := x }

/-- A function goes through a choice when it goes through both branches. -/
theorem ite_eq_apply_ite {α β : Type} (f : α → β) {c c' : Prop} [Decidable c] [Decidable c'] {a b : α} {a' b' : β}
    (hc : c' ↔ c) (ha : a' = f a) (hb : b' = f b) : (if c' then a' else b') = f (if c then a else b) := by
  subst ha hb
  by_cases h : c
  · rw [if_pos h, if_pos (hc.2 h)]
  · rw [if_neg h, if_neg (mt hc.1 h)]

section
variable (x : TestRegs) (s : State)

@[simp] theorem withTest_gpr : (withTest x s).gpr = s.gpr := rfl
@[simp] theorem withTest_flags : (withTest x s).flags = s.flags := rfl
@[simp] theorem withTest_seg : (withTest x s).seg = s.seg := rfl
@[simp] theorem withTest_ctl : (withTest x s).ctl = s.ctl := rfl
@[simp] theorem withTest_sys : (withTest x s).sys = s.sys := rfl
@[simp] theorem withTest_intrPending : (withTest x s).intrPending = s.intrPending := rfl
@[simp] theorem withTest_arrivals : (withTest x s).arrivals = s.arrivals := rfl
@[simp] theorem withTest_pfx : (withTest x s).pfx = s.pfx := rfl
@[simp] theorem withTest_cfg : (withTest x s).cfg = s.cfg := rfl

/-! ## Reads -/

@[simp] theorem loadBytes_withTest (a : Word) (n : Nat) : loadBytes (withTest x s) a n = loadBytes s a n := by
  induction n generalizing a with
  | zero => rfl
  | succ n ih => rw [loadBytes, loadBytes, ih]; rfl

@[simp] theorem memRead_withTest (a : Word) (n : Nat) : memRead (withTest x s) a n = memRead s a n := by
  simp [memRead]

@[simp] theorem withinLimit_withTest (j : SReg) (off : Word) (n : Nat) :
    withinLimit (withTest x s) j off n = withinLimit s j off n := rfl

@[simp] theorem linear_withTest (j : SReg) (off : Word) : linear (withTest x s) j off = linear s j off := rfl

@[simp] theorem segRead_withTest (j : SReg) (off : Word) (n : Nat) :
    segRead (withTest x s) j off n = segRead s j off n := by
  simp [segRead]

@[simp] theorem memSeg_withTest (m : MemOp) : memSeg (withTest x s) m = memSeg s m := rfl

@[simp] theorem moffsSeg_withTest : moffsSeg (withTest x s) = moffsSeg s := rfl

@[simp] theorem readRm_withTest (sz : Size) (rm : Rm) : readRm sz rm (withTest x s) = readRm sz rm s := by
  cases rm <;> simp [readRm]

@[simp] theorem outOfScope_withTest : outOfScope (withTest x s) = outOfScope s := rfl

@[simp] theorem fetchWindow_withTest (off n : Nat) : fetchWindow (withTest x s) off n = fetchWindow s off n := by
  induction n generalizing off with
  | zero => rfl
  | succ n ih => rw [fetchWindow, fetchWindow, ih]; rfl

@[simp] theorem fetchBytes_withTest : fetchBytes (withTest x s) = fetchBytes s :=
  fetchWindow_withTest x s (fetchOffset s) (maxInstructionLength - s.pfx.count)

@[simp] theorem decodeNext_withTest : decodeNext (withTest x s) = decodeNext s := by
  simp [decodeNext]

/-! ## Parts of an instruction -/

theorem memWrite_withTest (a : Word) (n : Nat) (v : Word) :
    memWrite (withTest x s) a n v = (memWrite s a n v).map (withTest x) :=
  ite_eq_apply_ite _ Iff.rfl rfl rfl

theorem segWrite_withTest (j : SReg) (off : Word) (n : Nat) (v : Word) :
    segWrite (withTest x s) j off n v = (segWrite s j off n v).map (withTest x) :=
  ite_eq_apply_ite _ Iff.rfl (memWrite_withTest x s _ _ _) rfl

theorem dataWrite_withTest (j : SReg) (off : Word) (n : Nat) (v : Word) :
    dataWrite (withTest x s) j off n v = (dataWrite s j off n v).map (withTest x) :=
  ite_eq_apply_ite _ Iff.rfl rfl (segWrite_withTest x s _ _ _ _)

theorem writeRm_withTest (sz : Size) (rm : Rm) (v : Word) :
    writeRm sz rm v (withTest x s) = (writeRm sz rm v s).map (withTest x) := by
  cases rm with
  | reg i => rfl
  | mem m => exact dataWrite_withTest x s _ _ _ _

theorem writeSelector_withTest (sz : OpSize) (rm : Rm) (v : BitVec 16) :
    writeSelector sz rm v (withTest x s) = (writeSelector sz rm v s).map (withTest x) := by
  cases rm with
  | reg i => cases sz <;> rfl
  | mem m => exact dataWrite_withTest x s _ _ _ _

theorem loadReg_withTest (sz : Size) (i : RegNum) (r : Result Word) :
    loadReg sz i (withTest x s) r = (loadReg sz i s r).map (withTest x) := by
  cases r <;> rfl

/-! ## Exceptions -/

theorem push16_withTest (v : BitVec 16) : push16 v (withTest x s) = (push16 v s).map (withTest x) :=
  segWrite_withTest x (setX .w 4#3 _ s) _ _ _ _

theorem jumpThroughTable_withTest (v : Byte) :
    jumpThroughTable v (withTest x s) = (jumpThroughTable v s).map (withTest x) := by
  simp only [jumpThroughTable, withTest_sys, memRead_withTest]
  split
  · rfl
  · split <;> rfl

theorem enterHandler_withTest (v : Byte) (ip : Word) :
    enterHandler v ip (withTest x s) = (enterHandler v ip s).map (withTest x) := by
  refine ite_eq_apply_ite _ Iff.rfl rfl ?_
  rw [withTest_flags, push16_withTest]
  cases push16 (readFlags16 s.flags) s with
  | error e => rfl
  | ok s1 =>
    simp only [Except.map, withTest_seg, push16_withTest]
    cases push16 s1.seg.cs.sel s1 with
    | error e => rfl
    | ok s2 =>
      simp only [Except.map, push16_withTest]
      cases push16 (ip.extractLsb' 0 16) s2 with
      | error e => rfl
      | ok s3 => exact jumpThroughTable_withTest x { s3 with flags := clearIT s3.flags } v

theorem enterOutcome_withTest (v : Byte) (ip : Word) :
    enterOutcome v ip (withTest x s) = mapNext (withTest x) (enterOutcome v ip s) := by
  simp only [enterOutcome, enterHandler_withTest]
  rcases enterHandler v ip s with (e | r) | t <;> rfl

theorem takeException_withTest (e : Exc) (ip : Word) :
    takeException e ip (withTest x s) = mapNext (withTest x) (takeException e ip s) :=
  ite_eq_apply_ite _ Iff.rfl (enterOutcome_withTest x s _ _) rfl

theorem raiseFault_withTest (e : Exc) : raiseFault e (withTest x s) = mapNext (withTest x) (raiseFault e s) :=
  takeException_withTest x (endInstruction s) e s.ip

/-! ## Instructions -/

theorem finish_withTest (len : Nat) (r : Result State) :
    finish len (withTest x s) (r.map (withTest x)) = mapNext (withTest x) (finish len s r) := by
  rcases r with (e | r) | t
  · exact raiseFault_withTest x s e
  · rfl
  · rfl

theorem finishSegLoad_withTest (len : Nat) (sr : SReg) (r : Result Word) :
    finishSegLoad len sr (withTest x s) r = mapNext (withTest x) (finishSegLoad len sr s r) := by
  rcases r with (e | r) | v
  · exact raiseFault_withTest x s e
  · rfl
  · rfl

theorem recordSegment_withTest (j : SReg) :
    recordSegment j (withTest x s) = mapNext (withTest x) (recordSegment j s) := by
  unfold recordSegment
  rw [withTest_pfx]
  cases s.pfx.seg with
  | none => rfl
  | some k => exact ite_eq_apply_ite _ Iff.rfl rfl rfl

theorem loadMoffs_withTest (sz : Size) (a : Moffs) :
    loadMoffs sz a (withTest x s) = mapNext (withTest x) (loadMoffs sz a s) := by
  refine ite_eq_apply_ite _ Iff.rfl ?_ rfl
  rw [moffsSeg_withTest, segRead_withTest, loadReg_withTest, finish_withTest]

theorem storeMoffs_withTest (sz : Size) (a : Moffs) :
    storeMoffs sz a (withTest x s) = mapNext (withTest x) (storeMoffs sz a s) := by
  refine ite_eq_apply_ite _ Iff.rfl ?_ rfl
  rw [moffsSeg_withTest, withTest_gpr, dataWrite_withTest, finish_withTest]

theorem execMovRm16Sreg_withTest (sz : OpSize) (ops : SregOps) :
    execMovRm16Sreg sz ops (withTest x s) = mapNext (withTest x) (execMovRm16Sreg sz ops s) := by
  refine ite_eq_apply_ite _ Iff.rfl ?_ rfl
  cases ops with
  | invalid => exact raiseFault_withTest x s _
  | valid sr rm => simp only [withTest_seg, writeSelector_withTest, finish_withTest]

theorem execMovSregRm16_withTest (ops : SregOps) :
    execMovSregRm16 ops (withTest x s) = mapNext (withTest x) (execMovSregRm16 ops s) := by
  refine ite_eq_apply_ite _ Iff.rfl ?_ rfl
  cases ops with
  | invalid => exact raiseFault_withTest x s _
  | valid sr rm =>
    refine ite_eq_apply_ite _ Iff.rfl (raiseFault_withTest x s _) ?_
    rw [readRm_withTest, finishSegLoad_withTest]

/-- The guard of the special-register moves commutes when what it guards does. -/
theorem guardSpecial_withTest (md : BitVec 2) {o o' : Outcome} (h : o' = mapNext (withTest x) o) :
    guardSpecial md (withTest x s) o' = mapNext (withTest x) (guardSpecial md s o) :=
  ite_eq_apply_ite _ Iff.rfl (ite_eq_apply_ite _ Iff.rfl (raiseFault_withTest x s _) h) rfl

theorem execMovRCr_withTest (md : BitVec 2) (n : BitVec 3) (reg : RegNum) :
    execMovRCr md n reg (withTest x s) = mapNext (withTest x) (execMovRCr md n reg s) := by
  refine guardSpecial_withTest x s md ?_
  rw [withTest_ctl]
  cases readCr s.ctl n with
  | none => exact raiseFault_withTest x s _
  | some v => rfl

theorem execMovCrR_withTest (md : BitVec 2) (n : BitVec 3) (reg : RegNum) :
    execMovCrR md n reg (withTest x s) = mapNext (withTest x) (execMovCrR md n reg s) := by
  refine guardSpecial_withTest x s md ?_
  rw [withTest_ctl, withTest_gpr]
  cases writeCr s.ctl n (readGpr s.gpr reg) with
  | none => exact raiseFault_withTest x s _
  | some c => exact ite_eq_apply_ite _ Iff.rfl rfl (ite_eq_apply_ite _ Iff.rfl rfl rfl)

theorem execMovRDr_withTest (md : BitVec 2) (n : BitVec 3) (reg : RegNum) :
    execMovRDr md n reg (withTest x s) = mapNext (withTest x) (execMovRDr md n reg s) := by
  refine guardSpecial_withTest x s md ?_
  rw [withTest_cfg]
  cases drNumber s.cfg.stepping n with
  | none => exact raiseFault_withTest x s _
  | some k => rfl

theorem execMovDrR_withTest (md : BitVec 2) (n : BitVec 3) (reg : RegNum) :
    execMovDrR md n reg (withTest x s) = mapNext (withTest x) (execMovDrR md n reg s) := by
  refine guardSpecial_withTest x s md ?_
  rw [withTest_cfg]
  cases drNumber s.cfg.stepping n with
  | none => exact raiseFault_withTest x s _
  | some k => exact ite_eq_apply_ite _ Iff.rfl rfl rfl

/-- A move from a test register reads a free value, whatever the register holds (R192). -/
theorem execMovRTr_withTest (md : BitVec 2) (n : BitVec 3) (reg : RegNum) :
    execMovRTr md n reg (withTest x s) = mapNext (withTest x) (execMovRTr md n reg s) :=
  guardSpecial_withTest x s md (ite_eq_apply_ite _ Iff.rfl rfl (raiseFault_withTest x s _))

theorem execMovTrR_withTest (md : BitVec 2) (n : BitVec 3) (reg : RegNum) :
    execMovTrR md n reg (withTest x s) = mapNext (withTest x) (execMovTrR md n reg s) :=
  guardSpecial_withTest x s md (ite_eq_apply_ite _ Iff.rfl rfl (raiseFault_withTest x s _))

/-- Every instruction has the same outcome from a state with other test registers, but for them. -/
theorem exec_withTest (i : Instr) : exec i (withTest x s) = mapNext (withTest x) (exec i s) := by
  cases i with
  | prefixOperandSize | prefixAddressSize | prefixLock | prefixRepne | prefixRep => rfl
  | prefixEs | prefixCs | prefixSs | prefixDs | prefixFs | prefixGs => exact recordSegment_withTest x s _
  | movRm8R8 rm reg => rw [exec, exec, execMovRm8R8, withTest_gpr, writeRm_withTest, finish_withTest]; rfl
  | movRmR sz rm reg => rw [exec, exec, execMovRmR, withTest_gpr, writeRm_withTest, finish_withTest]; rfl
  | movR8Rm8 reg rm => rw [exec, exec, execMovR8Rm8, readRm_withTest, loadReg_withTest, finish_withTest]; rfl
  | movRRm sz reg rm => rw [exec, exec, execMovRRm, readRm_withTest, loadReg_withTest, finish_withTest]; rfl
  | movRm16Sreg sz ops => exact execMovRm16Sreg_withTest x s sz ops
  | movSregRm16 ops => exact execMovSregRm16_withTest x s ops
  | movAlMoffs a | movAxMoffs sz a => exact loadMoffs_withTest x s _ a
  | movMoffsAl a | movMoffsAx sz a => exact storeMoffs_withTest x s _ a
  | movR8Imm8 | movRImm => rfl
  | movRm8Imm8 rm imm => rw [exec, exec, execMovRm8Imm8, writeRm_withTest, finish_withTest]; rfl
  | movRmImm rm imm => rw [exec, exec, execMovRmImm, writeRm_withTest, finish_withTest]; rfl
  | reservedC6 | reservedC7 | ltr => exact raiseFault_withTest x s _
  | breakpoint => exact takeException_withTest x (complete 1 s) _ _
  | movRCr md n reg => exact execMovRCr_withTest x s md n reg
  | movCrR md n reg => exact execMovCrR_withTest x s md n reg
  | movRDr md n reg => exact execMovRDr_withTest x s md n reg
  | movDrR md n reg => exact execMovDrR_withTest x s md n reg
  | movRTr md n reg => exact execMovRTr_withTest x s md n reg
  | movTrR md n reg => exact execMovTrR_withTest x s md n reg

/-! ## A step -/

theorem runDecoded_withTest (d : Decoded) :
    runDecoded d (withTest x s) = mapNext (withTest x) (runDecoded d s) := by
  cases d with
  | instr i rest => exact exec_withTest x s i
  | truncated =>
    simp only [runDecoded, fetchBytes_withTest]
    cases (fetchBytes s).2 with
    | raise e => exact raiseFault_withTest x s e
    | refuse r => rfl
  | invalidOpcode => exact raiseFault_withTest x s _
  | refused r => rfl

theorem runInstruction_withTest : runInstruction (withTest x s) = mapNext (withTest x) (runInstruction s) := by
  unfold runInstruction
  rw [outOfScope_withTest, decodeNext_withTest, runDecoded_withTest]
  cases outOfScope s <;> rfl

theorem acceptInterrupt_withTest (v : Byte) :
    acceptInterrupt v (withTest x s) = mapNext (withTest x) (acceptInterrupt v s) :=
  ite_eq_apply_ite _ Iff.rfl (enterOutcome_withTest x s _ _) rfl

theorem arrive_withTest : arrive (withTest x s) = withTest x (arrive s) := by
  unfold arrive
  rw [withTest_arrivals]
  cases s.arrivals <;> rfl

theorem pollInterrupts_withTest : pollInterrupts (withTest x s) = mapNext (withTest x) (pollInterrupts s) := by
  refine ite_eq_apply_ite _ Iff.rfl (acceptInterrupt_withTest x { s with nmiPending := false } _) ?_
  rw [withTest_intrPending]
  cases s.intrPending with
  | none => rfl
  | some v => exact ite_eq_apply_ite _ Iff.rfl (acceptInterrupt_withTest x { s with intrPending := none } v) rfl

theorem singleStep_withTest : singleStep (withTest x s) = mapNext (withTest x) (singleStep s) :=
  takeException_withTest x (afterDraw { s with dbg := { s.dbg with dr6 := drawWord s } }) .debug s.ip

theorem atBoundary_withTest (b : Bool) :
    atBoundary b (withTest x s) = mapNext (withTest x) (atBoundary b s) := by
  unfold atBoundary
  rw [arrive_withTest]
  exact ite_eq_apply_ite _ Iff.rfl (singleStep_withTest x (arrive s)) (pollInterrupts_withTest x (arrive s))

theorem afterInstruction_withTest (b : Bool) (o : Outcome) :
    afterInstruction b (mapNext (withTest x) o) = mapNext (withTest x) (afterInstruction b o) := by
  cases o with
  | next t => exact ite_eq_apply_ite _ Iff.rfl (atBoundary_withTest x t b) rfl
  | fault | refused => rfl

end

/-- Settles O19: the instruction and the boundary commute with another choice of the test registers. -/
theorem testRegistersAreInvisible : Obligations.TestRegistersAreInvisible := by
  unfold Obligations.TestRegistersAreInvisible
  intro s x
  calc step (withTest x s)
      = afterInstruction (flagT s.flags) (runInstruction (withTest x s)) := rfl
    _ = afterInstruction (flagT s.flags) (mapNext (withTest x) (runInstruction s)) := by rw [runInstruction_withTest]
    _ = mapNext (withTest x) (step s) := afterInstruction_withTest x _ _

end Sys2Proof.Proofs

/-! # Memory and registers -/

namespace Sys2Proof.Proofs

open Sys2Proof.Machine
open Sys2Proof.Claims

/-! ## The canonical form of memory -/

/-- The first listed byte reads as listed. -/
theorem readCell_cons_same (k : Nat) (v : Byte) (m : Memory) : readCell ((k, v) :: m) k = v := by
  simp [readCell]

/-- Another address reads past the first listed byte. -/
theorem readCell_cons_of_ne {k p : Nat} (v : Byte) (m : Memory) (h : p ≠ k) :
    readCell ((k, v) :: m) p = readCell m p := by
  simp [readCell, h.symm]

/-- Of two canonical memories that read alike neither begins at a higher address: it would read as unlisted at the lower
one. -/
theorem head_address_le {lo lo' k k' : Nat} {v v' : Byte} {m m' : Memory} (h : cellsWf lo ((k, v) :: m) = true)
    (h' : cellsWf lo' ((k', v') :: m') = true)
    (heq : ∀ p < 4294967296, readCell ((k, v) :: m) p = readCell ((k', v') :: m') p) : k' ≤ k := by
  obtain ⟨-, hk, hv, -⟩ := cellsWf_cons.1 h
  obtain ⟨-, hk', hv', hm'⟩ := cellsWf_cons.1 h'
  refine Nat.le_of_not_lt fun hlt => ?_
  have hread : readCell ((k', v') :: m') k = unlistedByte :=
    readCell_of_lt (lo := k') (cellsWf_cons.2 ⟨Nat.le_refl k', hk', hv', hm'⟩) hlt
  exact hv ((readCell_cons_same k v m).symm.trans ((heq k hk).trans hread))

/-- A canonical memory that lists a byte does not read as unlisted everywhere. -/
theorem exists_listed {lo k : Nat} {v : Byte} {m : Memory} (h : cellsWf lo ((k, v) :: m) = true) :
    ∃ p < 4294967296, readCell ((k, v) :: m) p ≠ unlistedByte := by
  obtain ⟨-, hk, hv, -⟩ := cellsWf_cons.1 h
  exact ⟨k, hk, by rwa [readCell_cons_same]⟩

/-- Canonical memories that read alike are the same list, whatever lower bounds they have. -/
theorem eq_of_readCell_eq {m m' : Memory} : ∀ {lo lo' : Nat}, cellsWf lo m = true → cellsWf lo' m' = true →
    (∀ p < 4294967296, readCell m p = readCell m' p) → m = m' := by
  induction m generalizing m' with
  | nil =>
    intro lo lo' _ h' heq
    cases m' with
    | nil => rfl
    | cons c m' =>
      obtain ⟨p, hp, hne⟩ := exists_listed h'
      exact absurd (heq p hp).symm hne
  | cons c m ih =>
    obtain ⟨k, v⟩ := c
    intro lo lo' h h' heq
    cases m' with
    | nil =>
      obtain ⟨p, hp, hne⟩ := exists_listed h
      exact absurd (heq p hp) hne
    | cons c' m' =>
      obtain ⟨k', v'⟩ := c'
      obtain rfl : k = k' :=
        Nat.le_antisymm (head_address_le h' h fun p hp => (heq p hp).symm) (head_address_le h h' heq)
      obtain ⟨-, hk, -, hm⟩ := cellsWf_cons.1 h
      obtain ⟨-, -, -, hm'⟩ := cellsWf_cons.1 h'
      obtain rfl : v = v' := by simpa [readCell_cons_same] using heq k hk
      have htail : ∀ p < 4294967296, readCell m p = readCell m' p := by
        intro p hp
        by_cases hpk : p = k
        · subst hpk
          rw [readCell_of_lt hm (Nat.lt_succ_self p), readCell_of_lt hm' (Nat.lt_succ_self p)]
        · simpa only [readCell_cons_of_ne _ _ hpk] using heq p hp
      rw [ih hm hm' htail]

/-- Settles O20, by induction on the first list. -/
theorem canonicalMemoryIsUnique : Obligations.CanonicalMemoryIsUnique := by
  unfold Obligations.CanonicalMemoryIsUnique
  intro m m' h h' heq
  exact eq_of_readCell_eq (wf_iff.1 h) (wf_iff.1 h') heq

/-! ## The aliasing of the general registers -/

/-- Bits 7:0 are replaced, and bits 31:8 kept. -/
theorem extractLsb_setLow8 (old v : Word) :
    (setLow8 old v).extractLsb' 0 8 = v.extractLsb' 0 8 ∧
      (setLow8 old v).extractLsb' 8 24 = old.extractLsb' 8 24 := by
  unfold setLow8
  exact ⟨BitVec.extractLsb'_append_eq_right, BitVec.extractLsb'_append_eq_left⟩

/-- Bits 15:0 are replaced, and bits 31:16 kept. -/
theorem extractLsb_setLow16 (old v : Word) :
    (setLow16 old v).extractLsb' 0 16 = v.extractLsb' 0 16 ∧
      (setLow16 old v).extractLsb' 16 16 = old.extractLsb' 16 16 := by
  unfold setLow16
  exact ⟨BitVec.extractLsb'_append_eq_right, BitVec.extractLsb'_append_eq_left⟩

/-- Bits 15:8 are replaced, and bits 7:0 and 31:16 kept. -/
theorem extractLsb_setHigh8 (old v : Word) :
    (setHigh8 old v).extractLsb' 8 8 = v.extractLsb' 0 8 ∧
      (setHigh8 old v).extractLsb' 0 8 = old.extractLsb' 0 8 ∧
      (setHigh8 old v).extractLsb' 16 16 = old.extractLsb' 16 16 := by
  unfold setHigh8
  exact ⟨(BitVec.extractLsb'_append_eq_of_le (by decide)).trans BitVec.extractLsb'_append_eq_right,
    BitVec.extractLsb'_append_eq_right,
    (BitVec.extractLsb'_append_eq_of_le (by decide)).trans BitVec.extractLsb'_append_eq_left⟩

/-- The 8-bit registers 0 to 3 are bits 7:0 of the register of the same number (R22). -/
theorem byte_low {i : RegNum} (h : i.toNat < 4) (g : Gprs) (v : Word) :
    readX .b i g = ((readGpr g i).extractLsb' 0 8).setWidth 32 ∧
      writeX .b i v g = writeGpr g i (setLow8 (readGpr g i) v) := by
  have hi : isHigh8 i = false ∧ parent8 i = i := by revert i; decide
  simp [readX, writeX, hi]

/-- The 8-bit registers 4 to 7 are bits 15:8 of the register numbered 4 less (R22). -/
theorem byte_high {i : RegNum} (h : 4 ≤ i.toNat) (g : Gprs) (v : Word) :
    readX .b i g = ((readGpr g (i - 4#3)).extractLsb' 8 8).setWidth 32 ∧
      writeX .b i v g = writeGpr g (i - 4#3) (setHigh8 (readGpr g (i - 4#3)) v) := by
  have hi : isHigh8 i = true ∧ parent8 i = i - 4#3 := by revert i; decide
  simp [readX, writeX, hi]

/-- A write of `x[i]` leaves every other 32-bit register. -/
theorem otherRegs_writeGpr (s : State) (i : RegNum) (v : Word) : OtherRegs i s { s with gpr := writeGpr s.gpr i v } :=
  fun _ hj => readGpr_writeGpr_of_ne s.gpr v hj

/-- A write of a register of any size changes its own bits alone (R22). -/
theorem regReceives_setX (sz : Size) (i : RegNum) (v : Word) (s : State) : RegReceives sz i v s (setX sz i v s) := by
  cases sz with
  | d => exact ⟨readGpr_writeGpr_same s.gpr i v, otherRegs_writeGpr s i v⟩
  | w =>
    obtain ⟨hlow, hhigh⟩ := extractLsb_setLow16 (readGpr s.gpr i) v
    simp only [RegReceives, setX, writeX, readGpr_writeGpr_same]
    exact ⟨hlow, hhigh, otherRegs_writeGpr s i _⟩
  | b =>
    by_cases hi : i.toNat < 4
    · obtain ⟨hlow, hhigh⟩ := extractLsb_setLow8 (readGpr s.gpr i) v
      simp only [RegReceives, hi, if_true, setX, byte_low hi, readGpr_writeGpr_same]
      exact ⟨hlow, hhigh, otherRegs_writeGpr s i _⟩
    · obtain ⟨hbyte, hlow, hhigh⟩ := extractLsb_setHigh8 (readGpr s.gpr (i - 4#3)) v
      simp only [RegReceives, hi, if_false, setX, byte_high (Nat.le_of_not_lt hi), readGpr_writeGpr_same]
      exact ⟨hbyte, hlow, hhigh, otherRegs_writeGpr s _ _⟩

/-- Settles O21: what a read returns, by the size and the half the number names, and what a write changes. -/
theorem registerAliasing : Obligations.RegisterAliasing := by
  unfold Obligations.RegisterAliasing
  intro s i v
  exact ⟨rfl, fun hi => (byte_low hi s.gpr v).1, fun hi => (byte_high hi s.gpr v).1,
    fun sz => regReceives_setX sz i v s⟩

end Sys2Proof.Proofs

/-! # Reading an instruction's encoding

A reader that takes exactly the bytes `bs` leaves what comes after them, and asks for more on any shorter part of them.
Both facts compose as the encoder does: part after part. -/

namespace Sys2Proof.Proofs

open Sys2Proof.Machine
open Sys2Proof.Claims

/-- `f` reads exactly the bytes `bs`, as `a`: it leaves what comes after them, and on fewer of them it is truncated. -/
structure Reads {α : Type} (f : List Byte → Parsed α) (bs : List Byte) (a : α) : Prop where
  ok : ∀ rest, f (bs ++ rest) = .ok a rest
  short : ∀ k < bs.length, f (bs.take k) = .truncated

/-- `f` decodes exactly the bytes `bs`, as `i`: it leaves what comes after them, and on fewer of them it is
truncated. -/
structure Decodes (f : List Byte → Decoded) (bs : List Byte) (i : Instr) : Prop where
  instr : ∀ rest, f (bs ++ rest) = .instr i rest
  short : ∀ k < bs.length, f (bs.take k) = .truncated

/-! ## Composing readers -/

section
variable {α β : Type} {f g : List Byte → Parsed α} {bs bs' : List Byte} {a : α} {b : β}

/-- A reader that takes no byte. -/
theorem reads_nil (h : ∀ rest, f rest = .ok a rest) : Reads f [] a := ⟨h, fun _ hk => absurd hk (Nat.not_lt_zero _)⟩

/-- Readers that agree read the same. -/
theorem Reads.congr (h : Reads f bs a) (hfg : ∀ l, g l = f l) : Reads g bs a :=
  ⟨fun rest => (hfg _).trans (h.ok rest), fun k hk => (hfg _).trans (h.short k hk)⟩

/-- One part after another. -/
theorem Reads.andThen {k : α → List Byte → Parsed β} (h : Reads f bs a) (h' : Reads (k a) bs' b) :
    Reads (fun l => (f l).thenRead k) (bs ++ bs') b where
  ok rest := by
    rw [List.append_assoc, h.ok, Parsed.thenRead, h'.ok]
  short n hn := by
    rw [List.take_append]
    rcases Nat.lt_or_ge n bs.length with hlt | hge
    · rw [Nat.sub_eq_zero_of_le (Nat.le_of_lt hlt), List.take_zero, List.append_nil, h.short n hlt, Parsed.thenRead]
    · rw [List.take_of_length_le hge, h.ok, Parsed.thenRead]
      exact h'.short _ (by rw [List.length_append] at hn; omega)

/-- A part that is wrapped up. -/
theorem Reads.map (h : Reads f bs a) (w : α → β) :
    Reads (fun l => (f l).thenRead fun x rest => .ok (w x) rest) bs (w a) := by
  have hw : Reads (fun rest => Parsed.ok (w a) rest) [] (w a) := reads_nil fun _ => rfl
  simpa only [List.append_nil] using h.andThen (k := fun x rest => .ok (w x) rest) hw

/-- The last part makes up the instruction. -/
theorem Reads.decodes (h : Reads f bs a) (w : α → Instr) : Decodes (fun l => (f l).toDecoded w) bs (w a) where
  instr rest := by rw [h.ok, Parsed.toDecoded]
  short k hk := by rw [h.short k hk, Parsed.toDecoded]

end

/-- Decoders that agree decode the same. -/
theorem Decodes.congr {f g : List Byte → Decoded} {bs : List Byte} {i : Instr} (h : Decodes f bs i)
    (hfg : ∀ l, g l = f l) : Decodes g bs i :=
  ⟨fun rest => (hfg _).trans (h.instr rest), fun k hk => (hfg _).trans (h.short k hk)⟩

/-- A decoder that takes no byte. -/
theorem decodes_nil (i : Instr) : Decodes (fun l => .instr i l) [] i :=
  ⟨fun _ => rfl, fun _ hk => absurd hk (Nat.not_lt_zero _)⟩

/-- A byte that is read before the rest. -/
theorem Decodes.cons {f g : List Byte → Decoded} {b : Byte} {bs : List Byte} {i : Instr} (h : Decodes g bs i)
    (hnil : f [] = .truncated) (hcons : ∀ l, f (b :: l) = g l) : Decodes f (b :: bs) i where
  instr rest := (hcons _).trans (h.instr rest)
  short k hk := by
    cases k with
    | zero => exact hnil
    | succ k => exact (hcons _).trans (h.short k (Nat.lt_of_succ_lt_succ hk))

/-! ## Displacements, immediates and offsets -/

theorem reads_take8 (d : Byte) : Reads take8 [d] d where
  ok _ := rfl
  short k hk := by
    obtain rfl : k = 0 := Nat.lt_one_iff.1 hk
    rfl

theorem reads_take16 (d : BitVec 16) : Reads take16 (bytes16 d) d where
  ok := take16_bytes16 d
  short k hk := by
    rw [length_bytes16] at hk
    obtain rfl | rfl : k = 0 ∨ k = 1 := by omega
    · rfl
    · rfl

theorem reads_take32 (d : Word) : Reads take32 (bytes32 d) d where
  ok := take32_bytes32 d
  short k hk := by
    rw [length_bytes32] at hk
    obtain rfl | rfl | rfl | rfl : k = 0 ∨ k = 1 ∨ k = 2 ∨ k = 3 := by omega
    · rfl
    · rfl
    · rfl
    · rfl

theorem reads_takeDisp16 (d : Disp16) : Reads (takeDisp16 d.md) d.encode d := by
  cases d with
  | none => exact reads_nil fun _ => rfl
  | d8 d => exact (reads_take8 d).map Disp16.d8
  | d16 d => exact (reads_take16 d).map Disp16.d16

theorem reads_takeDisp32 (d : Disp32) : Reads (takeDisp32 d.md) d.encode d := by
  cases d with
  | none => exact reads_nil fun _ => rfl
  | d8 d => exact (reads_take8 d).map Disp32.d8
  | d32 d => exact (reads_take32 d).map Disp32.d32

theorem reads_decodeImmW {p : Prefixes} (v : ImmW) (h : v.size = p.opSize) : Reads (decodeImmW p) v.encode v := by
  unfold decodeImmW
  rw [← h]
  cases v with
  | i16 v => exact (reads_take16 v).map ImmW.i16
  | i32 v => exact (reads_take32 v).map ImmW.i32

theorem reads_decodeMoffs {p : Prefixes} (a : Moffs) (h : a.addr32 = p.ad32) :
    Reads (decodeMoffs p) a.encode a := by
  unfold decodeMoffs
  rw [← h]
  cases a with
  | m16 a => exact (reads_take16 a).map Moffs.m16
  | m32 a => exact (reads_take32 a).map Moffs.m32

/-! ## Memory operands -/

/-- A displacement's `mod` is not that of a register operand. -/
theorem disp16_md_ne (d : Disp16) : d.md ≠ 3#2 := by cases d <;> simp [Disp16.md]

theorem disp32_md_ne (d : Disp32) : d.md ≠ 3#2 := by cases d <;> simp [Disp32.md]

/-- Only a form without a displacement has `mod` 00b. -/
theorem disp16_md_eq_zero {d : Disp16} : d.md = 0#2 ↔ d.isNone = true := by
  cases d <;> simp [Disp16.md, Disp16.isNone]

theorem disp32_md_eq_zero {d : Disp32} : d.md = 0#2 ↔ d.isNone = true := by
  cases d <;> simp [Disp32.md, Disp32.isNone]

/-- Only the row `[BP]` has the `r/m` value of the direct form. -/
theorem form16_code_eq_six {f : Form16} : f.code = 6#3 ↔ f = .bp := by
  cases f <;> simp [Form16.code]

theorem reads_form16 {f : Form16} {d : Disp16} (h : (MemOp.form16 f d).wf = true) :
    Reads (decodeMem16 d.md f.code) d.encode (.form16 f d) := by
  have hbp : ¬(d.md = 0#2 ∧ f.code = 6#3) := by
    rw [disp16_md_eq_zero, form16_code_eq_six]
    rintro ⟨hd, hf⟩
    simp [MemOp.wf, hd, hf] at h
  refine ((reads_takeDisp16 d).map (MemOp.form16 f)).congr fun l => ?_
  rw [decodeMem16, if_neg hbp, form16_ofCode_code]

theorem reads_base32 {b : RegNum} {d : Disp32} (h : (MemOp.base32 b d).wf = true) :
    Reads (decodeMem32 d.md b) d.encode (.base32 b d) := by
  simp only [MemOp.wf, Bool.and_eq_true, bne_iff_ne, Bool.not_eq_true', Bool.and_eq_false_iff] at h
  obtain ⟨h4, h5⟩ := h
  have hdirect : ¬(d.md = 0#2 ∧ b = 5#3) := by
    rw [disp32_md_eq_zero]
    rintro ⟨hd, rfl⟩
    simp [hd] at h5
  refine ((reads_takeDisp32 d).map (MemOp.base32 b)).congr fun l => ?_
  rw [decodeMem32, if_neg h4, if_neg hdirect]

/-- The `index` field of a well-formed SIB byte reads back, and is not refused. -/
theorem indexOfCode_indexCode {scale : BitVec 2} {index : Option RegNum} (h : indexWf scale index = true) :
    indexOfCode (indexCode index) = index ∧ ¬(indexCode index = 4#3 ∧ scale ≠ 0#2) := by
  cases index with
  | none => simpa [indexWf, indexCode, indexOfCode] using h
  | some i =>
    have hi : i ≠ 4#3 := by simpa [indexWf] using h
    simp [indexCode, indexOfCode, hi]

theorem reads_sib {scale : BitVec 2} {index : Option RegNum} {base : RegNum} {d : Disp32}
    (h : (MemOp.sib scale index base d).wf = true) :
    Reads (decodeMem32 d.md 4#3) (packFields scale (indexCode index) base :: d.encode) (.sib scale index base d) := by
  simp only [MemOp.wf, Bool.and_eq_true, Bool.not_eq_true'] at h
  obtain ⟨hi, h5⟩ := h
  obtain ⟨hindex, hscale⟩ := indexOfCode_indexCode hi
  have hbase : ¬(d.md = 0#2 ∧ base = 5#3) := by
    rw [disp32_md_eq_zero]
    rintro ⟨hd, rfl⟩
    simp [hd] at h5
  have hrest : Reads (decodeSib d.md (packFields scale (indexCode index) base)) d.encode (.sib scale index base d) := by
    refine ((reads_takeDisp32 d).map (MemOp.sib scale index base)).congr fun l => ?_
    simp only [decodeSib, field53_packFields, field76_packFields, field20_packFields, if_neg hscale, if_neg hbase,
      hindex]
  exact (reads_take8 _).andThen hrest

theorem reads_sibNoBase {scale : BitVec 2} {index : Option RegNum} {d : Word}
    (h : (MemOp.sibNoBase scale index d).wf = true) :
    Reads (decodeMem32 0#2 4#3) (packFields scale (indexCode index) 5#3 :: bytes32 d) (.sibNoBase scale index d) := by
  obtain ⟨hindex, hscale⟩ := indexOfCode_indexCode h
  have hrest :
      Reads (decodeSib 0#2 (packFields scale (indexCode index) 5#3)) (bytes32 d) (.sibNoBase scale index d) := by
    refine ((reads_take32 d).map (MemOp.sibNoBase scale index)).congr fun l => ?_
    simp only [decodeSib, field53_packFields, field76_packFields, field20_packFields, if_neg hscale, hindex,
      and_self, if_true]
  exact (reads_take8 _).andThen hrest

/-- A well-formed memory operand is written as an addressing-mode byte with any `reg` field, and bytes that the decoder
of its address size reads back. -/
theorem memOp_reads (m : MemOp) (h : m.wf = true) :
    ∃ md r tail, md ≠ 3#2 ∧ (∀ reg, m.encode reg = packFields md reg r :: tail) ∧
      Reads (if m.addr32 then decodeMem32 md r else decodeMem16 md r) tail m := by
  cases m with
  | form16 f d => exact ⟨_, _, _, disp16_md_ne d, fun _ => rfl, reads_form16 h⟩
  | direct16 d => exact ⟨0#2, 6#3, bytes16 d, by decide, fun _ => rfl, (reads_take16 d).map MemOp.direct16⟩
  | base32 b d => exact ⟨_, _, _, disp32_md_ne d, fun _ => rfl, reads_base32 h⟩
  | direct32 d => exact ⟨0#2, 5#3, bytes32 d, by decide, fun _ => rfl, (reads_take32 d).map MemOp.direct32⟩
  | sib scale index base d => exact ⟨_, _, _, disp32_md_ne d, fun _ => rfl, reads_sib h⟩
  | sibNoBase scale index d => exact ⟨_, _, _, by decide, fun _ => rfl, reads_sibNoBase h⟩

/-- A well-formed `mod`+`r/m` operand is written as an addressing-mode byte with any `reg` field, and bytes that the
decoder reads back under prefixes of its address size. -/
theorem rm_reads {p : Prefixes} (rm : Rm) (h : rm.wf = true) (ha : ∀ a, rm.addr32? = some a → a = p.ad32) :
    ∃ md r tail, (∀ reg, rm.encode reg = packFields md reg r :: tail) ∧ Reads (decodeRm p md r) tail rm := by
  cases rm with
  | reg i => exact ⟨3#2, i, [], fun _ => rfl, reads_nil fun _ => rfl⟩
  | mem m =>
    obtain ⟨md, r, tail, hmd, henc, hread⟩ := memOp_reads m h
    refine ⟨md, r, tail, henc, (hread.map Rm.mem).congr fun l => ?_⟩
    rw [decodeRm, if_neg hmd, ← ha m.addr32 rfl]
    cases m.addr32 <;> rfl

/-! ## Instructions -/

section
variable {p : Prefixes} (hgate : p.lock = false ∧ p.rep = false)
include hgate

/-- Without a lock or a repeat prefix the instruction is let through. -/
theorem gatePrefixes_of_none (d : Decoded) : gatePrefixes p d = d := by
  simp [gatePrefixes, hgate]

/-- An addressing-mode byte and what follows it. -/
theorem decodes_withModRm {k : BitVec 2 → BitVec 3 → BitVec 3 → List Byte → Decoded} {md : BitVec 2}
    {reg r : BitVec 3} {tail : List Byte} {i : Instr} (h : Decodes (k md reg r) tail i) :
    Decodes (fun l => withModRm p l k) (packFields md reg r :: tail) i :=
  h.cons rfl fun l => by
    rw [withModRm, gatePrefixes_of_none hgate, field76_packFields, field53_packFields, field20_packFields]

/-- A `mod`+`r/m` operand alone. -/
theorem decodes_rm {rm : Rm} (reg : BitVec 3) (w : BitVec 3 → Rm → Instr) (h : rm.wf = true)
    (ha : ∀ a, rm.addr32? = some a → a = p.ad32) :
    Decodes (fun l => withModRm p l fun md reg r l => (decodeRm p md r l).toDecoded (w reg)) (rm.encode reg)
      (w reg rm) := by
  obtain ⟨md, r, tail, henc, hread⟩ := rm_reads rm h ha
  rw [henc]
  exact decodes_withModRm hgate (hread.decodes (w reg))

/-- A `mod`+`r/m` operand and an immediate, with `reg` 000b (C6h, C7h). -/
theorem decodes_rm_imm {α : Type} {rm : Rm} {takeImm : List Byte → Parsed α} {imm : List Byte} {v : α}
    {k : BitVec 2 → BitVec 3 → BitVec 3 → List Byte → Decoded} (w : Rm × α → Instr) (h : rm.wf = true)
    (ha : ∀ a, rm.addr32? = some a → a = p.ad32) (himm : Reads takeImm imm v)
    (hk : ∀ md r l, k md 0#3 r l = ((decodeRm p md r l).thenRead fun op rest =>
      (takeImm rest).thenRead fun v rest => .ok (op, v) rest).toDecoded w) :
    Decodes (fun l => withModRm p l k) (rm.encode 0#3 ++ imm) (w (rm, v)) := by
  obtain ⟨md, r, tail, henc, hread⟩ := rm_reads rm h ha
  have hboth := hread.andThen (k := fun op rest => (takeImm rest).thenRead fun v rest => .ok (op, v) rest)
    (himm.map (rm, ·))
  rw [henc]
  exact decodes_withModRm hgate ((hboth.decodes w).congr (hk md r))

/-- The operands of 8Ch: a segment register and an operand, or an addressing-mode byte that names none. -/
theorem decodes_sregSource {ops : SregOps} (w : SregOps → Instr) (h : ops.sourceWf = true)
    (ha : ∀ a, ops.addr32? = some a → a = p.ad32) :
    Decodes (fun l => withModRm p l fun md reg r l => (decodeSregSource p md reg r l).toDecoded w) ops.encode
      (w ops) := by
  cases ops with
  | valid sr rm =>
    obtain ⟨md, r, tail, henc, hread⟩ := rm_reads rm h ha
    rw [SregOps.encode, henc]
    refine decodes_withModRm hgate (((hread.map (.valid sr)).congr fun l => ?_).decodes w)
    rw [decodeSregSource, sreg_ofCode_code]
  | invalid md reg r =>
    refine decodes_withModRm hgate ((reads_nil fun l => ?_ : Reads _ [] _).decodes w)
    have hreg : reg = 6#3 ∨ reg = 7#3 := by simpa [SregOps.sourceWf] using h
    rcases hreg with rfl | rfl <;> rfl

/-- The operands of 8Eh: the same, but that CS is no destination. -/
theorem decodes_sregDest {ops : SregOps} (w : SregOps → Instr) (h : ops.destWf = true)
    (ha : ∀ a, ops.addr32? = some a → a = p.ad32) :
    Decodes (fun l => withModRm p l fun md reg r l => (decodeSregDest p md reg r l).toDecoded w) ops.encode
      (w ops) := by
  cases ops with
  | valid sr rm =>
    obtain ⟨hcs, hrm⟩ : sr ≠ .cs ∧ rm.wf = true := by simpa [SregOps.destWf] using h
    obtain ⟨md, r, tail, henc, hread⟩ := rm_reads rm hrm ha
    rw [SregOps.encode, henc]
    refine decodes_withModRm hgate (((hread.map (.valid sr)).congr fun l => ?_).decodes w)
    have hcode : sr.code ≠ 1#3 := by cases sr <;> simp_all [SReg.code]
    rw [decodeSregDest, if_neg hcode, decodeSregSource, sreg_ofCode_code]
  | invalid md reg r =>
    refine decodes_withModRm hgate ((reads_nil fun l => ?_ : Reads _ [] _).decodes w)
    have hreg : reg = 1#3 ∨ reg = 6#3 ∨ reg = 7#3 := by simpa [SregOps.destWf, or_assoc] using h
    rcases hreg with rfl | rfl | rfl <;> rfl

/-- A part behind the opcode byte without an addressing-mode byte. -/
theorem decodes_gated {α : Type} {f : List Byte → Parsed α} {bs : List Byte} {a : α} (h : Reads f bs a)
    (w : α → Instr) : Decodes (fun l => gatePrefixes p ((f l).toDecoded w)) bs (w a) :=
  (h.decodes w).congr fun _ => gatePrefixes_of_none hgate _

/-- A special-register move: its two opcode bytes, and the addressing-mode byte, which is all that follows (R187). -/
theorem decodes_special {b : Byte} (k : BitVec 2 → BitVec 3 → BitVec 3 → Instr) (md : BitVec 2) (n r : BitVec 3)
    (h : ∀ l, decode0F p (b :: l) = withModRm p l fun md n r l => .instr (k md n r) l) :
    Decodes (decode p) [0x0F#8, b, packFields md n r] (k md n r) := by
  have hfields : Decodes (fun l => withModRm p l fun md n r l => .instr (k md n r) l) [packFields md n r] (k md n r) :=
    decodes_withModRm hgate (decodes_nil _)
  exact (hfields.cons (f := decode0F p) rfl h).cons rfl fun _ => rfl

end

/-- A prefix byte is read alone. -/
theorem decodes_prefix {p : Prefixes} {b : Byte} {i : Instr} (h : ∀ l, decode p (b :: l) = .instr i l) :
    Decodes (decode p) [b] i :=
  (decodes_nil i).cons rfl h

/-- B0h to B7h hold the register in bits 2:0 (R165). -/
theorem decode_movR8Imm8 (p : Prefixes) (reg : RegNum) (l : List Byte) :
    decode p ((0b10110#5 ++ reg) :: l) = gatePrefixes p ((take8 l).toDecoded fun v => .movR8Imm8 reg v) := by
  rcases regNum_cases reg with h | h | h | h | h | h | h | h <;> subst h <;> rfl

/-- B8h to BFh hold the register in bits 2:0 (R166). -/
theorem decode_movRImm (p : Prefixes) (reg : RegNum) (l : List Byte) :
    decode p ((0b10111#5 ++ reg) :: l) = gatePrefixes p ((decodeImmW p l).toDecoded fun v => .movRImm reg v) := by
  rcases regNum_cases reg with h | h | h | h | h | h | h | h <;> subst h <;> rfl

/-- The decoder reads exactly the encoding of a well-formed instruction, under prefixes that fit it. -/
theorem decodes_encode (i : Instr) (p : Prefixes) (h : i.wf = true) (hfit : p.fit i) :
    Decodes (decode p) (encode i) i := by
  obtain ⟨hsz, ha, hgate⟩ := hfit
  cases i with
  | prefixOperandSize | prefixAddressSize | prefixEs | prefixCs | prefixSs | prefixDs | prefixFs | prefixGs
  | prefixLock | prefixRepne | prefixRep => exact decodes_prefix fun _ => rfl
  | movRm8R8 rm reg => exact (decodes_rm (hgate rfl) reg (fun reg op => .movRm8R8 op reg) h ha).cons rfl fun _ => rfl
  | movRmR sz rm reg =>
    obtain rfl := hsz sz rfl
    exact (decodes_rm (hgate rfl) reg (fun reg op => .movRmR p.opSize op reg) h ha).cons rfl fun _ => rfl
  | movR8Rm8 reg rm => exact (decodes_rm (hgate rfl) reg .movR8Rm8 h ha).cons rfl fun _ => rfl
  | movRRm sz reg rm =>
    obtain rfl := hsz sz rfl
    exact (decodes_rm (hgate rfl) reg (.movRRm p.opSize) h ha).cons rfl fun _ => rfl
  | movRm16Sreg sz ops =>
    obtain rfl := hsz sz rfl
    exact (decodes_sregSource (hgate rfl) (.movRm16Sreg p.opSize) h ha).cons rfl fun _ => rfl
  | movSregRm16 ops => exact (decodes_sregDest (hgate rfl) .movSregRm16 h ha).cons rfl fun _ => rfl
  | movAlMoffs a => exact (decodes_gated (hgate rfl) (reads_decodeMoffs a (ha _ rfl)) .movAlMoffs).cons rfl fun _ => rfl
  | movAxMoffs sz a =>
    obtain rfl := hsz sz rfl
    exact (decodes_gated (hgate rfl) (reads_decodeMoffs a (ha _ rfl)) (.movAxMoffs p.opSize)).cons rfl fun _ => rfl
  | movMoffsAl a => exact (decodes_gated (hgate rfl) (reads_decodeMoffs a (ha _ rfl)) .movMoffsAl).cons rfl fun _ => rfl
  | movMoffsAx sz a =>
    obtain rfl := hsz sz rfl
    exact (decodes_gated (hgate rfl) (reads_decodeMoffs a (ha _ rfl)) (.movMoffsAx p.opSize)).cons rfl fun _ => rfl
  | movR8Imm8 reg imm =>
    exact (decodes_gated (hgate rfl) (reads_take8 imm) (.movR8Imm8 reg)).cons rfl (decode_movR8Imm8 p reg)
  | movRImm reg imm =>
    exact (decodes_gated (hgate rfl) (reads_decodeImmW imm (hsz _ rfl)) (.movRImm reg)).cons rfl (decode_movRImm p reg)
  | movRm8Imm8 rm imm =>
    exact (decodes_rm_imm (hgate rfl) (fun x => .movRm8Imm8 x.1 x.2) h ha (reads_take8 imm) (k := decodeC6 p)
      fun _ _ _ => rfl).cons rfl fun _ => rfl
  | reservedC6 md reg rm =>
    have hreg : reg ≠ 0#3 := by simpa [Instr.wf] using h
    have hrest : Decodes (decodeC6 p md reg rm) [] (.reservedC6 md reg rm) :=
      (decodes_nil _).congr fun _ => if_neg hreg
    exact (decodes_withModRm (hgate rfl) (k := decodeC6 p) hrest).cons rfl fun _ => rfl
  | movRmImm rm imm =>
    exact (decodes_rm_imm (hgate rfl) (fun x => .movRmImm x.1 x.2) h ha (reads_decodeImmW imm (hsz _ rfl))
      (k := decodeC7 p) fun _ _ _ => rfl).cons rfl fun _ => rfl
  | reservedC7 md reg rm =>
    have hreg : reg ≠ 0#3 := by simpa [Instr.wf] using h
    have hrest : Decodes (decodeC7 p md reg rm) [] (.reservedC7 md reg rm) :=
      (decodes_nil _).congr fun _ => if_neg hreg
    exact (decodes_withModRm (hgate rfl) (k := decodeC7 p) hrest).cons rfl fun _ => rfl
  | breakpoint => exact (decodes_nil _).cons rfl fun _ => gatePrefixes_of_none (hgate rfl) _
  | ltr md rm =>
    have hlast : Decodes (decode0F00 p) [packFields md 3#3 rm] (.ltr md rm) :=
      (decodes_nil _).cons rfl fun l => by
        rw [decode0F00, field53_packFields, if_pos rfl, gatePrefixes_of_none (hgate rfl), field76_packFields,
          field20_packFields]
    exact (hlast.cons (f := decode0F p) rfl fun _ => rfl).cons rfl fun _ => rfl
  | movRCr md n reg => exact decodes_special (hgate rfl) .movRCr md n reg fun _ => rfl
  | movCrR md n reg => exact decodes_special (hgate rfl) .movCrR md n reg fun _ => rfl
  | movRDr md n reg => exact decodes_special (hgate rfl) .movRDr md n reg fun _ => rfl
  | movDrR md n reg => exact decodes_special (hgate rfl) .movDrR md n reg fun _ => rfl
  | movRTr md n reg => exact decodes_special (hgate rfl) .movRTr md n reg fun _ => rfl
  | movTrR md n reg => exact decodes_special (hgate rfl) .movTrR md n reg fun _ => rfl

/-! ## The fetch -/

/-- The bytes stand from an offset of CS on, each within its limit and in memory: `FetchHolds` for any offset. -/
def HeldFrom (s : State) (off : Nat) (bs : List Byte) : Prop :=
  ∀ k, ∀ h : k < bs.length,
    off + k ≤ s.seg.cs.limit.toNat ∧ isMapped s.cfg (codeAddr s (off + k)) = true ∧
    readCell s.mem (codeAddr s (off + k)) = bs[k]

/-- What stands at the running fetch offset. -/
theorem heldFrom_fetchOffset {s : State} {bs : List Byte} : HeldFrom s (fetchOffset s) bs ↔ FetchHolds s bs := Iff.rfl

/-- The bytes that follow the first. -/
theorem HeldFrom.tail {s : State} {off : Nat} {b : Byte} {bs : List Byte} (h : HeldFrom s off (b :: bs)) :
    HeldFrom s (off + 1) bs := by
  intro k hk
  have hnext := h (k + 1) (Nat.succ_lt_succ hk)
  rwa [show off + (k + 1) = off + 1 + k by omega] at hnext

/-- A window that ends behind the bytes held, by its length or by the limit of CS, holds them alone, and the byte after
them raises GeneralProtection (R25, R110). -/
theorem fetchWindow_of_heldFrom {s : State} {bs : List Byte} : ∀ {off n : Nat}, HeldFrom s off bs → bs.length ≤ n →
    (bs.length = n ∨ off + bs.length > s.seg.cs.limit.toNat) →
    fetchWindow s off n = (bs, .raise .generalProtection) := by
  induction bs with
  | nil =>
    intro off n _ _ hend
    cases n with
    | zero => rfl
    | succ n =>
      have hlimit : off > s.seg.cs.limit.toNat := hend.resolve_left (Nat.succ_ne_zero n).symm
      rw [fetchWindow, if_pos hlimit]
  | cons b bs ih =>
    intro off n h hn hend
    cases n with
    | zero => exact absurd hn (Nat.not_succ_le_zero _)
    | succ n =>
      obtain ⟨hlimit, hmapped, hbyte⟩ := h 0 (Nat.succ_pos _)
      rw [Nat.add_zero] at hlimit hmapped hbyte
      rw [List.length_cons] at hn hend
      rw [fetchWindow, if_neg (Nat.not_lt.2 hlimit), if_pos hmapped, ih h.tail (by omega) (by omega), hbyte]
      rfl

/-- Settles O7: the bytes in place are a proper part of the encoding, on which the decoder asks for the byte that raises
GeneralProtection. -/
theorem fetchBeyondLimitRaisesGeneralProtection : Obligations.FetchBeyondLimitRaisesGeneralProtection := by
  unfold Obligations.FetchBeyondLimitRaisesGeneralProtection
  intro s i k hscope hwf hfit hk hheld h15 hend
  have hlen : ((encode i).take k).length = k := List.length_take_of_le (Nat.le_of_lt hk)
  have hfetch : fetchBytes s = ((encode i).take k, .raise .generalProtection) :=
    fetchWindow_of_heldFrom (heldFrom_fetchOffset.2 hheld) (by rw [hlen, maxInstructionLength]; omega)
      (by rw [hlen, maxInstructionLength]; omega)
  have hdecode : decodeNext s = .truncated := by
    rw [decodeNext, hfetch]
    exact (decodes_encode i s.pfx hwf hfit).short k hk
  have hrun : runInstruction s = raiseFault .generalProtection s := by
    rw [runInstruction_of_inScope hscope, hdecode, runDecoded, hfetch, stopOutcome]
  rw [step, hrun]

end Sys2Proof.Proofs

/-! # Memory by access: byte order, addresses, limits and the program text -/

namespace Sys2Proof.Proofs

open Sys2Proof.Machine
open Sys2Proof.Claims

/-! ## Byte order -/

/-- A value shifted up by 8 bits, with a byte in the room below it, is the two appended. -/
theorem shiftLeft_or_eq_append {w : Nat} (v : BitVec w) (b : Byte) :
    v.setWidth 32 <<< 8 ||| b.setWidth 32 = (v ++ b).setWidth 32 := by
  ext i hi
  simp only [BitVec.getElem_or, BitVec.getElem_shiftLeft, BitVec.getElem_setWidth, BitVec.getLsbD_append]
  by_cases h : i < 8
  · simp [h]
  · simp [h, BitVec.getLsbD_of_ge b i (Nat.le_of_not_lt h)]

/-- A read puts the byte at its lowest address below what it reads from the next one on (R60). -/
theorem loadBytes_succ_of_eq {s : State} {a : Word} {n w : Nat} {v : BitVec w}
    (h : loadBytes s (a + 1#32) n = v.setWidth 32) :
    loadBytes s a (n + 1) = (v ++ readLinear s a).setWidth 32 := by
  rw [loadBytes, h, shiftLeft_or_eq_append]

/-- A read of one byte. -/
theorem loadBytes_one (s : State) (a : Word) : loadBytes s a 1 = (readLinear s a).setWidth 32 := by
  simp [loadBytes]

/-- A read of two bytes: the second is the more significant. -/
theorem loadBytes_two (s : State) (a : Word) :
    loadBytes s a 2 = (readLinear s (a + 1#32) ++ readLinear s a).setWidth 32 :=
  loadBytes_succ_of_eq (loadBytes_one s _)

/-- A read of four bytes: each is more significant than the one before it. -/
theorem loadBytes_four (s : State) (a : Word) :
    loadBytes s a 4 =
      readLinear s (a + 3#32) ++ readLinear s (a + 2#32) ++ readLinear s (a + 1#32) ++ readLinear s a := by
  rw [loadBytes_succ_of_eq (loadBytes_succ_of_eq (loadBytes_two s _)), BitVec.setWidth_eq,
    BitVec.add_assoc a, BitVec.add_assoc a]
  rfl

/-- Bytes stored are received, and no other byte changes. -/
theorem memoryReceives_storeBytes (s : State) (a v : Word) {n : Nat} (hw : s.mem.wf = true) (hn : n ≤ 4) :
    MemoryReceives a n v s { s with mem := storeBytes s.cfg s.mem a n v } :=
  ⟨readCell_storeBytes_at s.cfg n s.mem a v hw hn, fun p => readCell_storeBytes_other s.cfg p n s.mem a v hw⟩

/-- Byte `k` of a word's encoding is its byte `k` from below. -/
theorem getElem_bytes16 (v : BitVec 16) : ∀ (k : Nat) (h : k < 2), (bytes16 v)[k]'h = v.extractLsb' (8 * k) 8
  | 0, _ | 1, _ => rfl

/-- Byte `k` of a doubleword's encoding is its byte `k` from below. -/
theorem getElem_bytes32 (v : Word) : ∀ (k : Nat) (h : k < 4), (bytes32 v)[k]'h = v.extractLsb' (8 * k) 8
  | 0, _ | 1, _ | 2, _ | 3, _ => rfl

/-- Settles O22: reads and stores by their byte lemmas, an instruction's fields by the decoder's and the encoder's. -/
theorem byteOrderIsLittleEndian : Obligations.ByteOrderIsLittleEndian := by
  unfold Obligations.ByteOrderIsLittleEndian
  exact ⟨fun s a => ⟨loadBytes_one s a, loadBytes_two s a, loadBytes_four s a⟩,
    fun s a v _ => memoryReceives_storeBytes s a v, getElem_bytes16, getElem_bytes32, take16_bytes16, take32_bytes32⟩

/-- Settles O23: byte `j` of a read is the byte at its address, and a store says of each address what stands there. -/
theorem narrowReadAfterWideWrite : Obligations.NarrowReadAfterWideWrite := by
  unfold Obligations.NarrowReadAfterWideWrite
  intro s a b v n m j hw hn hm hj
  obtain ⟨hat, hother⟩ := memoryReceives_storeBytes s a v hw hn
  rw [extractLsb_loadBytes _ m b hm j hj]
  exact ⟨fun k hk heq => (congrArg _ heq).trans (hat k hk), hother _⟩

/-! ## Addresses -/

/-- The linear address is base plus offset, modulo 2^32 (R63). -/
theorem toNat_linear (s : State) (j : SReg) (off : Word) :
    (linear s j off).toNat = ((readSeg s.seg j).base.toNat + off.toNat) % 4294967296 :=
  BitVec.toNat_add _ _

/-- Without `a20_mask` the physical address is the linear one (R63). -/
theorem physAddr_of_unmasked {c : Config} (h : c.a20Mask = false) (a : Word) : physAddr c a = a.toNat := by
  simp [physAddr, h]

/-- With `a20_mask` it is the linear one with bit 20 clear (R63). -/
theorem testBit_physAddr_of_masked {c : Config} (h : c.a20Mask = true) (a : Word) (b : Nat) :
    (physAddr c a).testBit b = (a.getLsbD b && b != 20) := by
  rw [physAddr, if_pos h, BitVec.testBit_toNat, BitVec.getLsbD_and]
  by_cases hb : b < 32
  · have mask : ∀ b : Fin 32, (0xFFEFFFFF#32 : Word).getLsbD b = (b.val != 20) := by decide
    rw [mask ⟨b, hb⟩]
  · rw [BitVec.getLsbD_of_ge a b (Nat.le_of_not_lt hb), Bool.false_and, Bool.false_and]

/-- A real-mode load makes the base 16 times the selector, which no base overflows (R30). -/
theorem toNat_base_loadSegReg (r : SegReg) (v : BitVec 16) : (loadSegReg r v).base.toNat = v.toNat * 16 := by
  simp only [loadSegReg, BitVec.toNat_mul, BitVec.toNat_setWidth, BitVec.toNat_ofNat]
  omega

/-- A load of a segment register reads back (R30). -/
theorem readSeg_loadSeg_same (j : SReg) (v : BitVec 16) (s : State) :
    readSeg (loadSeg j v s).seg j = loadSegReg (readSeg s.seg j) v :=
  readSeg_writeSeg_same s.seg j _

/-- Settles O27: the sums are exact before the one reduction modulo 2^32, and a load writes one segment register. -/
theorem segmentTimesSixteenPlusOffset : Obligations.SegmentTimesSixteenPlusOffset := by
  unfold Obligations.SegmentTimesSixteenPlusOffset
  intro s j v off
  refine ⟨toNat_linear s j off, physAddr_of_unmasked, testBit_physAddr_of_masked, ?_, ?_,
    fun k => ⟨limit_loadSeg j k v s, readSeg_writeSeg_of_ne s.seg _⟩⟩
  · rw [toNat_linear, readSeg_loadSeg_same, toNat_base_loadSegReg]
  · rw [readSeg_loadSeg_same]
    rfl

/-! ## The accesses of an instruction -/

/-- What an instruction does that accesses `n` bytes at an offset of a segment: it stores them, or loads a general or a
segment register with them. -/
inductive Accesses (s : State) (j : SReg) (off : Word) (n : Nat) : Outcome → Prop where
  | store (len : Nat) (v : Word) : Accesses s j off n (finish len s (dataWrite s j off n v))
  | load (len : Nat) (sz : Size) (r : RegNum) : Accesses s j off n (finish len s (loadReg sz r s (segRead s j off n)))
  | loadSegment (len : Nat) (sr : SReg) : Accesses s j off n (finishSegLoad len sr s (segRead s j off n))

/-- Every form that stores does so by one `dataWrite` at its operand. -/
theorem exec_of_storesAt {s : State} {i : Instr} {j : SReg} {off : Word} {n : Nat} (h : StoresAt s i j off n) :
    ∃ len v, exec i s = finish len s (dataWrite s j off n v) := by
  cases h with
  | movRm8R8 | movRmR | movRm8Imm8 | movRmImm => exact ⟨_, _, rfl⟩
  | movRm16Sreg _ _ _ hon | movMoffsAl _ hon | movMoffsAx _ _ hon => exact ⟨_, _, if_pos hon⟩

/-- A form that stores is one that accesses its destination. -/
theorem accesses_of_storesAt {s : State} {i : Instr} {j : SReg} {off : Word} {n : Nat} (h : StoresAt s i j off n) :
    Accesses s j off n (exec i s) := by
  obtain ⟨len, v, hexec⟩ := exec_of_storesAt h
  exact hexec ▸ .store len v

/-- The general forms access their memory operand. -/
theorem accesses_of_accessesMemory {i : Instr} {m : MemOp} {n : Nat} (h : AccessesMemory i m n) (s : State) :
    Accesses s (memSeg s m) (effAddr s.gpr m) n (exec i s) := by
  cases h with
  | movRm8R8 m reg => exact accesses_of_storesAt (.movRm8R8 m reg)
  | movRmR sz m reg => exact accesses_of_storesAt (.movRmR sz m reg)
  | movRm8Imm8 m imm => exact accesses_of_storesAt (.movRm8Imm8 m imm)
  | movRmImm m imm => exact accesses_of_storesAt (.movRmImm m imm)
  | movR8Rm8 m reg => exact .load _ .b reg
  | movRRm sz m reg => exact .load _ (sizeOf1 sz) reg

/-- The segment-register forms, admitted, access the two bytes of their memory operand. -/
theorem accesses_of_accessesSelector {i : Instr} {m : MemOp} (h : AccessesSelector i m) {s : State}
    (hon : s.cfg.sregForms = true) : Accesses s (memSeg s m) (effAddr s.gpr m) 2 (exec i s) := by
  cases h with
  | store sz sr m => exact accesses_of_storesAt (.movRm16Sreg sz sr m hon)
  | load sr m hcs =>
    have hexec : exec (.movSregRm16 (.valid sr (.mem m))) s =
        finishSegLoad (1 + m.len) sr s (segRead s (memSeg s m) (effAddr s.gpr m) 2) :=
      (if_pos hon).trans (if_neg hcs)
    exact hexec ▸ .loadSegment _ sr

/-- The memory-offset forms, admitted, access the bytes at their offset. -/
theorem accesses_of_accessesMoffs {i : Instr} {a : Moffs} {n : Nat} (h : AccessesMoffs i a n) {s : State}
    (hon : s.cfg.moffsForms = true) : Accesses s (moffsSeg s) (moffsOffset a) n (exec i s) := by
  have hload (sz : Size) : Accesses s (moffsSeg s) (moffsOffset a) (sizeBytes sz) (loadMoffs sz a s) := by
    rw [loadMoffs, if_pos hon]
    exact .load _ sz 0#3
  cases h with
  | storeAl => exact accesses_of_storesAt (.movMoffsAl a hon)
  | storeAx sz => exact accesses_of_storesAt (.movMoffsAx sz a hon)
  | loadAl => exact hload .b
  | loadAx sz => exact hload (sizeOf1 sz)

/-! ## The limit of a segment -/

/-- The exception of an access beyond the limit, as R64 words it. -/
theorem limitExc_eq (j : SReg) : limitExc j = if j = .ss then .stackFault else .generalProtection := by
  cases j <;> rfl

/-- An access beyond the limit of its segment raises, whatever it was to do with the bytes (R64). -/
theorem raiseFault_of_beyondLimit {s : State} {j : SReg} {off : Word} {n : Nat} {o : Outcome}
    (ha : Accesses s j off n o) (hbeyond : off.toNat + (n - 1) > (readSeg s.seg j).limit.toNat) :
    o = raiseFault (if j = .ss then .stackFault else .generalProtection) s := by
  have hlimit : withinLimit s j off n = false := decide_eq_false (Nat.not_le_of_gt hbeyond)
  have hread : segRead s j off n = .error (.raise (limitExc j)) := by simp [segRead, hlimit]
  have hwrite (v : Word) : dataWrite s j off n v = .error (.raise (limitExc j)) := by
    simp [dataWrite, segWrite, hlimit]
  rw [← limitExc_eq]
  cases ha with
  | store => rw [hwrite, finish]
  | load => rw [hread, loadReg, finish]
  | loadSegment => rw [hread, finishSegLoad]

/-- Settles O36: every form is one access, and that raises. -/
theorem accessBeyondLimitRaises : Obligations.AccessBeyondLimitRaises := by
  unfold Obligations.AccessBeyondLimitRaises
  exact ⟨fun s _ _ _ h => raiseFault_of_beyondLimit (accesses_of_accessesMemory h s),
    fun _ _ _ h hon => raiseFault_of_beyondLimit (accesses_of_accessesSelector h hon),
    fun _ _ _ _ h hon => raiseFault_of_beyondLimit (accesses_of_accessesMoffs h hon)⟩

/-! ## The program text -/

/-- A store into the program text, within the limit of its segment, is refused (R81). -/
theorem refused_of_storesAt {s : State} {i : Instr} {j : SReg} {off : Word} {n : Nat} (h : StoresAt s i j off n)
    (hlimit : withinLimit s j off n = true) (htext : anyProgramText s.cfg (linear s j off) n = true) :
    exec i s = .refused .storeIntoProgramText := by
  obtain ⟨len, v, hexec⟩ := exec_of_storesAt h
  have hwrite : dataWrite s j off n v = .error (.refuse .storeIntoProgramText) := by simp [dataWrite, hlimit, htext]
  rw [hexec, hwrite, finish]

/-- With the entry off an instruction pushes nothing, and its own store keeps the program text. -/
theorem effect_keepsText {sp : Bool} {s t : State} (h : Effect sp s t) (hoff : s.cfg.modelTrapEntry = false)
    (hw : s.mem.wf = true) : KeepsText s t.mem := by
  cases h with
  | recorded | segLoaded | special => exact keepsText_self s hw
  | moved _ _ _ _ hm => exact hm hw
  | entered _ _ _ _ hon => exact absurd hon (by simp [hoff])

/-- With the entry off the instruction boundary writes no memory. -/
theorem boundaryEffect_mem {u t : State} (h : BoundaryEffect u t) (hoff : u.cfg.modelTrapEntry = false) :
    t.mem = u.mem := by
  cases h with
  | within => rfl
  | waited => exact arrive_mem u
  | accepted _ _ _ _ _ _ _ hon => exact absurd hon (by simp [hoff])

/-- A step keeps the parameters. -/
theorem step_cfg {s t : State} (h : step s = .next t) : t.cfg = s.cfg := by
  obtain ⟨-, u, he, hb⟩ := step_effect h
  exact (boundaryEffect_fixedSame hb).cfg.trans (effect_fixedSame he).cfg

/-- With the entry off a step keeps the program text. -/
theorem step_keepsText {s t : State} (h : step s = .next t) (hoff : s.cfg.modelTrapEntry = false)
    (hw : s.mem.wf = true) : KeepsText s t.mem := by
  obtain ⟨-, u, he, hb⟩ := step_effect h
  have hcfg : u.cfg = s.cfg := (effect_fixedSame he).cfg
  rw [boundaryEffect_mem hb (hcfg ▸ hoff)]
  exact effect_keepsText he hoff hw

/-- Keeping the program text composes, the parameters being the same. -/
theorem keepsText_trans {s t : State} {m : Memory} (h : KeepsText s t.mem) (hcfg : t.cfg = s.cfg)
    (h' : KeepsText t m) : KeepsText s m :=
  ⟨h'.wf, fun p hp => (h'.text p (hcfg ▸ hp)).trans (h.text p hp)⟩

/-- With the entry off a run keeps the program text of its launch, and the parameters that say which it is. -/
theorem run_keepsText {launch s : State} {n : Nat} (h : Run launch n s) (hoff : launch.cfg.modelTrapEntry = false)
    (hw : launch.mem.wf = true) : s.cfg = launch.cfg ∧ KeepsText launch s.mem := by
  induction h with
  | start => exact ⟨rfl, keepsText_self launch hw⟩
  | next _ _ hstep ih =>
    obtain ⟨hcfg, htext⟩ := ih
    exact ⟨(step_cfg hstep).trans hcfg, keepsText_trans htext hcfg (step_keepsText hstep (hcfg ▸ hoff) htext.wf)⟩

/-- Settles O37: a store is refused, so a step keeps the program text, and by induction a run does. -/
theorem storeIntoProgramTextRefused : Obligations.StoreIntoProgramTextRefused := by
  unfold Obligations.StoreIntoProgramTextRefused
  refine ⟨?_, ?_, ?_⟩
  · intro s i j off n k hstores hk hlimit htext
    exact refused_of_storesAt hstores (decide_eq_true hlimit) ((anyProgramText_eq_true s.cfg n _).2 ⟨k, hk, htext⟩)
  · intro s t hw hoff hstep
    exact (step_keepsText hstep hoff hw).text
  · intro launch hw hoff hin
    refine ⟨hin, fun s p hexec => ?_⟩
    obtain ⟨n, hrun⟩ := hexec.inRun
    exact (run_keepsText hrun hoff hw).2.text p (hin s p hexec)

end Sys2Proof.Proofs

/-! # Prefixes before an instruction, and the SIB byte that is refused

The prefixes read before an instruction reach its decoding through its two sizes alone, and then once more through
`gatePrefixes`. So what the decoder makes of an encoding behind a lock or a repeat prefix is said by what it makes of it
without one, which `decodes_encode` gives. -/

namespace Sys2Proof.Proofs

open Sys2Proof.Machine
open Sys2Proof.Claims

/-! ## Behind a lock or a repeat prefix -/

/-- The prefixes but for a lock or a repeat prefix. -/
def ungated (p : Prefixes) : Prefixes := { p with lock := false, rep := false }

/-- The prefixes of an instruction's sizes fit it once no lock and no repeat prefix is among them. -/
theorem ungated_fit {p : Prefixes} {i : Instr} (h : SizesFit p i) : (ungated p).fit i :=
  ⟨h.1, h.2, fun _ => ⟨rfl, rfl⟩⟩

/-- Where `bare` is an instruction, and no prefix byte, `d` is what the prefixes `p` make of it. -/
def GatedBy (p : Prefixes) (d bare : Decoded) : Prop :=
  ∀ i rest, bare = .instr i rest → i.isPrefix = false → d = gatePrefixes p (.instr i rest)

section
variable {p : Prefixes}

theorem gatedBy_gatePrefixes (d : Decoded) : GatedBy p (gatePrefixes p d) (gatePrefixes (ungated p) d) := by
  rintro i rest h -
  obtain rfl : d = .instr i rest := h
  rfl

theorem gatedBy_withModRm (bs : List Byte) (k : BitVec 2 → BitVec 3 → BitVec 3 → List Byte → Decoded) :
    GatedBy p (withModRm p bs k) (withModRm (ungated p) bs k) := by
  cases bs with
  | nil => rintro i rest ⟨⟩
  | cons b rest => exact gatedBy_gatePrefixes _

/-- A first byte of a prefix is no instruction behind one. -/
theorem gatedBy_prefix {i : Instr} {rest : List Byte} (h : i.isPrefix = true) :
    GatedBy p (.instr i rest) (.instr i rest) := by
  rintro j rest' ⟨⟩ hj
  rw [h] at hj
  cases hj

theorem gatedBy_refused (r : DecodeRefusal) : GatedBy p (.refused r) (.refused r) := by
  rintro i rest ⟨⟩

theorem gatedBy_ite {c : Prop} [Decidable c] {d d' bare bare' : Decoded} (h : GatedBy p d bare)
    (h' : GatedBy p d' bare') : GatedBy p (if c then d else d') (if c then bare else bare') := by
  split
  · exact h
  · exact h'

theorem gatedBy_decode0F00 (bs : List Byte) : GatedBy p (decode0F00 p bs) (decode0F00 (ungated p) bs) := by
  cases bs with
  | nil => rintro i rest ⟨⟩
  | cons b rest => exact gatedBy_ite (gatedBy_gatePrefixes _) (gatedBy_refused _)

theorem gatedBy_decode0F (bs : List Byte) : GatedBy p (decode0F p bs) (decode0F (ungated p) bs) := by
  cases bs with
  | nil => rintro i rest ⟨⟩
  | cons b rest =>
    refine gatedBy_ite (gatedBy_decode0F00 rest) ?_
    iterate 6 refine gatedBy_ite (gatedBy_withModRm rest _) ?_
    exact gatedBy_refused _

theorem gatedBy_decodeRegImm (b : Byte) (bs : List Byte) :
    GatedBy p (decodeRegImm p b bs) (decodeRegImm (ungated p) b bs) :=
  gatedBy_ite (gatedBy_gatePrefixes _) (gatedBy_ite (gatedBy_gatePrefixes _) (gatedBy_refused _))

/-- Every opcode other than a prefix is gated, after its addressing-mode byte if it has one (R102, R113 (d)). -/
theorem gatedBy_decodeOpcode (b : Byte) (bs : List Byte) :
    GatedBy p (decodeOpcode p b bs) (decodeOpcode (ungated p) b bs) := by
  unfold decodeOpcode
  iterate 6 refine gatedBy_ite (gatedBy_withModRm bs _) ?_
  iterate 4 refine gatedBy_ite (gatedBy_gatePrefixes _) ?_
  iterate 2 refine gatedBy_ite (gatedBy_withModRm bs _) ?_
  exact gatedBy_ite (gatedBy_gatePrefixes _) (gatedBy_ite (gatedBy_decode0F bs) (gatedBy_decodeRegImm b bs))

/-- What the decoder reads as an instruction without a lock and a repeat prefix, it gates with them. -/
theorem gatedBy_decode (bs : List Byte) : GatedBy p (decode p bs) (decode (ungated p) bs) := by
  cases bs with
  | nil => rintro i rest ⟨⟩
  | cons b rest =>
    unfold decode
    iterate 11 refine gatedBy_ite (gatedBy_prefix rfl) ?_
    exact gatedBy_decodeOpcode b rest

/-- The encoding of an instruction, behind prefixes of its sizes, is that instruction, gated. -/
theorem decode_encode_gated {i : Instr} (hwf : i.wf = true) (hpre : i.isPrefix = false) (hsz : SizesFit p i)
    (rest : List Byte) : decode p (encode i ++ rest) = gatePrefixes p (.instr i rest) :=
  gatedBy_decode _ i rest ((decodes_encode i (ungated p) hwf (ungated_fit hsz)).instr rest) hpre

end

/-! ## A step from bytes in place -/

/-- A window no shorter than the bytes held begins with them. -/
theorem fetchWindow_append_of_heldFrom {s : State} {bs : List Byte} : ∀ {off n : Nat}, HeldFrom s off bs →
    bs.length ≤ n → ∃ rest, (fetchWindow s off n).1 = bs ++ rest := by
  induction bs with
  | nil => exact fun _ _ => ⟨_, rfl⟩
  | cons b bs ih =>
    intro off n h hn
    cases n with
    | zero => exact absurd hn (Nat.not_succ_le_zero _)
    | succ n =>
      obtain ⟨hlimit, hmapped, hbyte⟩ := h 0 (Nat.succ_pos _)
      rw [Nat.add_zero] at hlimit hmapped hbyte
      obtain ⟨rest, hrest⟩ := ih h.tail (Nat.le_of_succ_le_succ hn)
      refine ⟨rest, ?_⟩
      rw [fetchWindow, if_neg (Nat.not_lt.2 hlimit), if_pos hmapped, hrest, hbyte]
      rfl

/-- The bytes fetched begin with those in place, if the longest instruction has room for them (R110). -/
theorem fetchBytes_of_fetchHolds {s : State} {bs : List Byte} (h : FetchHolds s bs) (h15 : s.pfx.count + bs.length ≤ 15) :
    ∃ rest, (fetchBytes s).1 = bs ++ rest :=
  fetchWindow_append_of_heldFrom (heldFrom_fetchOffset.2 h) (by rw [maxInstructionLength]; omega)

/-- From a state in scope a step runs what was decoded, and then the boundary. -/
theorem step_of_inScope {s : State} (h : outOfScope s = none) :
    step s = afterInstruction (flagT s.flags) (runDecoded (decodeNext s) s) := by
  rw [step, runInstruction_of_inScope h]

/-- Settles O5: the bytes fetched begin with the encoding, which the decoder reads back. -/
theorem stepRunsDecodedInstruction : Obligations.StepRunsDecodedInstruction := by
  unfold Obligations.StepRunsDecodedInstruction
  intro s i hscope hwf hfit h15 hheld
  obtain ⟨rest, hfetch⟩ := fetchBytes_of_fetchHolds hheld h15
  have hdecode : decodeNext s = .instr i rest := by
    rw [decodeNext, hfetch, (decodes_encode i s.pfx hwf hfit).instr]
  rw [step_of_inScope hscope, hdecode, runDecoded]

/-- An encoding in place behind prefixes of its sizes is decoded as its instruction, gated. -/
theorem decodeNext_gated {s : State} {i : Instr} (hwf : i.wf = true) (hpre : i.isPrefix = false)
    (hsz : SizesFit s.pfx i) (h15 : s.pfx.count + (encode i).length ≤ 15) (hheld : FetchHolds s (encode i)) :
    ∃ rest, decodeNext s = gatePrefixes s.pfx (.instr i rest) := by
  obtain ⟨rest, hfetch⟩ := fetchBytes_of_fetchHolds hheld h15
  exact ⟨rest, by rw [decodeNext, hfetch, decode_encode_gated hwf hpre hsz]⟩

/-- Settles O8: the lock prefix makes an invalid opcode of the instruction that is decoded without it. -/
theorem lockPrefixRaisesInvalidOpcode : Obligations.LockPrefixRaisesInvalidOpcode := by
  unfold Obligations.LockPrefixRaisesInvalidOpcode
  intro s i hscope hwf hpre hsz h15 hheld hlock hrep
  obtain ⟨rest, hdecode⟩ := decodeNext_gated hwf hpre hsz h15 hheld
  have hgate : gatePrefixes s.pfx (.instr i rest) = .invalidOpcode := by simp [gatePrefixes, hlock, hrep]
  rw [step_of_inScope hscope, hdecode, hgate, runDecoded]

/-- Settles O9: the repeat prefix makes a refusal of the instruction that is decoded without it. -/
theorem repeatPrefixRefused : Obligations.RepeatPrefixRefused := by
  unfold Obligations.RepeatPrefixRefused
  intro s i hscope hwf hpre hsz h15 hheld hrep
  obtain ⟨rest, hdecode⟩ := decodeNext_gated hwf hpre hsz h15 hheld
  have hgate : gatePrefixes s.pfx (.instr i rest) = .refused .repPrefix := by simp [gatePrefixes, hrep]
  rw [step_of_inScope hscope, hdecode, hgate]
  rfl

/-! ## A SIB byte with a scale and no index -/

/-- A SIB byte with a scale and no index is refused as soon as it is read (R108 (a)). -/
theorem decodeSib_scaleWithoutIndex (md : BitVec 2) {scale : BitVec 2} (base : BitVec 3) (rest : List Byte)
    (h : scale ≠ 0#2) : decodeSib md (packFields scale 4#3 base) rest = .refused .sibNoIndexWithScale := by
  simp [decodeSib, h]

/-- So is the operand it belongs to, in 32-bit address mode. -/
theorem decodeRm_scaleWithoutIndex {p : Prefixes} {md scale : BitVec 2} (base : BitVec 3) (rest : List Byte)
    (had : p.ad32 = true) (hmd : md ≠ 3#2) (h : scale ≠ 0#2) :
    decodeRm p md 4#3 (packFields scale 4#3 base :: rest) = .refused .sibNoIndexWithScale := by
  simp [decodeRm, decodeMem32, take8, Parsed.thenRead, had, hmd, decodeSib_scaleWithoutIndex, h]

/-- A segment-register number below 6 names a segment register (R31). -/
theorem exists_sreg_ofCode {reg : BitVec 3} (h : reg.toNat ≤ 5) : ∃ sr, SReg.ofCode reg = some sr :=
  Option.isSome_iff_exists.1 (by revert reg; decide)

/-- An opcode that takes a `mod`+`r/m` operand is refused where its operand is. -/
theorem decode_refused_of_takesRm {p : Prefixes} {op : Byte} {md : BitVec 2} {reg rm : BitVec 3} {tail : List Byte}
    {r : DecodeRefusal} (htakes : TakesRm op reg) (hgate : p.lock = false ∧ p.rep = false)
    (hrm : decodeRm p md rm tail = .refused r) : decode p (op :: packFields md reg rm :: tail) = .refused r := by
  have hmodRm (k : BitVec 2 → BitVec 3 → BitVec 3 → List Byte → Decoded) :
      withModRm p (packFields md reg rm :: tail) k = k md reg rm tail := by
    rw [withModRm, gatePrefixes_of_none hgate, field76_packFields, field53_packFields, field20_packFields]
  have hsource (h : reg.toNat ≤ 5) : decodeSregSource p md reg rm tail = .refused r := by
    obtain ⟨sr, hsr⟩ := exists_sreg_ofCode h
    simp [decodeSregSource, hsr, hrm, Parsed.thenRead]
  have hdest (h : reg.toNat ≤ 5) (hcs : reg ≠ 1#3) : decodeSregDest p md reg rm tail = .refused r := by
    rw [decodeSregDest, if_neg hcs, hsource h]
  have hC6 : decodeC6 p md 0#3 rm tail = .refused r := by rw [decodeC6, if_pos rfl, hrm]; rfl
  have hC7 : decodeC7 p md 0#3 rm tail = .refused r := by rw [decodeC7, if_pos rfl, hrm]; rfl
  rcases htakes with rfl | rfl | rfl | rfl | ⟨rfl, hreg⟩ | ⟨rfl, hreg, hcs⟩ | ⟨rfl | rfl, rfl⟩
  iterate 4 simp [decode, decodeOpcode, hmodRm, hrm, Parsed.toDecoded]
  · simp [decode, decodeOpcode, hmodRm, hsource hreg, Parsed.toDecoded]
  · simp [decode, decodeOpcode, hmodRm, hdest hreg hcs, Parsed.toDecoded]
  · simp [decode, decodeOpcode, hmodRm, hC6]
  · simp [decode, decodeOpcode, hmodRm, hC7]

/-- Settles O4: the operand is refused at its SIB byte, and every form that takes it with it. -/
theorem sibScaleWithoutIndexRefused : Obligations.SibScaleWithoutIndexRefused := by
  unfold Obligations.SibScaleWithoutIndexRefused
  intro p op md reg scale base rest htakes had hlock hrep hmd hscale
  exact decode_refused_of_takesRm htakes ⟨hlock, hrep⟩ (decodeRm_scaleWithoutIndex base rest had hmd hscale)

end Sys2Proof.Proofs

/-! # Prefix bytes

A prefix byte that completes records itself by one function on the variables of R110's loop; that the order does not
matter is a fact about that function. -/

namespace Sys2Proof.Proofs

open Sys2Proof.Machine
open Sys2Proof.Claims

/-- The variables of the decoder loop after the prefix byte `i` (R110). -/
def recorded (i : Instr) (p : Prefixes) : Prefixes where
  op32 := p.op32 || i == .prefixOperandSize
  ad32 := p.ad32 || i == .prefixAddressSize
  seg := (prefixSeg i).or p.seg
  lock := p.lock || i == .prefixLock
  rep := p.rep || (i == .prefixRepne || i == .prefixRep)
  count := p.count + 1

/-- The prefix byte `i` is no second segment override that names another segment. -/
def AgreesOn (p : Prefixes) (i : Instr) : Prop := ∀ j k, prefixSeg i = some j → p.seg = some k → k = j

/-- A segment override completes if it is the first or names the same segment (R110). -/
theorem recordSegment_of_agrees {j : SReg} {s : State} (h : ∀ k, s.pfx.seg = some k → k = j) :
    recordSegment j s = recordPrefix { s.pfx with seg := some j } s := by
  unfold recordSegment
  cases hseg : s.pfx.seg with
  | none => rfl
  | some k =>
    obtain rfl := h k hseg
    exact (if_pos rfl).trans (by rw [← hseg])

/-- A segment-override byte records the segment it names. -/
theorem exec_of_prefixSeg {i : Instr} {j : SReg} (h : prefixSeg i = some j) (s : State) :
    exec i s = recordSegment j s := by
  unfold prefixSeg at h
  split at h <;> cases h <;> rfl

/-- A prefix byte that agrees with the segment override before it is recorded, and nothing else changes (R101, R102,
R110). -/
theorem exec_prefix {s : State} {i : Instr} (hi : i ∈ prefixInstrs) (h : AgreesOn s.pfx i) :
    exec i s = .next { s with pfx := recorded i s.pfx } := by
  cases i with
  | prefixOperandSize | prefixAddressSize | prefixLock | prefixRepne | prefixRep =>
    simp [exec, execPrefixOperandSize, execPrefixAddressSize, execPrefixLock, execPrefixRepne, execPrefixRep,
      recordPrefix, recorded, prefixSeg]
  | prefixEs | prefixCs | prefixSs | prefixDs | prefixFs | prefixGs =>
    rw [exec_of_prefixSeg rfl, recordSegment_of_agrees fun k => h _ k rfl]
    simp [recordPrefix, recorded, prefixSeg]
  | _ => simp [prefixInstrs] at hi

/-- A second segment override that names another segment is refused (R110). -/
theorem exec_prefix_of_not_agrees {s : State} {i : Instr} (h : ¬AgreesOn s.pfx i) :
    exec i s = .refused .twoSegmentOverrides := by
  simp only [AgreesOn, Classical.not_forall] at h
  obtain ⟨j, k, hj, hk, hne⟩ := h
  rw [exec_of_prefixSeg hj, recordSegment, hk]
  exact if_neg hne

/-- What a prefix byte that completes does. -/
theorem exec_prefix_next {s t : State} {i : Instr} (hi : i ∈ prefixInstrs) (h : exec i s = .next t) :
    AgreesOn s.pfx i ∧ t = { s with pfx := recorded i s.pfx } := by
  by_cases ha : AgreesOn s.pfx i
  · rw [exec_prefix hi ha, Host.Outcome.next.injEq] at h
    exact ⟨ha, h.symm⟩
  · rw [exec_prefix_of_not_agrees ha] at h
    cases h

/-- Settles O10. -/
theorem prefixBytesAreRecorded : Obligations.PrefixBytesAreRecorded := by
  unfold Obligations.PrefixBytesAreRecorded
  intro s i hi h
  exact ⟨recorded i s.pfx, exec_prefix hi h, rfl, rfl, rfl, rfl, (Bool.or_assoc _ _ _).symm, rfl⟩

/-- Settles O11. -/
theorem secondSegmentOverrideRefused : Obligations.SecondSegmentOverrideRefused := by
  unfold Obligations.SecondSegmentOverrideRefused
  intro s i j k hj hk hne
  exact exec_prefix_of_not_agrees fun h => hne (h j k hj hk)

/-! ## The order of the prefixes -/

section
variable {p : Prefixes} {i j : Instr}

/-- A prefix that may come before another may come after it. -/
theorem AgreesOn.swap (hi : AgreesOn p i) (hj : AgreesOn (recorded i p) j) : AgreesOn (recorded j p) i := by
  intro a k ha hk
  cases hb : prefixSeg j with
  | none => exact hi a k ha (by simpa [recorded, hb] using hk)
  | some b =>
    obtain rfl : b = k := by simpa [recorded, hb] using hk
    exact (hj b a hb (by simp [recorded, ha])).symm

/-- Of two prefixes that agree either may be recorded first. -/
theorem recorded_comm (hj : AgreesOn (recorded i p) j) : recorded j (recorded i p) = recorded i (recorded j p) := by
  have hseg : (prefixSeg j).or ((prefixSeg i).or p.seg) = (prefixSeg i).or ((prefixSeg j).or p.seg) := by
    cases ha : prefixSeg i with
    | none => rfl
    | some a =>
      cases hb : prefixSeg j with
      | none => rfl
      | some b => rw [hj b a hb (by simp [recorded, ha])]
  simp only [recorded, hseg, Bool.or_comm, Bool.or_left_comm]

/-- A prefix agrees with itself. -/
theorem agreesOn_recorded_self : AgreesOn (recorded i p) i := by
  intro a k ha hk
  simpa [recorded, ha, eq_comm] using hk

/-- A repeated prefix adds only to the count. -/
theorem recorded_recorded_self : { recorded i (recorded i p) with count := (recorded i p).count } = recorded i p := by
  cases h : prefixSeg i <;> simp [recorded, h, Bool.or_comm, Bool.or_left_comm]

end

/-- Settles O12: what the bytes record commutes, and recording one twice adds only to the count. -/
theorem prefixOrderDoesNotMatter : Obligations.PrefixOrderDoesNotMatter := by
  unfold Obligations.PrefixOrderDoesNotMatter
  intro s t u t' i j hi hj hst htu hst'
  obtain ⟨hai, rfl⟩ := exec_prefix_next hi hst
  obtain ⟨haj, rfl⟩ := exec_prefix_next hj htu
  obtain ⟨-, rfl⟩ := exec_prefix_next hj hst'
  refine ⟨?_, _, exec_prefix hi agreesOn_recorded_self, rfl, ?_⟩
  · rw [exec_prefix hi (hai.swap haj), recorded_comm haj]
  · rw [recorded_recorded_self]

end Sys2Proof.Proofs

/-! # Effective addresses, segments, and the two encodings of a register-to-register MOV -/

namespace Sys2Proof.Proofs

open Sys2Proof.Machine
open Sys2Proof.Claims

/-! ## Displacements -/

/-- A sign-extended value is the signed value, modulo the width (R111). -/
theorem toNat_signExtend_emod {w : Nat} (v : BitVec w) (n : Nat) :
    ((v.signExtend n).toNat : Int) = v.toInt % (2 ^ n : Nat) := by
  have hpow : ((2 ^ n : Nat) : Int) ≠ 0 := Int.ofNat_ne_zero.2 (Nat.ne_of_gt (Nat.two_pow_pos n))
  rw [BitVec.signExtend, BitVec.toNat_ofInt, Int.toNat_of_nonneg (Int.emod_nonneg _ hpow)]

/-- The displacement `d` of a 16-bit form has the signed value `x`. -/
def Disp16Is (d : Disp16) (x : Int) : Prop :=
  (d = .none ∧ x = 0) ∨ (∃ b, d = .d8 b ∧ x = b.toInt) ∨ (∃ w, d = .d16 w ∧ x = w.toNat)

/-- The displacement `d` of a 32-bit form has the signed value `x`. -/
def Disp32Is (d : Disp32) (x : Int) : Prop :=
  (d = .none ∧ x = 0) ∨ (∃ b, d = .d8 b ∧ x = b.toInt) ∨ (∃ w, d = .d32 w ∧ x = w.toNat)

theorem toNat_dispValue16 {d : Disp16} {x : Int} (h : Disp16Is d x) :
    ((dispValue16 d).toNat : Int) = x % 65536 := by
  rcases h with ⟨rfl, rfl⟩ | ⟨b, rfl, rfl⟩ | ⟨w, rfl, rfl⟩
  · rfl
  · exact toNat_signExtend_emod b 16
  · have := w.isLt
    simp only [dispValue16]
    omega

theorem toNat_dispValue32 {d : Disp32} {x : Int} (h : Disp32Is d x) :
    ((dispValue32 d).toNat : Int) = x % 4294967296 := by
  rcases h with ⟨rfl, rfl⟩ | ⟨b, rfl, rfl⟩ | ⟨w, rfl, rfl⟩
  · rfl
  · exact toNat_signExtend_emod b 32
  · have := w.isLt
    simp only [dispValue32]
    omega

/-! ## 16-bit address mode -/

/-- A 16-bit register reads as its 16 bits. -/
theorem toNat_readX_w (g : Gprs) (i : RegNum) : (readX .w i g).toNat = (reg16 g i).toNat := by
  have := (reg16 g i).isLt
  rw [readX, BitVec.toNat_setWidth]
  exact Nat.mod_eq_of_lt (by unfold reg16 at this; omega)

/-- The effective address is the register sum plus the displacement, modulo 2^16 (R62, R105). -/
theorem toNat_effAddr_form16 (g : Gprs) (f : Form16) {d : Disp16} {x : Int} (h : Disp16Is d x) :
    ((effAddr g (.form16 f d)).toNat : Int) = ((formSum g f).toNat + x) % 65536 := by
  have hd := toNat_dispValue16 h
  simp only [effAddr, BitVec.toNat_setWidth, BitVec.toNat_add]
  omega

/-- Settles O24: the sum of two registers is itself one modulo 2^16. -/
theorem effectiveAddress16 : Obligations.EffectiveAddress16 := by
  unfold Obligations.EffectiveAddress16
  intro g d x hd
  have haddr (f : Form16) := toNat_effAddr_form16 g f hd
  simp only [haddr, toNat_readX_w, formSum, BitVec.toNat_add, true_and]
  refine ⟨by omega, by omega, by omega, by omega, fun w => ?_⟩
  have := w.isLt
  simp only [effAddr, BitVec.toNat_setWidth]
  omega

/-! ## 32-bit address mode -/

/-- A scaled index is the index times a power of two, modulo 2^32 (R107). -/
theorem toNat_scaledIndex (g : Gprs) (scale : BitVec 2) (i : RegNum) :
    (scaledIndex g scale (some i)).toNat = (readGpr g i).toNat * 2 ^ scale.toNat % 4294967296 := by
  rw [scaledIndex, BitVec.toNat_shiftLeft, Nat.shiftLeft_eq]

/-- The effective address is base, scaled index and displacement, modulo 2^32 (R62, R107). -/
theorem toNat_effAddr_sib (g : Gprs) (scale : BitVec 2) (index : Option RegNum) (b : RegNum) {d : Disp32} {x : Int}
    (h : Disp32Is d x) : ((effAddr g (.sib scale index b d)).toNat : Int) =
      ((readGpr g b).toNat + (scaledIndex g scale index).toNat + x) % 4294967296 := by
  have hd := toNat_dispValue32 h
  simp only [effAddr, BitVec.toNat_add]
  omega

/-- Settles O25: without an index the scaled index is 0. -/
theorem effectiveAddress32 : Obligations.EffectiveAddress32 := by
  unfold Obligations.EffectiveAddress32
  intro g b scale d x hd
  have hdisp := toNat_dispValue32 hd
  refine ⟨?_, ?_, fun i => ?_, fun i w => ?_, fun w => ⟨BitVec.zero_add w, rfl⟩⟩
  · simp only [effAddr, BitVec.toNat_add]
    omega
  · rw [toNat_effAddr_sib g scale none b hd]
    simp [scaledIndex]
  · have hscaled : (((readGpr g i).toNat * 2 ^ scale.toNat : Nat) : Int) = (readGpr g i).toNat * 2 ^ scale.toNat := by
      rw [Int.natCast_mul, Int.natCast_pow]
      rfl
    rw [toNat_effAddr_sib g scale (some i) b hd, toNat_scaledIndex, ← hscaled]
    omega
  · rw [effAddr, BitVec.toNat_add, toNat_scaledIndex]
    omega

/-! ## The segment -/

/-- In 32-bit address mode SS is the default exactly for a base register ESP or EBP (R109). -/
theorem ite_stackBase_eq_ss (b : RegNum) : (if stackBase b then SReg.ss else .ds) = .ss ↔ b = 4#3 ∨ b = 5#3 := by
  have hbase : stackBase b = true ↔ b = 4#3 ∨ b = 5#3 := by simp [stackBase]
  rw [← hbase]
  cases stackBase b <;> simp

/-- SS is the default exactly for a base register BP, EBP or ESP (R109). -/
theorem defaultSeg_eq_ss (m : MemOp) : defaultSeg m = .ss ↔
    (∃ f d, m = .form16 f d ∧ (f = .bpSi ∨ f = .bpDi ∨ f = .bp)) ∨
    (∃ b d, m = .base32 b d ∧ (b = 4#3 ∨ b = 5#3)) ∨
    (∃ c i b d, m = .sib c i b d ∧ (b = 4#3 ∨ b = 5#3)) := by
  cases m with
  | form16 f d => cases f <;> simp [defaultSeg]
  | base32 b d =>
    rw [defaultSeg, ite_stackBase_eq_ss]
    refine ⟨fun h => .inr (.inl ⟨b, d, rfl, h⟩), ?_⟩
    rintro (⟨_, _, ⟨⟩, -⟩ | ⟨_, _, ⟨⟩, h⟩ | ⟨_, _, _, _, ⟨⟩, -⟩)
    exact h
  | sib c i b d =>
    rw [defaultSeg, ite_stackBase_eq_ss]
    refine ⟨fun h => .inr (.inr ⟨c, i, b, d, rfl, h⟩), ?_⟩
    rintro (⟨_, _, ⟨⟩, -⟩ | ⟨_, _, ⟨⟩, -⟩ | ⟨_, _, _, _, ⟨⟩, h⟩)
    exact h
  | direct16 | direct32 | sibNoBase => simp [defaultSeg]

/-- The default segment is SS or DS. -/
theorem defaultSeg_cases (m : MemOp) : defaultSeg m = .ss ∨ defaultSeg m = .ds := by
  unfold defaultSeg
  split <;> simp

/-- Settles O26: an override names the segment, and without one it is the default. -/
theorem defaultSegment : Obligations.DefaultSegment := by
  unfold Obligations.DefaultSegment
  intro s m
  refine ⟨fun j hj => by simp [memSeg, moffsSeg, chooseSeg, hj], fun hnone => ?_⟩
  have hmem : memSeg s m = defaultSeg m := by simp [memSeg, chooseSeg, hnone]
  have hmoffs : moffsSeg s = .ds := by simp [moffsSeg, chooseSeg, hnone]
  rw [hmem]
  exact ⟨hmoffs, defaultSeg_cases m, defaultSeg_eq_ss m⟩

/-! ## Two encodings of one MOV -/

/-- Settles O38: either encoding reads the one register and writes the other, in two bytes. -/
theorem directionBitIsRedundant : Obligations.DirectionBitIsRedundant := by
  unfold Obligations.DirectionBitIsRedundant
  exact fun s a b => ⟨rfl, fun sz => rfl⟩

end Sys2Proof.Proofs

/-! # The entry of a handler

Where nothing stands in its way an entry (60_exceptions.md R223) is three pushes and two loads from the table, each of
which answers. The slots pushed are two bytes each, at SP - 2, SP - 4 and SP - 6, and share no byte. -/

namespace Sys2Proof.Proofs

open Sys2Proof.Machine
open Sys2Proof.Claims

/-! ## One push -/

/-- The state after the word `v` was pushed. -/
def afterPush (v : BitVec 16) (s : State) : State :=
  { setX .w 4#3 ((sp16 s - 2#16).setWidth 32) s with
    mem := storeBytes s.cfg s.mem (pushAddr s 2#16) 2 (v.setWidth 32) }

section
variable (v : BitVec 16) (s : State)

@[simp] theorem afterPush_seg : (afterPush v s).seg = s.seg := rfl
@[simp] theorem afterPush_cfg : (afterPush v s).cfg = s.cfg := rfl
@[simp] theorem afterPush_flags : (afterPush v s).flags = s.flags := rfl

/-- A push writes SP and no other register. -/
theorem regReceives_afterPush : RegReceives .w 4#3 ((sp16 s - 2#16).setWidth 32) s (afterPush v s) :=
  regReceives_setX .w 4#3 _ s

/-- SP moves down by two, modulo 2^16. -/
@[simp] theorem sp16_afterPush : sp16 (afterPush v s) = sp16 s - 2#16 := by
  rw [sp16, (regReceives_afterPush v s).1, BitVec.extractLsb'_setWidth_of_le (by decide), BitVec.extractLsb'_eq_self]

/-- A slot below the new SP is one further below the old SP. -/
@[simp] theorem pushAddr_afterPush (k : BitVec 16) : pushAddr (afterPush v s) k = pushAddr s (2#16 + k) := by
  rw [pushAddr, sp16_afterPush, BitVec.sub_sub]
  rfl

theorem pushFits_afterPush (k : BitVec 16) : PushFits k (afterPush v s) ↔ PushFits (2#16 + k) s := by
  simp only [PushFits, pushAddr_afterPush, sp16_afterPush, afterPush_seg, afterPush_cfg, BitVec.sub_sub]

theorem pushed_afterPush (k w : BitVec 16) (t : State) : Pushed k w (afterPush v s) t ↔ Pushed (2#16 + k) w s t := by
  simp only [Pushed, pushAddr_afterPush, afterPush_cfg]

variable {v s}

/-- A push of a word that fits answers (R223). -/
theorem push16_of_fits (h : PushFits 2#16 s) : push16 v s = .ok (afterPush v s) := by
  rw [push16_eq_ok]
  refine ⟨decide_eq_true ?_, (allMapped_eq_true s.cfg 2 _).2 h.2, rfl⟩
  have hsp : ((sp16 s - 2#16).setWidth 32).toNat = (sp16 s - 2#16).toNat :=
    BitVec.toNat_setWidth_of_le (by decide)
  exact hsp.symm ▸ h.1

theorem wf_afterPush (hw : s.mem.wf = true) : (afterPush v s).mem.wf = true := wf_storeBytes _ _ _ _ _ hw

/-- The word pushed stands in its slot. -/
theorem pushed_afterPush_self (hw : s.mem.wf = true) : Pushed 2#16 v s (afterPush v s) := by
  intro b hb
  rw [afterPush, readCell_storeBytes_at s.cfg 2 s.mem _ _ hw (by decide) b hb]
  exact BitVec.extractLsb'_setWidth_of_le (by omega)

/-- A byte outside the slot is as before. -/
theorem readCell_afterPush {p : Nat} (hw : s.mem.wf = true)
    (h : ∀ b < 2, p ≠ physAddr s.cfg (pushAddr s 2#16 + BitVec.ofNat 32 b)) :
    readCell (afterPush v s).mem p = readCell s.mem p :=
  readCell_storeBytes_other s.cfg p 2 s.mem _ _ hw h

end

/-! ## Three pushes -/

/-- Slots of two bytes whose offsets in SS are two or more apart, modulo 2^16, share no byte: their offsets lie below
2^20, where no two addresses are one (R63). -/
theorem slot_ne (s : State) {k l : BitVec 16} (hkl : 2 ≤ (k - l).toNat) (hlk : 2 ≤ (l - k).toNat) {b c : Nat}
    (hb : b < 2) (hc : c < 2) :
    physAddr s.cfg (pushAddr s k + BitVec.ofNat 32 b) ≠ physAddr s.cfg (pushAddr s l + BitVec.ofNat 32 c) := by
  have hslot (m : BitVec 16) (d : Nat) : pushAddr s m + BitVec.ofNat 32 d =
      (readSeg s.seg .ss).base + BitVec.ofNat 32 ((sp16 s - m).toNat + d) := by
    rw [pushAddr, BitVec.add_assoc, BitVec.ofNat_add, BitVec.ofNat_toNat]
  have hne : (sp16 s - k).toNat + b ≠ (sp16 s - l).toNat + c := by bv_omega
  have hk := (sp16 s - k).isLt
  have hl := (sp16 s - l).isLt
  rw [hslot, hslot]
  rcases Nat.lt_or_gt_of_ne hne with hlt | hgt
  · exact physAddr_add_ne s.cfg _ hlt (by omega)
  · exact (physAddr_add_ne s.cfg _ hgt (by omega)).symm

/-- A word pushed stays in its slot under a push further down. -/
theorem pushed_under_push {k l v w : BitVec 16} {s t : State} (h : Pushed k w s t) (hw : t.mem.wf = true)
    (hcfg : t.cfg = s.cfg) (haddr : pushAddr t 2#16 = pushAddr s l) (hkl : 2 ≤ (k - l).toNat)
    (hlk : 2 ≤ (l - k).toNat) : Pushed k w s (afterPush v t) := by
  intro b hb
  rw [readCell_afterPush hw, h b hb]
  intro c hc
  rw [hcfg, haddr]
  exact slot_ne s hkl hlk hb hc

/-- The state after FLAGS, CS and the saved IP were pushed. -/
def afterPushes (ip : Word) (s : State) : State :=
  afterPush (ip.extractLsb' 0 16) (afterPush s.seg.cs.sel (afterPush (readFlags16 s.flags) s))

section
variable (ip : Word) {s : State}

/-- SP is down by six, modulo 2^16. -/
theorem sp16_afterPushes : sp16 (afterPushes ip s) = sp16 s - 6#16 := by
  simp only [afterPushes, sp16_afterPush, BitVec.sub_sub]
  rfl

/-- No other register, and no other bit of ESP, changed. -/
theorem otherRegs_afterPushes :
    (readGpr (afterPushes ip s).gpr 4#3).extractLsb' 16 16 = (readGpr s.gpr 4#3).extractLsb' 16 16 ∧
      OtherRegs 4#3 s (afterPushes ip s) := by
  obtain ⟨-, hhigh1, hother1⟩ := regReceives_afterPush (readFlags16 s.flags) s
  obtain ⟨-, hhigh2, hother2⟩ := regReceives_afterPush s.seg.cs.sel (afterPush _ s)
  obtain ⟨-, hhigh3, hother3⟩ := regReceives_afterPush (ip.extractLsb' 0 16) (afterPush _ (afterPush _ s))
  exact ⟨hhigh3.trans (hhigh2.trans hhigh1),
    fun j hj => (hother3 j hj).trans ((hother2 j hj).trans (hother1 j hj))⟩

/-- The three words stand in their slots. -/
theorem pushed_afterPushes (hw : s.mem.wf = true) :
    Pushed 2#16 (readFlags16 s.flags) s (afterPushes ip s) ∧ Pushed 4#16 s.seg.cs.sel s (afterPushes ip s) ∧
      Pushed 6#16 (ip.extractLsb' 0 16) s (afterPushes ip s) := by
  have hw1 := wf_afterPush (v := readFlags16 s.flags) hw
  have hw2 := wf_afterPush (v := s.seg.cs.sel) hw1
  have haddr4 (flags : BitVec 16) : pushAddr (afterPush flags s) 2#16 = pushAddr s 4#16 := pushAddr_afterPush flags s 2#16
  have haddr6 (flags cs : BitVec 16) : pushAddr (afterPush cs (afterPush flags s)) 2#16 = pushAddr s 6#16 := by
    rw [pushAddr_afterPush, pushAddr_afterPush]
    rfl
  have hflags : Pushed 2#16 (readFlags16 s.flags) s (afterPush _ s) := pushed_afterPush_self hw
  have hcs : Pushed 4#16 s.seg.cs.sel s (afterPush _ (afterPush (readFlags16 s.flags) s)) :=
    (pushed_afterPush _ s 2#16 _ _).1 (pushed_afterPush_self hw1)
  have hip : Pushed 6#16 (ip.extractLsb' 0 16) s (afterPushes ip s) :=
    (pushed_afterPush _ s 4#16 _ _).1 ((pushed_afterPush _ _ 2#16 _ _).1 (pushed_afterPush_self hw2))
  exact ⟨pushed_under_push (pushed_under_push hflags hw1 rfl (haddr4 _) (by decide) (by decide)) hw2 rfl (haddr6 _ _)
    (by decide) (by decide), pushed_under_push hcs hw2 rfl (haddr6 _ _) (by decide) (by decide), hip⟩

/-- A byte outside the three slots is as before. -/
theorem readCell_afterPushes (hw : s.mem.wf = true) {p : Nat}
    (h : ∀ k : BitVec 16, k = 2#16 ∨ k = 4#16 ∨ k = 6#16 → ∀ b < 2,
      p ≠ physAddr s.cfg (pushAddr s k + BitVec.ofNat 32 b)) :
    readCell (afterPushes ip s).mem p = readCell s.mem p := by
  have hw1 := wf_afterPush (v := readFlags16 s.flags) hw
  have hw2 := wf_afterPush (v := s.seg.cs.sel) hw1
  rw [afterPushes, readCell_afterPush hw2, readCell_afterPush hw1, readCell_afterPush hw]
  · exact h 2#16 (.inl rfl)
  · rw [pushAddr_afterPush]
    exact h 4#16 (.inr (.inl rfl))
  · rw [pushAddr_afterPush, pushAddr_afterPush]
    exact h 6#16 (.inr (.inr rfl))

end

/-! ## The entry -/

/-- The state whose CS and IP an entry loads from the table: the words are pushed, I and T cleared. -/
def beforeJump (ip : Word) (s : State) : State :=
  { afterPushes ip s with flags := clearIT s.flags }

/-- The state after CS and IP were loaded from the table's entry at `a`. -/
def afterJump (a : Word) (s : State) : State :=
  { loadSeg .cs ((loadBytes s (a + 2#32) 2).setWidth 16) s with ip := loadBytes s a 2 }

/-- The state after an entry with nothing in its way. -/
def afterEntry (v : Byte) (ip : Word) (s : State) : State := afterJump (tableAddr s v) (beforeJump ip s)

/-- A read depends on memory and the parameters alone. -/
theorem loadBytes_congr {s t : State} (hmem : t.mem = s.mem) (hcfg : t.cfg = s.cfg) :
    ∀ (n : Nat) (a : Word), loadBytes t a n = loadBytes s a n
  | 0, _ => rfl
  | n + 1, a => by rw [loadBytes, loadBytes, loadBytes_congr hmem hcfg n, readLinear, readLinear, hmem, hcfg]

/-- The table reads the same after the jump. -/
theorem loadBytes_afterJump (a : Word) (s : State) (b : Word) (n : Nat) :
    loadBytes (afterJump a s) b n = loadBytes s b n :=
  loadBytes_congr (s := s) (t := afterJump a s) rfl rfl n b

/-- Two bytes read are 16 bits. -/
theorem setWidth_loadBytes_two (s : State) (a : Word) :
    ((loadBytes s a 2).setWidth 16).setWidth 32 = loadBytes s a 2 := by
  rw [loadBytes_two, BitVec.setWidth_setWidth_of_le (l := 32) (k := 16) _ (by decide), BitVec.setWidth_eq]

/-- The jump goes where the table's entry says: IP is its first word, CS its second (R223). -/
theorem target_afterJump (a : Word) (s : State) :
    (afterJump a s).ip = loadBytes (afterJump a s) a 2 ∧
      (readSeg (afterJump a s).seg .cs).sel.setWidth 32 = loadBytes (afterJump a s) (a + 2#32) 2 := by
  rw [loadBytes_afterJump, loadBytes_afterJump]
  exact ⟨rfl, setWidth_loadBytes_two s (a + 2#32)⟩

section
variable {v : Byte} {s : State}

/-- Three pushes that fit, one after the other, lead to the jump (R223). -/
theorem enterHandler_of_fits (ip : Word) (htable : 4 * v.toNat + 3 ≤ s.sys.idtr.limit.toNat) (h2 : PushFits 2#16 s)
    (h4 : PushFits 4#16 s) (h6 : PushFits 6#16 s) :
    enterHandler v ip s = jumpThroughTable v (beforeJump ip s) := by
  have htable' : ¬v.toNat * 4 + 3 > s.sys.idtr.limit.toNat := by omega
  have hfits4 (w : BitVec 16) : PushFits 2#16 (afterPush w s) := (pushFits_afterPush w s 2#16).2 h4
  have hfits6 (w w' : BitVec 16) : PushFits 2#16 (afterPush w' (afterPush w s)) :=
    (pushFits_afterPush w' _ 2#16).2 ((pushFits_afterPush w s 4#16).2 h6)
  simp only [enterHandler, if_neg htable', push16_of_fits h2, push16_of_fits (hfits4 _), push16_of_fits (hfits6 _ _)]
  rfl

/-- An entry with nothing in its way succeeds (R223). -/
theorem enterHandler_of_canEnter (ip : Word) (h : CanEnter v s) : enterHandler v ip s = .ok (afterEntry v ip s) := by
  have hfits (k : BitVec 16) (hk : k = 2#16 ∨ k = 4#16 ∨ k = 6#16) : PushFits k s := ⟨h.stack k hk, h.stackMapped k hk⟩
  have hip : allMapped s.cfg (tableAddr s v) 2 = true :=
    (allMapped_eq_true s.cfg 2 _).2 fun b hb => h.tableMapped b (by omega)
  have hcs : allMapped s.cfg (tableAddr s v + 2#32) 2 = true := by
    refine (allMapped_eq_true s.cfg 2 _).2 fun b hb => ?_
    have hmapped := h.tableMapped (2 + b) (by omega)
    rwa [BitVec.ofNat_add, ← BitVec.add_assoc] at hmapped
  rw [enterHandler_of_fits ip h.table (hfits _ (.inl rfl)) (hfits _ (.inr (.inl rfl))) (hfits _ (.inr (.inr rfl)))]
  exact jumpThroughTable_eq_ok.2 ⟨hip, hcs, rfl⟩

/-- What an entry between two instructions leads to is what R223 says. -/
theorem entered_afterEntry (ip : Word) (hw : s.mem.wf = true) (hpfx : s.pfx = Prefixes.none) :
    Entered v ip s (afterEntry v ip s) := by
  obtain ⟨hhigh, hother⟩ := otherRegs_afterPushes ip (s := s)
  obtain ⟨hflags, hcs, hip⟩ := pushed_afterPushes ip hw
  obtain ⟨htargetIp, htargetCs⟩ := target_afterJump (tableAddr s v) (beforeJump ip s)
  exact {
    sp := sp16_afterPushes ip
    espHigh := hhigh
    otherRegs := hother
    pushedFlags := hflags
    pushedCs := hcs
    pushedIp := hip
    otherMemory := fun p hp => readCell_afterPushes ip hw hp
    flags := fun b => (getLsbD_clearIT s.flags b).trans (Bool.and_assoc _ _ _).symm
    ip := htargetIp
    csSel := htargetCs
    csBase := toNat_base_loadSegReg _ _
    csLimit := rfl
    otherSegs := fun j hj => readSeg_writeSeg_of_ne s.seg _ hj
    pfx := hpfx
    draws := rfl
    inhibit := rfl
    system := ⟨rfl, rfl, rfl, rfl, rfl, rfl, rfl, rfl, rfl⟩ }

/-- A fault with nothing in the way of its entry leads to the handler, with `ip` of the first byte of the instruction
saved (R220, R223). -/
theorem raiseFault_entered {e : Exc} (hw : s.mem.wf = true) (h : CanEnter (vectorOf e) s) :
    ∃ t, raiseFault e s = .next t ∧ Entered (vectorOf e) s.ip s t := by
  have hcan : CanEnter (vectorOf e) (endInstruction s) := { h with }
  have hentered := entered_afterEntry (s := endInstruction s) (v := vectorOf e) s.ip hw rfl
  refine ⟨afterEntry (vectorOf e) s.ip (endInstruction s), ?_, { hentered with system := { hentered.system with } }⟩
  exact takeException_eq_next.2 ⟨h.on, enterHandler_of_canEnter s.ip hcan⟩

end

/-- Settles O53: each of these forms is a fault of InvalidOpcode alone. -/
theorem invalidOpcodeEncodingsEnterHandler : Obligations.InvalidOpcodeEncodingsEnterHandler := by
  unfold Obligations.InvalidOpcodeEncodingsEnterHandler
  intro s md reg rm hw hcan
  have hfault : ∃ t, raiseFault .invalidOpcode s = .next t ∧ Entered 6#8 s.ip s t := raiseFault_entered hw hcan
  constructor
  · rintro i (rfl | rfl | rfl) <;> exact hfault
  · rintro i (⟨sz, rfl⟩ | rfl | ⟨op, rfl⟩) hon
    · rwa [exec, execMovRm16Sreg, if_pos hon]
    · rwa [exec, execMovSregRm16, if_pos hon]
    · rwa [exec, execMovSregRm16, if_pos hon]

end Sys2Proof.Proofs

/-! # MOV: results and frames

Where its bytes are accessible an operand answers. An instruction that then writes one operand and completes has the
frame of a MOV, whatever value it moves. -/

namespace Sys2Proof.Proofs

open Sys2Proof.Machine
open Sys2Proof.Claims

/-! ## Operands that can be accessed -/

section
variable {s : State} {j : SReg} {off : Word} {n : Nat} {sz : Size} {rm : Rm}

/-- Bytes that can be read are read (R64). -/
theorem segRead_of_canRead (h : CanRead s j off n) : segRead s j off n = .ok (loadBytes s (linear s j off) n) :=
  segRead_eq_ok.2 ⟨decide_eq_true h.1, (allMapped_eq_true s.cfg n _).2 h.2, rfl⟩

/-- Bytes that can be written are stored (R64, R81). -/
theorem dataWrite_of_canWrite (h : CanWrite s j off n) (v : Word) :
    dataWrite s j off n v = .ok { s with mem := storeBytes s.cfg s.mem (linear s j off) n v } := by
  obtain ⟨⟨hlimit, hmapped⟩, htext⟩ := h
  have hclear : anyProgramText s.cfg (linear s j off) n = false := by
    rw [← Bool.not_eq_true, anyProgramText_eq_true]
    rintro ⟨k, hk, hin⟩
    exact Bool.false_ne_true ((htext k hk).symm.trans hin)
  exact dataWrite_eq_ok.2 ⟨decide_eq_true hlimit, hclear, (allMapped_eq_true s.cfg n _).2 hmapped, rfl⟩

/-- An operand that can be read has its value (R169). -/
theorem readRm_of_readable (h : OperandReadable sz rm s) : readRm sz rm s = .ok (OperandValue sz rm s) := by
  cases rm with
  | reg i => rfl
  | mem m => exact segRead_of_canRead h

end

/-- An operand has at most four bytes. -/
theorem sizeBytes_le_four (sz : Size) : sizeBytes sz ≤ 4 := by cases sz <;> decide

/-! ## Completion and frame -/

section
variable {s : State} {i : Instr} {len : Nat} (hlen : (encode i).length = len)
include hlen

/-- An instruction that changes general registers and memory alone, and completes, has the frame of a MOV. -/
theorem moveFrame_complete (g : Gprs) (m : Memory) : MoveFrame i s (complete len { s with gpr := g, mem := m }) where
  completed := ⟨by rw [hlen]; rfl, rfl⟩
  flags := rfl
  seg := rfl
  inhibit := rfl
  system := ⟨rfl, rfl, rfl, rfl, rfl, rfl, rfl, rfl, rfl⟩

/-- An instruction that writes one register and completes gives it the value. -/
theorem registerReceives_of_exec {sz : Size} {r : RegNum} {v : Word}
    (hexec : exec i s = .next (complete len (setX sz r v s))) : RegisterReceives sz r v i s :=
  ⟨_, hexec, moveFrame_complete hlen _ _, rfl, regReceives_setX sz r v s, fun _ => rfl⟩

/-- An instruction that stores at an address and completes gives those bytes the value. -/
theorem bytesReceive_of_exec {a v : Word} {n : Nat} (hw : s.mem.wf = true) (hn : n ≤ 4)
    (hexec : exec i s = .next (complete len { s with mem := storeBytes s.cfg s.mem a n v })) :
    BytesReceive a n v i s :=
  ⟨_, hexec, moveFrame_complete hlen _ _, rfl, memoryReceives_storeBytes s a v hw hn, rfl⟩

/-- An instruction that loads a register with an operand that can be read (R163, R164). -/
theorem registerReceives_of_loadReg {sz : Size} {r : RegNum} {rm : Rm} (h : OperandReadable sz rm s)
    (hexec : exec i s = finish len s (loadReg sz r s (readRm sz rm s))) :
    RegisterReceives sz r (OperandValue sz rm s) i s :=
  registerReceives_of_exec hlen (by rw [hexec, readRm_of_readable h, loadReg, finish])

/-- An instruction that writes an operand that can be written: a register, or the bytes at its address (R161, R162,
R167, R168). -/
theorem operandReceives_of_writeRm {sz : Size} {rm : Rm} {v : Word} (hw : s.mem.wf = true)
    (h : OperandWritable sz rm s) (hexec : exec i s = finish len s (writeRm sz rm v s)) :
    OperandReceives sz rm v i s := by
  cases rm with
  | reg r => exact registerReceives_of_exec hlen hexec
  | mem m =>
    refine bytesReceive_of_exec hlen hw (sizeBytes_le_four sz) ?_
    rw [hexec, writeRm, dataWrite_of_canWrite h, finish]
    rfl

end

/-! ## The forms -/

/-- A form that is its opcode and its operand takes one byte more than the operand. -/
theorem length_opcode_rm (op : Byte) (reg : BitVec 3) (rm : Rm) : (op :: rm.encode reg).length = 1 + rm.len := by
  rw [List.length_cons, length_rm, Nat.add_comm]

/-- An immediate after the operand adds its own length. -/
theorem length_opcode_rm_imm (op : Byte) (reg : BitVec 3) (rm : Rm) (imm : List Byte) :
    (op :: (rm.encode reg ++ imm)).length = 1 + rm.len + imm.length := by
  rw [← List.cons_append, List.length_append, length_opcode_rm]

/-- Settles O28: 88h and 89h write their operand with the register. -/
theorem movRegisterToOperand : Obligations.MovRegisterToOperand := by
  unfold Obligations.MovRegisterToOperand
  intro s rm reg hw
  exact ⟨fun h => operandReceives_of_writeRm (by rw [encode, length_opcode_rm]) hw h rfl,
    fun sz h => operandReceives_of_writeRm (by rw [encode, length_opcode_rm]) hw h rfl⟩

/-- Settles O29: 8Ah and 8Bh load the register with their operand. -/
theorem movOperandToRegister : Obligations.MovOperandToRegister := by
  unfold Obligations.MovOperandToRegister
  intro s rm reg
  exact ⟨fun h => registerReceives_of_loadReg (by rw [encode, length_opcode_rm]) h rfl,
    fun sz h => registerReceives_of_loadReg (by rw [encode, length_opcode_rm]) h rfl⟩

/-- Settles O30: B0h to BFh write their register, which never fails. -/
theorem movImmediateToRegister : Obligations.MovImmediateToRegister := by
  unfold Obligations.MovImmediateToRegister
  intro s reg
  exact ⟨fun imm => registerReceives_of_exec (len := 2) rfl rfl,
    fun imm => registerReceives_of_exec (len := 3) rfl rfl, fun imm => registerReceives_of_exec (len := 5) rfl rfl⟩

/-- Settles O31: C6h and C7h, with `reg` 000b, write their operand with the immediate. -/
theorem movImmediateToOperand : Obligations.MovImmediateToOperand := by
  unfold Obligations.MovImmediateToOperand
  intro s rm hw
  have hlen8 (imm : Byte) : (encode (.movRm8Imm8 rm imm)).length = 2 + rm.len := by
    rw [encode, length_opcode_rm_imm, List.length_singleton, Nat.add_right_comm]
  have hlen (imm : ImmW) : (encode (.movRmImm rm imm)).length = 1 + rm.len + imm.len := by
    rw [encode, length_opcode_rm_imm, length_immW]
  exact ⟨fun imm h => operandReceives_of_writeRm (hlen8 imm) hw h rfl,
    fun imm h => operandReceives_of_writeRm (hlen (.i16 imm)) hw h rfl,
    fun imm h => operandReceives_of_writeRm (hlen (.i32 imm)) hw h rfl⟩

/-! ## Words written out in the spec -/

/-- Settles O3: the decoder is run on each word. -/
theorem specWordsDecode : Obligations.SpecWordsDecode := by
  unfold Obligations.SpecWordsDecode
  decide

end Sys2Proof.Proofs

/-! # MOV: the other forms

The segment-register and the memory-offset forms have the frame of a MOV, so that their statements follow from what an
accessible operand answers. A special-register move has a frame of its own, which is the same for all six: each is
`guardSpecial` around its action, and an action that completes ends in `completeSpecial`. -/

namespace Sys2Proof.Proofs

open Sys2Proof.Machine
open Sys2Proof.Claims

/-! ## Segment-register forms -/

section
variable {s : State} {sr : SReg} {rm : Rm}

/-- 8Ch is its opcode and its operand. -/
theorem length_movRm16Sreg (sz : OpSize) (sr : SReg) (rm : Rm) :
    (encode (.movRm16Sreg sz (.valid sr rm))).length = 1 + rm.len := length_opcode_rm _ _ rm

/-- 8Eh is its opcode and its operand. -/
theorem length_movSregRm16 (sr : SReg) (rm : Rm) : (encode (.movSregRm16 (.valid sr rm))).length = 1 + rm.len :=
  length_opcode_rm _ _ rm

/-- 8Ch, admitted, writes its operand with the selector (R181). -/
theorem exec_movRm16Sreg (hon : s.cfg.sregForms = true) (sz : OpSize) (sr : SReg) (rm : Rm) :
    exec (.movRm16Sreg sz (.valid sr rm)) s =
      finish (1 + rm.len) s (writeSelector sz rm (readSeg s.seg sr).sel s) := by
  rw [exec, execMovRm16Sreg, if_pos hon]

/-- 8Eh, admitted and not for CS, loads the segment register with its operand (R182). -/
theorem exec_movSregRm16 (hon : s.cfg.sregForms = true) (hcs : sr ≠ .cs) (rm : Rm) :
    exec (.movSregRm16 (.valid sr rm)) s = finishSegLoad (1 + rm.len) sr s (readRm .w rm s) := by
  rw [exec, execMovSregRm16, if_pos hon]
  exact if_neg hcs

/-- In 16-bit operand mode a selector is written as any 16-bit value is. -/
theorem writeSelector_o16 (rm : Rm) (v : BitVec 16) (s : State) :
    writeSelector .o16 rm v s = writeRm .w rm (v.setWidth 32) s := by
  cases rm <;> rfl

/-- A draw is outside the frame of a MOV. -/
theorem moveFrame_afterDraw {i : Instr} {t : State} (h : MoveFrame i s t) : MoveFrame i s (afterDraw t) where
  completed := ⟨h.completed.ip, h.completed.pfx⟩
  flags := h.flags
  seg := h.seg
  inhibit := h.inhibit
  system := ⟨h.system.ctl, h.system.dbg, h.system.test, h.system.sys, h.system.nmiPending, h.system.intrPending,
    h.system.arrivals, h.system.ports, h.system.cfg⟩

/-- The selector is the low half of what a 32-bit register receives. -/
theorem extractLsb_selectorWithFreeHigh (v : BitVec 16) (s : State) :
    (selectorWithFreeHigh v s).extractLsb' 0 16 = v :=
  BitVec.extractLsb'_append_eq_right

/-- Settles O32: in 16-bit operand mode and to memory 8Ch is a 16-bit store; to a 32-bit register it draws the upper
half. -/
theorem movSegmentToOperand : Obligations.MovSegmentToOperand := by
  unfold Obligations.MovSegmentToOperand
  intro s sr rm hw hon h
  have hlen (sz : OpSize) := length_movRm16Sreg sz sr rm
  have hexec (sz : OpSize) := exec_movRm16Sreg hon sz sr rm
  refine ⟨operandReceives_of_writeRm (hlen .o16) hw h (by rw [hexec, writeSelector_o16]), ?_, ?_⟩
  · rintro m rfl sz
    exact operandReceives_of_writeRm (hlen sz) hw h (hexec sz)
  · rintro r rfl
    obtain ⟨hvalue, hother⟩ := regReceives_setX .d r (selectorWithFreeHigh (readSeg s.seg sr).sel s) s
    refine ⟨_, hexec .o32, moveFrame_afterDraw (moveFrame_complete (hlen .o32) _ _), fun _ => rfl, hother, ?_, rfl⟩
    exact (congrArg _ hvalue).trans (extractLsb_selectorWithFreeHigh _ s)

/-- A 16-bit operand is its low 16 bits. -/
theorem setWidth_operandValue_w (rm : Rm) (s : State) :
    ((OperandValue .w rm s).setWidth 16).setWidth 32 = OperandValue .w rm s := by
  cases rm with
  | reg i =>
    simp only [OperandValue, readX]
    rw [BitVec.setWidth_setWidth_of_le (l := 32) (k := 16) _ (by decide), BitVec.setWidth_eq]
  | mem m => exact setWidth_loadBytes_two s (memAddr s m)

/-- Settles O33: the load writes one segment register with the low 16 bits of the operand, which are all of it. -/
theorem movOperandToSegment : Obligations.MovOperandToSegment := by
  unfold Obligations.MovOperandToSegment
  intro s sr rm hcs hon h
  have hvalue := setWidth_operandValue_w rm s
  have hload := readSeg_loadSeg_same sr ((OperandValue .w rm s).setWidth 16) s
  refine ⟨completeWith (sr == .ss) (1 + rm.len) (loadSeg sr ((OperandValue .w rm s).setWidth 16) s), ?_,
    ⟨by rw [length_movSregRm16]; rfl, rfl⟩, ?_, ?_, limit_loadSeg sr sr _ s,
    fun j hj => readSeg_writeSeg_of_ne s.seg _ hj, rfl, rfl, rfl, fun _ => rfl, rfl,
    ⟨rfl, rfl, rfl, rfl, rfl, rfl, rfl, rfl, rfl⟩⟩
  · rw [exec_movSregRm16 hon hcs, readRm_of_readable h, finishSegLoad]
  · rw [completeWith_seg, hload]
    exact hvalue
  · rw [completeWith_seg, hload, toNat_base_loadSegReg]
    have hnat := congrArg BitVec.toNat hvalue
    rw [BitVec.toNat_setWidth_of_le (by decide)] at hnat
    rw [hnat]

end

/-! ## Memory-offset forms -/

section
variable {s : State} {a : Moffs} {sz : Size}

/-- A memory-offset form is its opcode and its offset. -/
theorem length_opcode_moffs (op : Byte) (a : Moffs) : (op :: a.encode).length = 1 + a.len := by
  rw [List.length_cons, length_moffs, Nat.add_comm]

/-- A load that is admitted and can read completes with the accumulator written (R183, R184). -/
theorem loadMoffs_of_canRead (hon : s.cfg.moffsForms = true)
    (h : CanRead s (moffsSeg s) (moffsOffset a) (sizeBytes sz)) :
    loadMoffs sz a s = .next (complete (1 + a.len) (setX sz 0#3 (loadBytes s (moffsAddr s a) (sizeBytes sz)) s)) := by
  rw [loadMoffs, if_pos hon, segRead_of_canRead h]
  rfl

/-- A store that is admitted and can write completes with the accumulator stored (R185, R186). -/
theorem storeMoffs_of_canWrite (hon : s.cfg.moffsForms = true)
    (h : CanWrite s (moffsSeg s) (moffsOffset a) (sizeBytes sz)) :
    storeMoffs sz a s = .next (complete (1 + a.len)
      { s with mem := storeBytes s.cfg s.mem (moffsAddr s a) (sizeBytes sz) (readX sz 0#3 s.gpr) }) := by
  rw [storeMoffs, if_pos hon, dataWrite_of_canWrite h]
  rfl

/-- Settles O34: A0h and A1h write the accumulator. -/
theorem movOffsetToAccumulator : Obligations.MovOffsetToAccumulator := by
  unfold Obligations.MovOffsetToAccumulator
  intro s a hon
  exact ⟨fun h => registerReceives_of_exec (by rw [encode, length_opcode_moffs])
      (loadMoffs_of_canRead (sz := .b) hon h),
    fun sz h => registerReceives_of_exec (by rw [encode, length_opcode_moffs]) (loadMoffs_of_canRead hon h)⟩

/-- Settles O35: A2h and A3h store the accumulator. -/
theorem movAccumulatorToOffset : Obligations.MovAccumulatorToOffset := by
  unfold Obligations.MovAccumulatorToOffset
  intro s a hw hon
  exact ⟨fun h => bytesReceive_of_exec (by rw [encode, length_opcode_moffs]) hw (sizeBytes_le_four .b)
      (storeMoffs_of_canWrite (sz := .b) hon h),
    fun sz h => bytesReceive_of_exec (by rw [encode, length_opcode_moffs]) hw (sizeBytes_le_four _)
      (storeMoffs_of_canWrite hon h)⟩

/-- The memory operand that is the same offset as a memory-offset form's. -/
def directOperand : Moffs → MemOp
  | .m16 w => .direct16 w
  | .m32 w => .direct32 w

/-- The direct operand takes the addressing-mode byte besides the offset. -/
theorem len_directOperand (a : Moffs) : (directOperand a).len = a.len + 1 := by cases a <;> rfl

/-- The direct operand is read through the same segment at the same offset. -/
theorem readRm_directOperand (sz : Size) (a : Moffs) (s : State) :
    readRm sz (.mem (directOperand a)) s = segRead s (moffsSeg s) (moffsOffset a) (sizeBytes sz) := by
  cases a <;> rfl

/-- An instruction that is one byte longer leaves `ip` one further on (R25). -/
theorem complete_add_one (len : Nat) (s : State) :
    complete (len + 1) s = { complete len s with ip := (complete len s).ip + 1#32 } := by
  have hip : nextIp (len + 1) s = nextIp len s + 1#32 := by
    rw [nextIp, nextIp, ← Nat.add_assoc, BitVec.ofNat_add, ← BitVec.add_assoc]
  rw [complete_ip, ← hip]
  rfl

/-- The direct load of the accumulator is the memory-offset load but for one byte of `ip`. -/
theorem directLoad_of_canRead (h : CanRead s (moffsSeg s) (moffsOffset a) (sizeBytes sz)) :
    finish (1 + (Rm.mem (directOperand a)).len) s (loadReg sz 0#3 s (readRm sz (.mem (directOperand a)) s)) =
      .next (complete (1 + a.len + 1) (setX sz 0#3 (loadBytes s (moffsAddr s a) (sizeBytes sz)) s)) := by
  rw [readRm_directOperand, segRead_of_canRead h, Rm.len, len_directOperand]
  rfl

/-- Settles O39: both loads read the same bytes, and the direct one is a byte longer. -/
theorem memoryOffsetLoadIsDirectLoad : Obligations.MemoryOffsetLoadIsDirectLoad := by
  unfold Obligations.MemoryOffsetLoadIsDirectLoad
  intro s a m hon hm
  obtain rfl : m = directOperand a := by
    rcases hm with ⟨w, rfl, rfl⟩ | ⟨w, rfl, rfl⟩ <;> rfl
  have hboth (sz : Size) (h : CanRead s (moffsSeg s) (moffsOffset a) (sizeBytes sz)) :
      ∃ t, loadMoffs sz a s = .next t ∧
        finish (1 + (Rm.mem (directOperand a)).len) s (loadReg sz 0#3 s (readRm sz (.mem (directOperand a)) s)) =
          .next { t with ip := t.ip + 1#32 } :=
    ⟨_, loadMoffs_of_canRead hon h, by rw [directLoad_of_canRead h, complete_add_one]⟩
  exact ⟨hboth .b, fun sz => hboth (sizeOf1 sz)⟩

end

/-! ## Special-register moves: the guard and the frame -/

section
variable {s : State} {md : BitVec 2} {o : Outcome}

/-- Where the forms are admitted and `mod` is accepted the guard lets the action through (R180, R194). -/
theorem guardSpecial_of_on (h : SpecialOn md s) : guardSpecial md s o = o := by
  obtain ⟨hon, hmod⟩ := h
  rw [guardSpecial, if_pos hon]
  rcases hmod with rfl | hlate
  · exact if_neg fun hbad => hbad.1 rfl
  · rw [hlate]
    exact if_neg fun hbad => nomatch hbad.2

/-- With the switch off the guard refuses (R180). -/
theorem guardSpecial_of_off (h : s.cfg.specialForms = false) : guardSpecial md s o = .refused .formNotAdmitted :=
  if_neg (Bool.eq_false_iff.1 h)

/-- On the early stepping the guard raises for a `mod` other than 11b (R194). -/
theorem guardSpecial_of_early (hon : s.cfg.specialForms = true) (hst : s.cfg.stepping = .early) (hmd : md ≠ 3#2) :
    guardSpecial md s o = raiseFault .invalidOpcode s := by
  rw [guardSpecial, if_pos hon]
  exact if_pos ⟨hmd, hst⟩

/-- An action that raises InvalidOpcode does so whatever `mod` is. -/
theorem guardSpecial_raise (hon : s.cfg.specialForms = true) :
    guardSpecial md s (raiseFault .invalidOpcode s) = raiseFault .invalidOpcode s := by
  rw [guardSpecial, if_pos hon, ite_self]

variable {i : Instr} (hlen : (encode i).length = 3)
include hlen

/-- A special-register move that completes has their frame, whatever registers it writes. -/
theorem specialFrame_complete (g : Gprs) (c : ControlRegs) (d : DebugRegs) (n : Nat) :
    SpecialFrame i s (complete 3 (drawFlags { s with gpr := g, ctl := c, dbg := d, draws := n })) where
  completed := ⟨by rw [hlen]; rfl, rfl⟩
  flags b hb := (getLsbD_setOSZAPC s.flags _ b).trans (if_neg hb)
  seg := rfl
  memory _ := rfl
  inhibit := rfl
  test := rfl
  sys := rfl
  nmiPending := rfl
  intrPending := rfl
  arrivals := rfl
  ports := rfl
  cfg := rfl

/-- A move from a special register that completes gives the register its value (R188, R190). -/
theorem specialRead_of_exec {r : RegNum} {v : Word} (hexec : exec i s = completeSpecial (setX .d r v s)) :
    ∃ t, exec i s = .next t ∧ SpecialFrame i s t ∧ SpecialRead r v s t := by
  obtain ⟨hvalue, hother⟩ := regReceives_setX .d r v s
  exact ⟨_, hexec, specialFrame_complete hlen _ _ _ _, hvalue, hother, rfl, rfl⟩

/-- A move to a control register that completes writes control registers alone (R189). -/
theorem controlWrite_of_exec {c : ControlRegs} (hexec : exec i s = completeSpecial { s with ctl := c }) :
    ∃ t, exec i s = .next t ∧ SpecialFrame i s t ∧ t.ctl = c ∧ t.gpr = s.gpr ∧ t.dbg = s.dbg :=
  ⟨_, hexec, specialFrame_complete hlen _ _ _ _, rfl, rfl, rfl⟩

/-- A move to a debug register that completes writes debug registers alone (R191). -/
theorem debugWrite_of_exec {d : DebugRegs} (hexec : exec i s = completeSpecial { s with dbg := d }) :
    ∃ t, exec i s = .next t ∧ SpecialFrame i s t ∧ t.dbg = d ∧ t.gpr = s.gpr ∧ t.ctl = s.ctl :=
  ⟨_, hexec, specialFrame_complete hlen _ _ _ _, rfl, rfl, rfl⟩

end

/-! ## Control registers -/

section
variable {s : State} {md : BitVec 2} {n : BitVec 3} {reg : RegNum}

/-- A control register that exists is read (R188). -/
theorem exec_movRCr_of_some {v : Word} (hon : SpecialOn md s) (h : readCr s.ctl n = some v) :
    exec (.movRCr md n reg) s = completeSpecial (setX .d reg v s) := by
  rw [exec, execMovRCr, guardSpecial_of_on hon, h]

/-- A read of a control register that does not exist raises (R187). -/
theorem exec_movRCr_of_none (hon : SpecialOn md s) (h : readCr s.ctl n = none) :
    exec (.movRCr md n reg) s = raiseFault .invalidOpcode s := by
  rw [exec, execMovRCr, guardSpecial_of_on hon, h]

/-- A write of a control register that exists, past the refusals of R189. -/
theorem exec_movCrR_of_some {c : ControlRegs} (hon : SpecialOn md s)
    (h : writeCr s.ctl n (readGpr s.gpr reg) = some c) (hreal : ¬(n = 0#3 ∧ setsPeOrPg (readGpr s.gpr reg) = true))
    (hcd : ¬(n = 0#3 ∧ changesCd s.ctl.cr0 (readGpr s.gpr reg) = true ∧ s.cfg.stepping = .early)) :
    exec (.movCrR md n reg) s = completeSpecial { s with ctl := c } := by
  rw [exec, execMovCrR, guardSpecial_of_on hon, h]
  exact (if_neg hreal).trans (if_neg hcd)

/-- CR2 and CR3 have no refusal. -/
theorem exec_movCrR_of_ne_zero {c : ControlRegs} (hon : SpecialOn md s)
    (h : writeCr s.ctl n (readGpr s.gpr reg) = some c) (hn : n ≠ 0#3) :
    exec (.movCrR md n reg) s = completeSpecial { s with ctl := c } :=
  exec_movCrR_of_some hon h (fun hbad => hn hbad.1) (fun hbad => hn hbad.1)

/-- A write of a control register that does not exist raises (R187). -/
theorem exec_movCrR_of_none (hon : SpecialOn md s) (h : writeCr s.ctl n (readGpr s.gpr reg) = none) :
    exec (.movCrR md n reg) s = raiseFault .invalidOpcode s := by
  rw [exec, execMovCrR, guardSpecial_of_on hon, h]

/-- A number other than 0, 2 and 3 names no control register (R35, R187). -/
theorem ne_of_missing_cr (h : n = 1#3 ∨ 4 ≤ n.toNat) : n ≠ 0#3 ∧ n ≠ 2#3 ∧ n ≠ 3#3 := by
  revert n; decide

/-- A control register that does not exist has no value. -/
theorem readCr_eq_none (c : ControlRegs) (h : n = 1#3 ∨ 4 ≤ n.toNat) : readCr c n = none := by
  obtain ⟨h0, h2, h3⟩ := ne_of_missing_cr h
  rw [readCr, if_neg h0, if_neg h2, if_neg h3]

/-- A control register that does not exist takes no value. -/
theorem writeCr_eq_none (c : ControlRegs) (v : Word) (h : n = 1#3 ∨ 4 ≤ n.toNat) : writeCr c n v = none := by
  obtain ⟨h0, h2, h3⟩ := ne_of_missing_cr h
  rw [writeCr, if_neg h0, if_neg h2, if_neg h3]

/-- Settles O41: each number reads its register. -/
theorem movFromControlRegister : Obligations.MovFromControlRegister := by
  unfold Obligations.MovFromControlRegister
  intro s md reg hon
  exact ⟨specialRead_of_exec rfl (exec_movRCr_of_some hon rfl), specialRead_of_exec rfl (exec_movRCr_of_some hon rfl),
    specialRead_of_exec rfl (exec_movRCr_of_some hon rfl)⟩

/-- A value of CR0 sets PE or PG when bit 0 or bit 31 is set. -/
theorem setsPeOrPg_eq_true {v : Word} : setsPeOrPg v = true ↔ v.getLsbD 0 = true ∨ v.getLsbD 31 = true := by
  simp [setsPeOrPg]

/-- A value of CR0 changes CD when bit 30 differs. -/
theorem changesCd_eq_true {old v : Word} : changesCd old v = true ↔ v.getLsbD 30 ≠ old.getLsbD 30 := by
  simp [changesCd]

/-- Settles O42: the hypotheses on CR0 are that neither refusal of R189 applies. -/
theorem movToControlRegister : Obligations.MovToControlRegister := by
  unfold Obligations.MovToControlRegister
  intro s md reg hon
  refine ⟨fun hpe hpg hcd => controlWrite_of_exec rfl (exec_movCrR_of_some hon rfl ?_ ?_),
    controlWrite_of_exec rfl (exec_movCrR_of_ne_zero hon rfl (by decide)),
    controlWrite_of_exec rfl (exec_movCrR_of_ne_zero hon rfl (by decide))⟩
  · rintro ⟨-, hsets⟩
    exact Bool.eq_false_iff.1 (setsPeOrPg_eq_false.2 ⟨hpe, hpg⟩) hsets
  · rintro ⟨-, hchanges, hearly⟩
    rcases hcd with hlate | hsame
    · exact nomatch hearly.symm.trans hlate
    · exact changesCd_eq_true.1 hchanges hsame

/-- Settles O43: the two refusals of R189, in their order. -/
theorem cr0WriteRefusals : Obligations.Cr0WriteRefusals := by
  unfold Obligations.Cr0WriteRefusals
  intro s md reg hon
  rw [exec, execMovCrR, guardSpecial_of_on hon]
  refine ⟨fun hsets => if_pos ⟨rfl, setsPeOrPg_eq_true.2 hsets⟩, fun hpe hpg hearly hcd => ?_⟩
  have hreal : ¬((0#3 : BitVec 3) = 0#3 ∧ setsPeOrPg (readGpr s.gpr reg) = true) := fun hbad =>
    Bool.eq_false_iff.1 (setsPeOrPg_eq_false.2 ⟨hpe, hpg⟩) hbad.2
  exact (if_neg hreal).trans (if_pos ⟨rfl, changesCd_eq_true.2 hcd, hearly⟩)

end

/-! ## Debug registers -/

section
variable {s : State} {md : BitVec 2} {n k : BitVec 3} {reg : RegNum}

/-- A number other than 4 and 5 names its own debug register (R36). -/
theorem drNumber_of_ne (st : Stepping) (h : n ≠ 4#3 ∧ n ≠ 5#3) : drNumber st n = some n :=
  if_neg (not_or.2 h)

/-- A debug register that exists is read (R190, R195). -/
theorem exec_movRDr_of_some (hon : SpecialOn md s) (h : drNumber s.cfg.stepping n = some k) :
    exec (.movRDr md n reg) s = completeSpecial (setX .d reg (readDr s.dbg k) s) := by
  rw [exec, execMovRDr, guardSpecial_of_on hon, h]

/-- A debug register that exists is written, past the refusal of R191 (R195). -/
theorem exec_movDrR_of_some (hon : SpecialOn md s) (h : drNumber s.cfg.stepping n = some k)
    (hoff : ¬(k = 7#3 ∧ enablesBreakpoint (readGpr s.gpr reg) = true)) :
    exec (.movDrR md n reg) s = completeSpecial { s with dbg := writeDr s.dbg k (readGpr s.gpr reg) } := by
  rw [exec, execMovDrR, guardSpecial_of_on hon, h]
  exact if_neg hoff

/-- A write of DR7, under either number, that enables a breakpoint is refused (R191). -/
theorem exec_movDrR_enables (hon : SpecialOn md s) (h : drNumber s.cfg.stepping n = some 7#3)
    (hen : enablesBreakpoint (readGpr s.gpr reg) = true) :
    exec (.movDrR md n reg) s = .refused .enablesBreakpoints := by
  rw [exec, execMovDrR, guardSpecial_of_on hon, h]
  exact if_pos ⟨rfl, hen⟩

/-- A value of DR7 enables a breakpoint when bits 7:0 are not all clear. -/
theorem enablesBreakpoint_eq_true {v : Word} : enablesBreakpoint v = true ↔ v.toNat % 256 ≠ 0 := by
  have hlow : v.extractLsb' 0 8 = 0#8 ↔ v.toNat % 256 = 0 := by
    rw [← BitVec.toNat_inj, BitVec.extractLsb'_toNat]
    rfl
  rw [← Bool.not_eq_false, enablesBreakpoint_eq_false, hlow]

/-- Settles O44: each number reads its register. -/
theorem movFromDebugRegister : Obligations.MovFromDebugRegister := by
  unfold Obligations.MovFromDebugRegister
  intro s md reg n v hon hn
  have hread : (n ≠ 4#3 ∧ n ≠ 5#3) ∧ readDr s.dbg n = v := by
    rcases hn with ⟨rfl, rfl⟩ | ⟨rfl, rfl⟩ | ⟨rfl, rfl⟩ | ⟨rfl, rfl⟩ | ⟨rfl, rfl⟩ | ⟨rfl, rfl⟩ <;>
      exact ⟨by decide, rfl⟩
  obtain ⟨hne, rfl⟩ := hread
  exact specialRead_of_exec rfl (exec_movRDr_of_some hon (drNumber_of_ne _ hne))

/-- Settles O45: each number writes its register, and only DR7 has a refusal. -/
theorem movToDebugRegister : Obligations.MovToDebugRegister := by
  unfold Obligations.MovToDebugRegister
  intro s md reg n d hon hn
  have hwrite : (n ≠ 4#3 ∧ n ≠ 5#3) ∧ writeDr s.dbg n (readGpr s.gpr reg) = d ∧
      (n = 7#3 → (readGpr s.gpr reg).toNat % 256 = 0) := by
    rcases hn with ⟨rfl, rfl⟩ | ⟨rfl, rfl⟩ | ⟨rfl, rfl⟩ | ⟨rfl, rfl⟩ | ⟨rfl, rfl⟩ | ⟨rfl, rfl, hclear⟩
    case inr.inr.inr.inr.inr => exact ⟨by decide, rfl, fun _ => hclear⟩
    all_goals exact ⟨by decide, rfl, fun h7 => absurd h7 (by decide)⟩
  obtain ⟨hne, rfl, hclear⟩ := hwrite
  exact debugWrite_of_exec rfl (exec_movDrR_of_some hon (drNumber_of_ne _ hne) fun hbad =>
    enablesBreakpoint_eq_true.1 hbad.2 (hclear hbad.1))

/-- Settles O46: 7 on either stepping and 5 on the late one act on DR7. -/
theorem enablingBreakpointsRefused : Obligations.EnablingBreakpointsRefused := by
  unfold Obligations.EnablingBreakpointsRefused
  intro s md reg hon h
  have hen := enablesBreakpoint_eq_true.2 h
  exact ⟨exec_movDrR_enables hon (drNumber_of_ne _ (by decide)) hen,
    fun hlate => exec_movDrR_enables hon (by rw [hlate]; rfl) hen⟩

variable {f : BitVec 2 → BitVec 3 → RegNum → Instr}

/-- A debug-register move rests on the number it is given only through the register that it acts on. -/
theorem exec_debugMove_congr (hf : f ∈ [Instr.movRDr, Instr.movDrR])
    (h : drNumber s.cfg.stepping n = drNumber s.cfg.stepping k) : exec (f md n reg) s = exec (f md k reg) s := by
  simp only [List.mem_cons, List.not_mem_nil, or_false] at hf
  rcases hf with rfl | rfl
  · simp only [exec, execMovRDr, h]
  · simp only [exec, execMovDrR, h]

/-- A debug register that does not exist raises, whatever `mod` is (R195). -/
theorem exec_debugMove_of_none (hf : f ∈ [Instr.movRDr, Instr.movDrR]) (hon : s.cfg.specialForms = true)
    (h : drNumber s.cfg.stepping n = none) : exec (f md n reg) s = raiseFault .invalidOpcode s := by
  simp only [List.mem_cons, List.not_mem_nil, or_false] at hf
  rcases hf with rfl | rfl
  · rw [exec, execMovRDr, h]
    exact guardSpecial_raise hon
  · rw [exec, execMovDrR, h]
    exact guardSpecial_raise hon

/-- Settles O51: 4 and 5 name no register on the early stepping, and DR6 and DR7 on the late one. -/
theorem debugRegisterFourAndFive : Obligations.DebugRegisterFourAndFive := by
  unfold Obligations.DebugRegisterFourAndFive
  intro s reg md f hf hon
  constructor
  · intro hearly
    exact ⟨exec_debugMove_of_none hf hon (by rw [hearly]; rfl), exec_debugMove_of_none hf hon (by rw [hearly]; rfl)⟩
  · intro hlate
    exact ⟨exec_debugMove_congr hf (by rw [hlate]; rfl), exec_debugMove_congr hf (by rw [hlate]; rfl)⟩

end

/-! ## Test registers -/

/-- The test registers are TR3 to TR7 (R37). -/
theorem trExists_eq_true {n : BitVec 3} : trExists n = true ↔ 3 ≤ n.toNat := by
  revert n; decide

/-- Settles O47: the register and the flags are drawn, two values in all. -/
theorem movFromTestRegister : Obligations.MovFromTestRegister := by
  unfold Obligations.MovFromTestRegister
  intro s md n reg hon hn
  have hexec : exec (.movRTr md n reg) s = completeSpecial (afterDraw (setX .d reg (drawWord s) s)) := by
    rw [exec, execMovRTr, guardSpecial_of_on hon]
    exact if_pos (trExists_eq_true.2 hn)
  obtain ⟨-, hother⟩ := regReceives_setX .d reg (drawWord s) s
  exact ⟨_, hexec, specialFrame_complete rfl _ _ _ _, hother, rfl, rfl, rfl⟩

/-- Settles O48: the write is refused where the register exists. -/
theorem testRegisterWriteRefused : Obligations.TestRegisterWriteRefused := by
  unfold Obligations.TestRegisterWriteRefused
  intro s md n reg hon hn
  rw [exec, execMovTrR, guardSpecial_of_on hon]
  exact if_pos (trExists_eq_true.2 hn)

/-! ## Numbers, `mod` and switches -/

/-- Settles O49: the number names no register to read or write. -/
theorem missingSpecialRegisterRaises : Obligations.MissingSpecialRegisterRaises := by
  unfold Obligations.MissingSpecialRegisterRaises
  intro s md n reg hon
  refine ⟨fun hn => ⟨exec_movRCr_of_none hon (readCr_eq_none _ hn), exec_movCrR_of_none hon (writeCr_eq_none _ _ hn)⟩,
    fun hn => ?_⟩
  have hmissing : ¬trExists n = true := fun hex => absurd (trExists_eq_true.1 hex) (by omega)
  constructor
  · rw [exec, execMovRTr, guardSpecial_of_on hon]
    exact if_neg hmissing
  · rw [exec, execMovTrR, guardSpecial_of_on hon]
    exact if_neg hmissing

/-- Every special-register move is the guard around an action that `mod` has no part in. -/
theorem exec_specialMove {f : BitVec 2 → BitVec 3 → RegNum → Instr}
    (hf : f ∈ [Instr.movRCr, Instr.movCrR, Instr.movRDr, Instr.movDrR, Instr.movRTr, Instr.movTrR])
    (n : BitVec 3) (reg : RegNum) (s : State) : ∃ act, ∀ md, exec (f md n reg) s = guardSpecial md s act := by
  simp only [List.mem_cons, List.not_mem_nil, or_false] at hf
  rcases hf with rfl | rfl | rfl | rfl | rfl | rfl <;> exact ⟨_, fun _ => rfl⟩

/-- Settles O50: `mod` has a part in the guard alone. -/
theorem specialMoveModField : Obligations.SpecialMoveModField := by
  unfold Obligations.SpecialMoveModField
  intro s md n reg f hf hon
  obtain ⟨act, hexec⟩ := exec_specialMove hf n reg s
  constructor
  · intro hearly hmd
    rw [hexec, guardSpecial_of_early hon hearly hmd]
  · intro hlate
    rw [hexec, hexec, guardSpecial_of_on ⟨hon, .inr hlate⟩, guardSpecial_of_on ⟨hon, .inl rfl⟩]

/-- Settles O40: each family looks at its switch first. -/
theorem formNotAdmittedRefused : Obligations.FormNotAdmittedRefused := by
  unfold Obligations.FormNotAdmittedRefused
  refine ⟨fun s hoff => ?_, fun s hoff a => ?_, fun s hoff md n reg => ?_⟩
  · have hno := Bool.eq_false_iff.1 hoff
    exact ⟨fun sz ops => if_neg hno, fun ops => if_neg hno⟩
  · have hno := Bool.eq_false_iff.1 hoff
    exact ⟨if_neg hno, if_neg hno, fun sz => ⟨if_neg hno, if_neg hno⟩⟩
  · exact ⟨guardSpecial_of_off hoff, guardSpecial_of_off hoff, guardSpecial_of_off hoff, guardSpecial_of_off hoff,
      guardSpecial_of_off hoff, guardSpecial_of_off hoff⟩

end Sys2Proof.Proofs

/-! # The breakpoint instruction

It completes, which moves `ip` past it and ends the inhibition after a load of SS, and vector 3 is entered from the
state it leaves (43_breakpoint.md R200). -/

namespace Sys2Proof.Proofs

open Sys2Proof.Machine
open Sys2Proof.Claims

/-- An entry says the same of a completed instruction as of the state before it without its inhibition: what else
completion changes, `ip` and the prefixes read, an entry replaces. -/
theorem entered_of_entered_complete {v : Byte} {ip : Word} {len : Nat} {s t : State}
    (h : Entered v ip (complete len s) t) : Entered v ip { s with inhibit := false } t :=
  { h with system := { h.system with } }

/-- Settles O54: the entry is made from the state in which the instruction has completed, with the `ip` it has there. -/
theorem breakpointEntersHandler : Obligations.BreakpointEntersHandler := by
  unfold Obligations.BreakpointEntersHandler
  intro s hw hcan
  have hcompleted : CanEnter 3#8 (complete 1 s) := { hcan with }
  have hentered : Entered 3#8 (nextIp 1 s) (complete 1 s) (afterEntry 3#8 (nextIp 1 s) (complete 1 s)) :=
    entered_afterEntry (nextIp 1 s) hw rfl
  have hexec : exec .breakpoint s = .next (afterEntry 3#8 (nextIp 1 s) (complete 1 s)) :=
    takeException_eq_next.2 ⟨hcan.on, enterHandler_of_canEnter (nextIp 1 s) hcompleted⟩
  exact ⟨_, hexec, entered_of_entered_complete hentered⟩

end Sys2Proof.Proofs

/-! # A fault enters its handler, or meets a second exception

An entry with nothing in its way succeeds (60_exceptions.md R223). A push beyond the limit of SS raises, and so does a
vector beyond the limit of IDTR; whichever of them an entry meets first, the entry raises it, and an outcome made of that
entry is refused (R224). -/

namespace Sys2Proof.Proofs

open Sys2Proof.Machine
open Sys2Proof.Claims

/-- Settles O52: a fault is taken by the entry of R223. -/
theorem faultEntersHandler : Obligations.FaultEntersHandler := by
  unfold Obligations.FaultEntersHandler
  exact fun s e hw hcan => raiseFault_entered hw hcan

section
variable {v : Byte} {s : State}

/-- A push whose word reaches beyond the limit of SS raises StackFault (R64, R223). -/
theorem push16_of_beyond (w : BitVec 16) (h : PushBeyond 2#16 s) : push16 w s = .error (.raise .stackFault) := by
  have hsp : ((sp16 s - 2#16).setWidth 32).toNat = (sp16 s - 2#16).toNat := BitVec.toNat_setWidth_of_le (by decide)
  have hlimit : withinLimit (setX .w 4#3 ((sp16 s - 2#16).setWidth 32) s) .ss ((sp16 s - 2#16).setWidth 32) 2 = false :=
    decide_eq_false (Nat.not_le_of_gt (hsp.symm ▸ h))
  exact if_neg (Bool.eq_false_iff.1 hlimit)

theorem pushBeyond_afterPush (w k : BitVec 16) (s : State) : PushBeyond k (afterPush w s) ↔ PushBeyond (2#16 + k) s := by
  simp only [PushBeyond, sp16_afterPush, afterPush_seg, BitVec.sub_sub]

/-- An entry that meets a second exception raises it: at its vector, or at the first of its pushes beyond the limit of
SS (R223, R224). -/
theorem enterHandler_of_entryRaises (ip : Word) (h : EntryRaises v s) : ∃ e, enterHandler v ip s = .error (.raise e) := by
  by_cases htable : v.toNat * 4 + 3 > s.sys.idtr.limit.toNat
  · exact ⟨_, if_pos htable⟩
  refine ⟨.stackFault, ?_⟩
  have hbeyond4 (w : BitVec 16) (h4 : PushBeyond 4#16 s) : PushBeyond 2#16 (afterPush w s) :=
    (pushBeyond_afterPush w 2#16 s).2 h4
  have hfits4 (w : BitVec 16) (h4 : PushFits 4#16 s) : PushFits 2#16 (afterPush w s) :=
    (pushFits_afterPush w s 2#16).2 h4
  have hbeyond6 (w w' : BitVec 16) (h6 : PushBeyond 6#16 s) : PushBeyond 2#16 (afterPush w' (afterPush w s)) :=
    (pushBeyond_afterPush w' 2#16 _).2 ((pushBeyond_afterPush w 4#16 s).2 h6)
  rw [enterHandler, if_neg htable]
  rcases h with hvector | h2 | ⟨h2, h4⟩ | ⟨h2, h4, h6⟩
  · exact absurd hvector (by omega)
  · rw [push16_of_beyond _ h2]
  · simp only [push16_of_fits h2, push16_of_beyond _ (hbeyond4 _ h4)]
  · simp only [push16_of_fits h2, push16_of_fits (hfits4 _ h4), push16_of_beyond _ (hbeyond6 _ _ h6)]

/-- As an outcome such an entry is refused (R224). -/
theorem enterOutcome_of_entryRaises (ip : Word) (h : EntryRaises v s) :
    enterOutcome v ip s = .refused .nestedException := by
  obtain ⟨e, he⟩ := enterHandler_of_entryRaises ip h
  rw [enterOutcome, he]

/-- So is an exception taken by it. -/
theorem takeException_of_entryRaises {e : Exc} (ip : Word) (hon : s.cfg.modelTrapEntry = true)
    (h : EntryRaises (vectorOf e) s) : takeException e ip s = .refused .nestedException := by
  rw [takeException, if_pos hon, enterOutcome_of_entryRaises ip h]

/-- So is an interrupt accepted by it. -/
theorem acceptInterrupt_of_entryRaises (hon : s.cfg.modelTrapEntry = true) (h : EntryRaises v s) :
    acceptInterrupt v s = .refused .nestedException := by
  rw [acceptInterrupt, if_pos hon, enterOutcome_of_entryRaises _ h]

end

end Sys2Proof.Proofs

/-! # The instruction boundary

The oracle's answer becomes pending first (`arrive`), which changes nothing an entry reads; then the single-step trap is
taken, or an interrupt is accepted, or nothing happens (60_exceptions.md R215, R226, R227; log 6 and log 8). -/

namespace Sys2Proof.Proofs

open Sys2Proof.Machine
open Sys2Proof.Claims

/-! ## What is presented becomes pending -/

/-- Where the oracle has no more to present, nothing changes. -/
theorem arrive_of_nil {s : State} (h : s.arrivals = []) : arrive s = s := by
  rw [arrive, h]

/-- The oracle's next answer is added to what is pending. -/
theorem arrive_of_cons {s : State} {a : Arrival} {rest : List Arrival} (h : s.arrivals = a :: rest) :
    arrive s = { s with
      arrivals := rest
      nmiPending := s.nmiPending || a.nmi
      intrPending := a.intr.or s.intrPending } := by
  rw [arrive, h]

/-- Settles O59: the oracle's list of answers is empty, or gives its first one. -/
theorem arrivalsBecomePending : Obligations.ArrivalsBecomePending := by
  unfold Obligations.ArrivalsBecomePending
  refine fun s => ⟨arrive_of_nil, fun a rest h => ⟨fun v hv => ?_, fun hnone => ?_⟩⟩
  · rw [arrive_of_cons h, hv, Option.some_or]
  · rw [arrive_of_cons h, hnone, Option.none_or]

section
variable {v : Byte} {s : State}

/-- Only what is pending, and what is still to be presented, changes when the oracle answers. -/
theorem arrive_eq (s : State) : arrive s =
    { s with
      arrivals := (arrive s).arrivals
      nmiPending := (arrive s).nmiPending
      intrPending := (arrive s).intrPending } := by
  unfold arrive
  split <;> rfl

/-- An entry that nothing stands in the way of before the oracle's answer meets nothing after it. -/
theorem canEnter_arrive (h : CanEnter v s) : CanEnter v (arrive s) := by
  rw [arrive_eq]
  exact { h with }

/-- An entry that meets a second exception before the oracle's answer meets it after it. -/
theorem entryRaises_arrive (h : EntryRaises v s) : EntryRaises v (arrive s) := by
  rw [arrive_eq]
  exact h

/-! ## The acceptance of interrupts -/

/-- A pending NMI is accepted where nothing inhibits it, with a maskable interrupt pending or not (R226, R227). -/
theorem pollInterrupts_nmi (hnmi : s.nmiPending = true) (hinh : s.inhibit = false) :
    pollInterrupts s = acceptInterrupt 2#8 { s with nmiPending := false } :=
  if_pos (by simp [hnmi, nmiAllowed, hinh])

/-- A pending maskable interrupt is accepted where I is set, no NMI is pending and nothing inhibits it (R226). -/
theorem pollInterrupts_intr (hnmi : s.nmiPending = false) (hintr : s.intrPending = some v) (hI : flagI s.flags = true)
    (hinh : s.inhibit = false) : pollInterrupts s = acceptInterrupt v { s with intrPending := none } := by
  have hallowed : intrAllowed s = true := by simp [intrAllowed, hI, hinh]
  simp [pollInterrupts, hnmi, hintr, hallowed]

/-- Where neither kind of request is both pending and allowed, none is accepted (R226). -/
theorem pollInterrupts_waits (hnmi : s.nmiPending = false ∨ nmiAllowed s = false)
    (hintr : s.intrPending = none ∨ intrAllowed s = false) : pollInterrupts s = .next s := by
  have hno : ¬(s.nmiPending && nmiAllowed s) = true := by
    rcases hnmi with h | h <;> simp [h]
  rw [pollInterrupts, if_neg hno]
  split
  · rfl
  · rename_i v hv
    have hmasked : intrAllowed s = false := hintr.resolve_left (by simp [hv])
    rw [hmasked]
    rfl

/-- An accepted interrupt with nothing in the way of its entry enters its handler, with the `ip` of the next instruction
saved (R226). -/
theorem acceptInterrupt_entered (hw : s.mem.wf = true) (hpfx : s.pfx = Prefixes.none) (h : CanEnter v s) :
    ∃ u, acceptInterrupt v s = .next u ∧ Entered v s.ip s u := by
  refine ⟨afterEntry v s.ip s, ?_, entered_afterEntry s.ip hw hpfx⟩
  rw [acceptInterrupt, if_pos h.on]
  exact enterOutcome_eq_next.2 (enterHandler_of_canEnter s.ip h)

/-! ## The boundary of an instruction -/

/-- Between two instructions, with no single-step trap due, the boundary is the acceptance of interrupts. -/
theorem afterInstruction_poll (hpfx : s.pfx.count = 0) :
    afterInstruction false (.next s) = pollInterrupts (arrive s) := if_pos hpfx

/-- With flag T set before and after the instruction, it is the single-step trap (log 8). -/
theorem afterInstruction_trap (hpfx : s.pfx.count = 0) (hT : flagT s.flags = true) :
    afterInstruction true (.next s) = singleStep (arrive s) :=
  (if_pos hpfx).trans (if_pos (by simp [hT]))

end

/-- Settles O58: after the oracle's answer the four cases are those of `pollInterrupts`. -/
theorem interruptAcceptance : Obligations.InterruptAcceptance := by
  unfold Obligations.InterruptAcceptance
  intro t hpfx hinh hw
  rw [afterInstruction_poll (by rw [hpfx]; rfl), ← arrive_ip t]
  rw [← arrive_inhibit t] at hinh
  rw [← arrive_mem t] at hw
  rw [← arrive_pfx t] at hpfx
  refine ⟨fun v hnmi hintr hI hcan => ?_, fun v hnmi hintr hI => ?_, fun hnmi hcan => ?_, fun hnmi hintr => ?_⟩
  · rw [pollInterrupts_intr hnmi hintr (by rwa [arrive_flags]) hinh]
    exact acceptInterrupt_entered hw hpfx { canEnter_arrive hcan with }
  · exact pollInterrupts_waits (.inl hnmi) (.inr (by simp [intrAllowed, hI]))
  · rw [pollInterrupts_nmi hnmi hinh]
    exact acceptInterrupt_entered hw hpfx { canEnter_arrive hcan with }
  · exact pollInterrupts_waits (.inl hnmi) (.inl hintr)

/-- Settles O57: the load completes with `inhibit` set, and then neither kind of request is allowed. -/
theorem noInterruptAfterLoadOfSs : Obligations.NoInterruptAfterLoadOfSs := by
  unfold Obligations.NoInterruptAfterLoadOfSs
  intro s rm hon hread hT
  have hexec : exec (.movSregRm16 (.valid .ss rm)) s =
      .next (completeWith true (1 + rm.len) (loadSeg .ss ((OperandValue .w rm s).setWidth 16) s)) := by
    rw [exec_movSregRm16 hon (by decide), readRm_of_readable hread]
    rfl
  refine ⟨_, hexec, rfl, ?_⟩
  rw [hexec, hT, afterInstruction_poll rfl]
  exact pollInterrupts_waits (.inr (by simp [nmiAllowed])) (.inr (by simp [intrAllowed]))

/-- Settles O55: every kind of entry goes through `enterOutcome`, from a state in which it meets what it meets in `s`. -/
theorem nestedExceptionRefused : Obligations.NestedExceptionRefused := by
  unfold Obligations.NestedExceptionRefused
  intro s hon
  refine ⟨fun e h => takeException_of_entryRaises s.ip hon h, fun h => takeException_of_entryRaises (nextIp 1 s) hon h,
    fun hpfx => ?_⟩
  have hcount : s.pfx.count = 0 := by rw [hpfx]; rfl
  rw [← arrive_cfg s] at hon
  refine ⟨fun hinh hnmi h => ?_, fun v hinh hnmi hintr hI h => ?_, fun hT h => ?_⟩
  · rw [afterInstruction_poll hcount, pollInterrupts_nmi hnmi (by rwa [arrive_inhibit])]
    exact acceptInterrupt_of_entryRaises hon (entryRaises_arrive h)
  · rw [afterInstruction_poll hcount,
      pollInterrupts_intr hnmi hintr (by rwa [arrive_flags]) (by rwa [arrive_inhibit])]
    exact acceptInterrupt_of_entryRaises hon (entryRaises_arrive h)
  · rw [afterInstruction_trap hcount hT]
    exact takeException_of_entryRaises _ hon (entryRaises_arrive h)

/-! ## A step and its boundary -/

/-- No instruction touches what is pending or still to be presented. -/
theorem effect_interrupts {sp : Bool} {s t : State} (h : Effect sp s t) :
    t.nmiPending = s.nmiPending ∧ t.intrPending = s.intrPending ∧ t.arrivals = s.arrivals := by
  cases h with
  | recorded | moved | segLoaded | special => exact ⟨rfl, rfl, rfl⟩
  | entered v ip s0 t _ h0 h =>
    obtain ⟨g, m, cs, ip', rfl, -⟩ := enterHandler_ok h
    rcases h0 with rfl | rfl <;> exact ⟨rfl, rfl, rfl⟩

/-- With no interrupt pending or presented and no trap due the boundary does nothing. -/
theorem afterInstruction_of_noInterrupts {s : State} (h : NoInterrupts s) :
    afterInstruction false (.next s) = .next s := by
  obtain ⟨hnmi, hintr, harrivals⟩ := h
  by_cases hpfx : s.pfx.count = 0
  · rw [afterInstruction_poll hpfx, arrive_of_nil harrivals, pollInterrupts_waits (.inl hnmi) (.inl hintr)]
  · exact if_neg hpfx

/-- Settles O6: what the instruction leads to still has no interrupt pending or presented. -/
theorem stepWithoutEventsIsTheInstruction : Obligations.StepWithoutEventsIsTheInstruction := by
  unfold Obligations.StepWithoutEventsIsTheInstruction
  intro s i hscope hwf hfit h15 hheld hT ⟨hnmi, hintr, harrivals⟩
  rw [stepRunsDecodedInstruction s i hscope hwf hfit h15 hheld, hT]
  cases hexec : exec i s with
  | next t =>
    obtain ⟨hnmi', hintr', harrivals'⟩ := effect_interrupts (exec_effect hexec)
    exact afterInstruction_of_noInterrupts ⟨hnmi'.trans hnmi, hintr'.trans hintr, harrivals'.trans harrivals⟩
  | fault | refused => rfl

/-- Where the next byte fetched is the first of an instruction, no prefix stands recorded. -/
theorem effect_pfx {sp : Bool} {s t : State} (h : Effect sp s t) (hcount : t.pfx.count = 0) :
    t.pfx = Prefixes.none := by
  cases h with
  | recorded p hp => exact absurd (hp.symm.trans hcount) (Nat.succ_ne_zero _)
  | moved | segLoaded | special => rfl
  | entered v ip s0 t _ h0 h =>
    obtain ⟨g, m, cs, ip', rfl, -⟩ := enterHandler_ok h
    rcases h0 with rfl | rfl <;> rfl

/-- No instruction sets flag T (R27). -/
theorem effect_flagT {sp : Bool} {s t : State} (h : Effect sp s t) (hT : flagT t.flags = true) :
    flagT s.flags = true := by
  rcases effect_flag_cases h 8 with hsame | ⟨-, hclear⟩ | ⟨hfree, -⟩
  · exact hsame.symm.trans hT
  · exact absurd (hclear.symm.trans hT) Bool.false_ne_true
  · exact absurd hfree (not_freeFlag_of_IT (.inl rfl))

/-- Settles O60: flag T was set before the instruction too, so that the trap is due, and DR6 is drawn before its entry. -/
theorem singleStepTrapAfterInstruction : Obligations.SingleStepTrapAfterInstruction := by
  unfold Obligations.SingleStepTrapAfterInstruction
  intro s t i hexec hcount hT hw hcan
  have heffect := exec_effect hexec
  have hpfx := effect_pfx heffect hcount
  rw [hexec, effect_flagT heffect hT, afterInstruction_trap hcount hT, ← arrive_dbg t, ← arrive_draws t, ← arrive_ip t]
  rw [← arrive_mem t] at hw
  rw [← arrive_pfx t] at hpfx
  have hcan' := canEnter_arrive hcan
  exact ⟨drawWord (arrive t), _, takeException_eq_next.2 ⟨hcan'.on, enterHandler_of_canEnter _ { hcan' with }⟩,
    entered_afterEntry _ hw hpfx⟩

end Sys2Proof.Proofs

/-! # The faults an instruction ends in

With the entry off a raise is the outcome `fault` (60_exceptions.md R220). Every instruction but the breakpoint
instruction raises only for an invalid opcode or an access beyond a limit, always with its own `ip`. -/

namespace Sys2Proof.Proofs

open Sys2Proof.Machine
open Sys2Proof.Claims

/-- The exceptions of an invalid opcode and of an access beyond a limit: vectors 6, 12 and 13 (R212 to R214). -/
def IsInstrFault (e : Exc) : Prop := e = .invalidOpcode ∨ e = .stackFault ∨ e = .generalProtection

theorem isInstrFault_invalidOpcode : IsInstrFault .invalidOpcode := .inl rfl

theorem isInstrFault_limitExc (j : SReg) : IsInstrFault (limitExc j) := by
  rw [limitExc_eq]
  split
  · exact .inr (.inl rfl)
  · exact .inr (.inr rfl)

/-! ## Parts of an instruction -/

/-- A part of an instruction raises, if anything, one of these exceptions. -/
def RaisesFaults {α : Type} (r : Result α) : Prop := ∀ e, r = .error (.raise e) → IsInstrFault e

section
variable {α : Type} {r r' : Result α} {c : Prop} [Decidable c]

theorem raisesFaults_ok (a : α) : RaisesFaults (.ok a : Result α) := fun _ h => nomatch h

theorem raisesFaults_refuse (x : Refusal) : RaisesFaults (.error (.refuse x) : Result α) := fun _ h => nomatch h

theorem raisesFaults_limitExc (j : SReg) : RaisesFaults (.error (.raise (limitExc j)) : Result α) := by
  rintro e ⟨⟩
  exact isInstrFault_limitExc j

theorem raisesFaults_ite (h : RaisesFaults r) (h' : RaisesFaults r') : RaisesFaults (if c then r else r') := by
  split
  · exact h
  · exact h'

end

theorem raisesFaults_segRead (s : State) (j : SReg) (off : Word) (n : Nat) : RaisesFaults (segRead s j off n) :=
  raisesFaults_ite (raisesFaults_ite (raisesFaults_ok _) (raisesFaults_refuse _)) (raisesFaults_limitExc j)

theorem raisesFaults_dataWrite (s : State) (j : SReg) (off : Word) (n : Nat) (v : Word) :
    RaisesFaults (dataWrite s j off n v) :=
  raisesFaults_ite (raisesFaults_refuse _)
    (raisesFaults_ite (raisesFaults_ite (raisesFaults_ok _) (raisesFaults_refuse _)) (raisesFaults_limitExc j))

theorem raisesFaults_readRm (sz : Size) (rm : Rm) (s : State) : RaisesFaults (readRm sz rm s) := by
  cases rm with
  | reg i => exact raisesFaults_ok _
  | mem m => exact raisesFaults_segRead s _ _ _

theorem raisesFaults_writeRm (sz : Size) (rm : Rm) (v : Word) (s : State) : RaisesFaults (writeRm sz rm v s) := by
  cases rm with
  | reg i => exact raisesFaults_ok _
  | mem m => exact raisesFaults_dataWrite s _ _ _ _

theorem raisesFaults_writeSelector (sz : OpSize) (rm : Rm) (v : BitVec 16) (s : State) :
    RaisesFaults (writeSelector sz rm v s) := by
  cases rm with
  | reg i => cases sz <;> exact raisesFaults_ok _
  | mem m => exact raisesFaults_dataWrite s _ _ _ _

/-- A load raises what reading its operand raises. -/
theorem raisesFaults_loadReg (sz : Size) (i : RegNum) (s : State) {r : Result Word} (h : RaisesFaults r) :
    RaisesFaults (loadReg sz i s r) := by
  cases r with
  | ok v => exact raisesFaults_ok _
  | error e =>
    rintro e' ⟨⟩
    exact h e' rfl

/-! ## Exceptions as outcomes -/

/-- An entry is never a fault. -/
theorem enterOutcome_ne_fault (v : Byte) (ip : Word) (s : State) (f : Fault) : enterOutcome v ip s ≠ .fault f := by
  unfold enterOutcome
  split <;> simp

/-- Taking an exception is a fault exactly with the entry off, and then the fault of that exception and `ip` (R220). -/
theorem takeException_eq_fault {e : Exc} {ip : Word} {s : State} {f : Fault} :
    takeException e ip s = .fault f ↔ s.cfg.modelTrapEntry = false ∧ f = .exception e ip := by
  by_cases hon : s.cfg.modelTrapEntry = true
  · simp [takeException, hon, enterOutcome_ne_fault]
  · rw [takeException, if_neg hon, Host.Outcome.fault.injEq]
    exact ⟨fun h => ⟨Bool.eq_false_iff.2 hon, h.symm⟩, fun h => h.2.symm⟩

/-! ## Instructions -/

/-- An outcome from `s` is a fault only with the entry off, of one of these exceptions, with the `ip` of `s`. -/
def EndsInFault (s : State) (o : Outcome) : Prop :=
  ∀ e ip, o = .fault (.exception e ip) → s.cfg.modelTrapEntry = false ∧ IsInstrFault e ∧ ip = s.ip

section
variable {s : State} {o o' : Outcome} {c : Prop} [Decidable c]

theorem endsInFault_next (t : State) : EndsInFault s (.next t) := fun _ _ h => nomatch h

theorem endsInFault_refused (r : Refusal) : EndsInFault s (.refused r) := fun _ _ h => nomatch h

theorem endsInFault_ite (h : EndsInFault s o) (h' : EndsInFault s o') : EndsInFault s (if c then o else o') := by
  split
  · exact h
  · exact h'

theorem endsInFault_raiseFault {e : Exc} (he : IsInstrFault e) : EndsInFault s (raiseFault e s) := by
  intro e' ip h
  obtain ⟨hoff, heq⟩ := takeException_eq_fault.1 h
  cases heq
  exact ⟨hoff, he, rfl⟩

theorem endsInFault_invalidOpcode : EndsInFault s (raiseFault .invalidOpcode s) :=
  endsInFault_raiseFault isInstrFault_invalidOpcode

/-- An instruction ends in the fault its effect raises. -/
theorem endsInFault_finish (len : Nat) {r : Result State} (h : RaisesFaults r) : EndsInFault s (finish len s r) := by
  rcases r with (e | x) | t
  · exact endsInFault_raiseFault (h e rfl)
  · exact endsInFault_refused x
  · exact endsInFault_next _

theorem endsInFault_finishSegLoad (len : Nat) (sr : SReg) {r : Result Word} (h : RaisesFaults r) :
    EndsInFault s (finishSegLoad len sr s r) := by
  rcases r with (e | x) | v
  · exact endsInFault_raiseFault (h e rfl)
  · exact endsInFault_refused x
  · exact endsInFault_next _

/-- The guard of the special-register moves adds only InvalidOpcode and a refusal (R180, R194). -/
theorem endsInFault_guardSpecial (md : BitVec 2) (h : EndsInFault s o) : EndsInFault s (guardSpecial md s o) :=
  endsInFault_ite (endsInFault_ite endsInFault_invalidOpcode h) (endsInFault_refused _)

end

theorem endsInFault_recordSegment (j : SReg) (s : State) : EndsInFault s (recordSegment j s) := by
  unfold recordSegment
  split
  · exact endsInFault_next _
  · exact endsInFault_ite (endsInFault_next _) (endsInFault_refused _)

theorem endsInFault_loadMoffs (sz : Size) (a : Moffs) (s : State) : EndsInFault s (loadMoffs sz a s) :=
  endsInFault_ite (endsInFault_finish _ (raisesFaults_loadReg _ _ _ (raisesFaults_segRead _ _ _ _)))
    (endsInFault_refused _)

theorem endsInFault_storeMoffs (sz : Size) (a : Moffs) (s : State) : EndsInFault s (storeMoffs sz a s) :=
  endsInFault_ite (endsInFault_finish _ (raisesFaults_dataWrite _ _ _ _ _)) (endsInFault_refused _)

/-- Every instruction but the breakpoint instruction ends in a fault only with the entry off, of vector 6, 12 or 13, and
with the `ip` of its first byte (R212 to R214, R220). -/
theorem exec_endsInFault {i : Instr} (hi : i ≠ .breakpoint) (s : State) : EndsInFault s (exec i s) := by
  cases i with
  | breakpoint => exact absurd rfl hi
  | prefixOperandSize | prefixAddressSize | prefixLock | prefixRepne | prefixRep => exact endsInFault_next _
  | prefixEs | prefixCs | prefixSs | prefixDs | prefixFs | prefixGs => exact endsInFault_recordSegment _ s
  | movRm8R8 | movRmR | movRm8Imm8 | movRmImm => exact endsInFault_finish _ (raisesFaults_writeRm _ _ _ _)
  | movR8Rm8 | movRRm =>
    exact endsInFault_finish _ (raisesFaults_loadReg _ _ _ (raisesFaults_readRm _ _ _))
  | movR8Imm8 | movRImm => exact endsInFault_finish _ (raisesFaults_ok _)
  | movRm16Sreg sz ops =>
    refine endsInFault_ite ?_ (endsInFault_refused _)
    cases ops with
    | invalid => exact endsInFault_invalidOpcode
    | valid sr rm => exact endsInFault_finish _ (raisesFaults_writeSelector _ _ _ _)
  | movSregRm16 ops =>
    refine endsInFault_ite ?_ (endsInFault_refused _)
    cases ops with
    | invalid => exact endsInFault_invalidOpcode
    | valid sr rm =>
      exact endsInFault_ite endsInFault_invalidOpcode (endsInFault_finishSegLoad _ _ (raisesFaults_readRm _ _ _))
  | movAlMoffs | movAxMoffs => exact endsInFault_loadMoffs _ _ s
  | movMoffsAl | movMoffsAx => exact endsInFault_storeMoffs _ _ s
  | reservedC6 | reservedC7 | ltr => exact endsInFault_invalidOpcode
  | movRCr md | movRDr md =>
    refine endsInFault_guardSpecial md ?_
    split
    · exact endsInFault_invalidOpcode
    · exact endsInFault_next _
  | movCrR md =>
    refine endsInFault_guardSpecial md ?_
    split
    · exact endsInFault_invalidOpcode
    · exact endsInFault_ite (endsInFault_refused _) (endsInFault_ite (endsInFault_refused _) (endsInFault_next _))
  | movDrR md =>
    refine endsInFault_guardSpecial md ?_
    split
    · exact endsInFault_invalidOpcode
    · exact endsInFault_ite (endsInFault_refused _) (endsInFault_next _)
  | movRTr md => exact endsInFault_guardSpecial md (endsInFault_ite (endsInFault_next _) endsInFault_invalidOpcode)
  | movTrR md => exact endsInFault_guardSpecial md (endsInFault_ite (endsInFault_refused _) endsInFault_invalidOpcode)

/-- Settles O56: taking an exception is a fault exactly with the entry off, and only the breakpoint instruction takes
another than an invalid opcode or an access beyond a limit. -/
theorem terminalFaults : Obligations.TerminalFaults := by
  unfold Obligations.TerminalFaults
  refine fun s => ⟨fun hoff => ?_, fun i e ip h => ?_⟩
  · exact ⟨fun e => takeException_eq_fault.2 ⟨hoff, rfl⟩, takeException_eq_fault.2 ⟨hoff, rfl⟩⟩
  · by_cases hi : i = .breakpoint
    · subst hi
      obtain ⟨hoff, heq⟩ := takeException_eq_fault.1 h
      cases heq
      exact ⟨hoff, .inl ⟨rfl, rfl, rfl⟩⟩
    · obtain ⟨hoff, he, hip⟩ := exec_endsInFault hi s e ip h
      exact ⟨hoff, .inr ⟨hi, he, hip⟩⟩

end Sys2Proof.Proofs

/-! # The bytes an instruction was read from

Whatever the decoder reads as an instruction, the bytes it read are that instruction's encoding. Each reader is said to
yield a part of an instruction together with the bytes left, and what holds of the two is put together as the decoder
goes on. Lock and repeat prefixes play no part in this: that there are none before an instruction is known afterwards,
from what `decode_encode_gated` says of an encoding. -/

namespace Sys2Proof.Proofs

open Sys2Proof.Machine
open Sys2Proof.Claims

/-! ## Decoding an encoding -/

/-- Settles O1: the decoder reads exactly the encoding, whatever follows it. -/
theorem decodeOfEncodeIsTheInstruction : Obligations.DecodeOfEncodeIsTheInstruction := by
  unfold Obligations.DecodeOfEncodeIsTheInstruction
  intro i p rest hwf hfit
  exact (decodes_encode i p hwf hfit).instr rest

/-! ## What was read -/

/-- If `x` reads a part of an instruction, `Q` holds of it and of the bytes after it. -/
def Yields {α : Type} (x : Parsed α) (Q : α → List Byte → Prop) : Prop := ∀ a rest, x = .ok a rest → Q a rest

/-- If `d` is an instruction, `Q` holds of it and of the bytes after it. -/
def Gives (d : Decoded) (Q : Instr → List Byte → Prop) : Prop := ∀ i rest, d = .instr i rest → Q i rest

section
variable {α β : Type} {x y : Parsed α} {P : α → List Byte → Prop} {Q : β → List Byte → Prop}

theorem yields_ok {a : α} {rest : List Byte} (h : P a rest) : Yields (.ok a rest) P := by
  rintro _ _ ⟨⟩
  exact h

theorem yields_truncated : Yields .truncated P := by
  rintro _ _ ⟨⟩

theorem yields_refused (r : DecodeRefusal) : Yields (.refused r) P := by
  rintro _ _ ⟨⟩

theorem yields_thenRead {k : α → List Byte → Parsed β} (h : Yields x P)
    (hk : ∀ a rest, P a rest → Yields (k a rest) Q) : Yields (x.thenRead k) Q := by
  cases x with
  | ok a rest => exact hk a rest (h a rest rfl)
  | truncated => exact yields_truncated
  | refused r => exact yields_refused r

/-- A part that is wrapped up. -/
theorem yields_map {w : α → β} (h : Yields x P) (hw : ∀ a rest, P a rest → Q (w a) rest) :
    Yields (x.thenRead fun a rest => .ok (w a) rest) Q :=
  yields_thenRead h fun a rest ha => yields_ok (hw a rest ha)

/-- Two parts, the second behind the first. -/
theorem yields_pair {take : List Byte → Parsed β} {R : List Byte → β → List Byte → Prop} (h : Yields x P)
    (htake : ∀ bs, Yields (take bs) (R bs)) :
    Yields (x.thenRead fun a rest => (take rest).thenRead fun b rest => .ok (a, b) rest)
      fun ab rest => ∃ mid, P ab.1 mid ∧ R mid ab.2 rest :=
  yields_thenRead h fun _ mid ha => yields_map (htake mid) fun _ _ hb => ⟨mid, ha, hb⟩

theorem yields_ite {c : Prop} [Decidable c] (h : c → Yields x P) (h' : ¬c → Yields y P) :
    Yields (if c then x else y) P := by
  split
  next hc => exact h hc
  next hc => exact h' hc

end

section
variable {d d' : Decoded} {Q : Instr → List Byte → Prop}

theorem gives_instr {i : Instr} {rest : List Byte} (h : Q i rest) : Gives (.instr i rest) Q := by
  rintro _ _ ⟨⟩
  exact h

theorem gives_truncated : Gives .truncated Q := by
  rintro _ _ ⟨⟩

theorem gives_invalidOpcode : Gives .invalidOpcode Q := by
  rintro _ _ ⟨⟩

theorem gives_refused (r : DecodeRefusal) : Gives (.refused r) Q := by
  rintro _ _ ⟨⟩

theorem gives_ite {c : Prop} [Decidable c] (h : c → Gives d Q) (h' : ¬c → Gives d' Q) :
    Gives (if c then d else d') Q := by
  split
  next hc => exact h hc
  next hc => exact h' hc

/-- The gate lets an instruction through unchanged or answers no instruction at all. -/
theorem gives_gatePrefixes {p : Prefixes} (h : Gives d Q) : Gives (gatePrefixes p d) Q :=
  gives_ite (fun _ => gives_refused _) fun _ => gives_ite (fun _ => gives_invalidOpcode) fun _ => h

/-- The last part makes up the instruction. -/
theorem gives_toDecoded {α : Type} {x : Parsed α} {P : α → List Byte → Prop} {w : α → Instr} (h : Yields x P)
    (hw : ∀ a rest, P a rest → Q (w a) rest) : Gives (x.toDecoded w) Q := by
  cases x with
  | ok a rest => exact gives_instr (hw a rest (h a rest rfl))
  | truncated => exact gives_truncated
  | refused r => exact gives_refused r

end

/-! ## Displacements, immediates and offsets -/

theorem yields_take8 (bs : List Byte) : Yields (take8 bs) fun d rest => bs = d :: rest := by
  cases bs with
  | nil => exact yields_truncated
  | cons b bs => exact yields_ok rfl

theorem bytes16_append (b0 b1 : Byte) : bytes16 (b1 ++ b0) = [b0, b1] := by
  rw [bytes16, BitVec.extractLsb'_append_eq_right, BitVec.extractLsb'_append_eq_left]

theorem bytes32_append (b0 b1 b2 b3 : Byte) : bytes32 (b3 ++ b2 ++ b1 ++ b0) = [b0, b1, b2, b3] := by
  simp only [bytes32, BitVec.extractLsb'_append_eq_of_le, BitVec.extractLsb'_append_eq_right,
    BitVec.extractLsb'_eq_self, Nat.reduceLeDiff, Nat.reduceSub]

theorem yields_take16 (bs : List Byte) : Yields (take16 bs) fun v rest => bs = bytes16 v ++ rest := by
  match bs with
  | [] | [_] => exact yields_truncated
  | b0 :: b1 :: bs => exact yields_ok (by rw [bytes16_append]; rfl)

theorem yields_take32 (bs : List Byte) : Yields (take32 bs) fun v rest => bs = bytes32 v ++ rest := by
  match bs with
  | [] | [_] | [_, _] | [_, _, _] => exact yields_truncated
  | b0 :: b1 :: b2 :: b3 :: bs => exact yields_ok (by rw [bytes32_append]; rfl)

/-- Three values of `mod` are left to a memory operand. -/
theorem mod_eq_zero {md : BitVec 2} (h1 : md ≠ 1#2) (h2 : md ≠ 2#2) (h3 : md ≠ 3#2) : md = 0#2 := by
  revert md; decide

theorem yields_takeDisp16 {md : BitVec 2} (hmd : md ≠ 3#2) (bs : List Byte) :
    Yields (takeDisp16 md bs) fun d rest => md = d.md ∧ bs = d.encode ++ rest := by
  refine yields_ite (fun h1 => ?_) fun h1 => yields_ite (fun h2 => ?_) fun h2 => ?_
  · exact yields_map (yields_take8 bs) fun d rest h => ⟨h1, h⟩
  · exact yields_map (yields_take16 bs) fun d rest h => ⟨h2, h⟩
  · exact yields_ok ⟨mod_eq_zero h1 h2 hmd, rfl⟩

theorem yields_takeDisp32 {md : BitVec 2} (hmd : md ≠ 3#2) (bs : List Byte) :
    Yields (takeDisp32 md bs) fun d rest => md = d.md ∧ bs = d.encode ++ rest := by
  refine yields_ite (fun h1 => ?_) fun h1 => yields_ite (fun h2 => ?_) fun h2 => ?_
  · exact yields_map (yields_take8 bs) fun d rest h => ⟨h1, h⟩
  · exact yields_map (yields_take32 bs) fun d rest h => ⟨h2, h⟩
  · exact yields_ok ⟨mod_eq_zero h1 h2 hmd, rfl⟩

theorem yields_decodeImmW (p : Prefixes) (bs : List Byte) :
    Yields (decodeImmW p bs) fun v rest => v.size = p.opSize ∧ bs = v.encode ++ rest := by
  unfold decodeImmW
  cases p.opSize with
  | o16 => exact yields_map (yields_take16 bs) fun v rest h => ⟨rfl, h⟩
  | o32 => exact yields_map (yields_take32 bs) fun v rest h => ⟨rfl, h⟩

theorem yields_decodeMoffs (p : Prefixes) (bs : List Byte) :
    Yields (decodeMoffs p bs) fun a rest => a.addr32 = p.ad32 ∧ bs = a.encode ++ rest :=
  yields_ite (fun had => yields_map (yields_take32 bs) fun _ _ h => ⟨had.symm, h⟩)
    fun had => yields_map (yields_take16 bs) fun _ _ h => ⟨(Bool.eq_false_iff.2 had).symm, h⟩

/-! ## Memory operands -/

/-- The memory operand `m` is well-formed and of the address size `addr32`. Its encoding, followed by `rest`, is the
addressing-mode byte with `mod` and `r/m`, whatever its `reg` field, and the bytes `bs` behind it. -/
structure MemOpRead (addr32 : Bool) (md : BitVec 2) (r : BitVec 3) (bs : List Byte) (m : MemOp) (rest : List Byte) :
    Prop where
  wf : m.wf = true
  addr : m.addr32 = addr32
  bytes : ∀ reg, packFields md reg r :: bs = m.encode reg ++ rest

theorem form16_code_ofCode (r : BitVec 3) : (Form16.ofCode r).code = r := by
  revert r; decide

theorem indexCode_indexOfCode (n : BitVec 3) : indexCode (indexOfCode n) = n := by
  revert n; decide

/-- An `index` field that is not refused is that of a well-formed SIB byte. -/
theorem indexWf_indexOfCode {scale : BitVec 2} {n : BitVec 3} (h : ¬(n = 4#3 ∧ scale ≠ 0#2)) :
    indexWf scale (indexOfCode n) = true := by
  revert scale n; decide

/-- A test for two things at once that do not hold at once fails. -/
theorem not_beq_and_eq_true {α : Type} [DecidableEq α] {x y : α} {c : Bool} (h : ¬(c = true ∧ x = y)) :
    (!(x == y && c)) = true := by
  rw [Bool.not_eq_true', Bool.eq_false_iff]
  intro hboth
  obtain ⟨hxy, hc⟩ := Bool.and_eq_true_iff.1 hboth
  exact h ⟨hc, beq_iff_eq.1 hxy⟩

/-- Outside the place of the direct form, a base register 101b has a displacement. -/
theorem base32_wf {d : Disp32} {b : RegNum} (h : ¬(d.md = 0#2 ∧ b = 5#3)) : (!(b == 5#3 && d.isNone)) = true := by
  rw [disp32_md_eq_zero] at h
  exact not_beq_and_eq_true h

theorem yields_decodeMem16 {md : BitVec 2} (hmd : md ≠ 3#2) (r : BitVec 3) (bs : List Byte) :
    Yields (decodeMem16 md r bs) (MemOpRead false md r bs) := by
  refine yields_ite (fun hdirect => ?_) fun hform => ?_
  · obtain ⟨rfl, rfl⟩ := hdirect
    exact yields_map (yields_take16 bs) fun d rest h => ⟨rfl, rfl, fun reg => congrArg _ h⟩
  · refine yields_map (yields_takeDisp16 hmd bs) fun d rest h => ?_
    obtain ⟨rfl, rfl⟩ := h
    have hwf : (MemOp.form16 (Form16.ofCode r) d).wf = true := by
      rw [disp16_md_eq_zero, ← form16_code_ofCode r, form16_code_eq_six] at hform
      exact not_beq_and_eq_true hform
    exact ⟨hwf, rfl, fun reg => by rw [MemOp.encode, form16_code_ofCode, List.cons_append]⟩

theorem yields_decodeSib {md : BitVec 2} (hmd : md ≠ 3#2) (sib : Byte) (bs : List Byte) :
    Yields (decodeSib md sib bs) (MemOpRead true md 4#3 (sib :: bs)) := by
  have hsib : packFields (field76 sib) (indexCode (indexOfCode (field53 sib))) (field20 sib) = sib := by
    rw [indexCode_indexOfCode, packFields_fields]
  refine yields_ite (fun _ => yields_refused _) fun hscale => yields_ite (fun hnoBase => ?_) fun hbase => ?_
  · obtain ⟨rfl, hfive⟩ := hnoBase
    refine yields_map (yields_take32 bs) fun d rest h => ⟨indexWf_indexOfCode hscale, rfl, fun reg => ?_⟩
    rw [MemOp.encode, ← hfive, hsib, h, List.cons_append, List.cons_append]
  · refine yields_map (yields_takeDisp32 hmd bs) fun d rest h => ?_
    obtain ⟨rfl, rfl⟩ := h
    refine ⟨Bool.and_eq_true_iff.2 ⟨indexWf_indexOfCode hscale, base32_wf hbase⟩, rfl, fun reg => ?_⟩
    rw [MemOp.encode, hsib, List.cons_append, List.cons_append]

theorem yields_decodeMem32 {md : BitVec 2} (hmd : md ≠ 3#2) (r : BitVec 3) (bs : List Byte) :
    Yields (decodeMem32 md r bs) (MemOpRead true md r bs) := by
  refine yields_ite (fun hsib => ?_) fun hsib => yields_ite (fun hdirect => ?_) fun hbase => ?_
  · obtain rfl := hsib
    refine yields_thenRead (yields_take8 bs) fun sib rest h => ?_
    obtain rfl := h
    exact yields_decodeSib hmd sib rest
  · obtain ⟨rfl, rfl⟩ := hdirect
    exact yields_map (yields_take32 bs) fun d rest h => ⟨rfl, rfl, fun reg => congrArg _ h⟩
  · refine yields_map (yields_takeDisp32 hmd bs) fun d rest h => ?_
    obtain ⟨rfl, rfl⟩ := h
    exact ⟨Bool.and_eq_true_iff.2 ⟨bne_iff_ne.2 hsib, base32_wf hbase⟩, rfl, fun reg => rfl⟩

/-- The `mod`+`r/m` operand `rm` is well-formed and of the address size of the prefixes. Its encoding, followed by
`rest`, is the addressing-mode byte with `mod` and `r/m`, whatever its `reg` field, and the bytes `bs` behind it. -/
structure RmRead (p : Prefixes) (md : BitVec 2) (r : BitVec 3) (bs : List Byte) (rm : Rm) (rest : List Byte) :
    Prop where
  wf : rm.wf = true
  addr : ∀ a, rm.addr32? = some a → a = p.ad32
  bytes : ∀ reg, packFields md reg r :: bs = rm.encode reg ++ rest

theorem yields_decodeRm (p : Prefixes) (md : BitVec 2) (r : BitVec 3) (bs : List Byte) :
    Yields (decodeRm p md r bs) (RmRead p md r bs) := by
  refine yields_ite (fun hreg => ?_) fun hmem => ?_
  · obtain rfl := hreg
    exact yields_ok ⟨rfl, nofun, fun reg => rfl⟩
  · have hread : Yields (if p.ad32 then decodeMem32 md r bs else decodeMem16 md r bs) (MemOpRead p.ad32 md r bs) := by
      cases p.ad32 with
      | false => exact yields_decodeMem16 hmem r bs
      | true => exact yields_decodeMem32 hmem r bs
    refine yields_map hread fun m rest h => ⟨h.wf, ?_, h.bytes⟩
    rintro _ ⟨⟩
    exact h.addr

/-! ## Segment-register operands -/

/-- The operands `ops` of 8Ch or 8Eh meet `wf` and are of the address size of the prefixes. Their encoding, followed by
`rest`, is the addressing-mode byte with its three fields and the bytes `bs` behind it. -/
structure SregRead (wf : SregOps → Bool) (p : Prefixes) (md : BitVec 2) (reg r : BitVec 3) (bs : List Byte)
    (ops : SregOps) (rest : List Byte) : Prop where
  wf : wf ops = true
  addr : ∀ a, ops.addr32? = some a → a = p.ad32
  bytes : packFields md reg r :: bs = ops.encode ++ rest

theorem sreg_code_ofCode {n : BitVec 3} {sr : SReg} (h : SReg.ofCode n = some sr) : sr.code = n := by
  revert n sr; decide

/-- Two values of `reg` name no segment register (R31). -/
theorem sreg_ofCode_eq_none {n : BitVec 3} (h : SReg.ofCode n = none) : n = 6#3 ∨ n = 7#3 := by
  revert n; decide

/-- The operands behind any `reg` field are those of 8Ch or of 8Eh (`wf`), as far as what the field names is. -/
theorem yields_decodeSregSource_of {wf : SregOps → Bool} (p : Prefixes) (md : BitVec 2) (reg r : BitVec 3)
    (bs : List Byte) (hvalid : ∀ sr rm, sr.code = reg → rm.wf = true → wf (.valid sr rm) = true)
    (hinvalid : reg = 6#3 ∨ reg = 7#3 → wf (.invalid md reg r) = true) :
    Yields (decodeSregSource p md reg r bs) (SregRead wf p md reg r bs) := by
  unfold decodeSregSource
  cases hsr : SReg.ofCode reg with
  | none => exact yields_ok ⟨hinvalid (sreg_ofCode_eq_none hsr), nofun, rfl⟩
  | some sr =>
    have hcode : sr.code = reg := sreg_code_ofCode hsr
    refine yields_map (yields_decodeRm p md r bs) fun rm rest h => ⟨hvalid sr rm hcode h.wf, h.addr, ?_⟩
    rw [SregOps.encode, hcode, h.bytes]

theorem yields_decodeSregSource (p : Prefixes) (md : BitVec 2) (reg r : BitVec 3) (bs : List Byte) :
    Yields (decodeSregSource p md reg r bs) (SregRead SregOps.sourceWf p md reg r bs) :=
  yields_decodeSregSource_of p md reg r bs (fun _ _ _ hrm => hrm) fun hreg => by
    rcases hreg with rfl | rfl
    · rfl
    · rfl

/-- CS is no destination. -/
theorem yields_decodeSregDest (p : Prefixes) (md : BitVec 2) (reg r : BitVec 3) (bs : List Byte) :
    Yields (decodeSregDest p md reg r bs) (SregRead SregOps.destWf p md reg r bs) := by
  refine yields_ite (fun hcs => ?_) fun hcs => yields_decodeSregSource_of p md reg r bs (fun sr rm hsr hrm => ?_) ?_
  · obtain rfl := hcs
    exact yields_ok ⟨rfl, nofun, rfl⟩
  · have hne : sr ≠ .cs := fun h => hcs (by rw [← hsr, h]; rfl)
    exact Bool.and_eq_true_iff.2 ⟨bne_iff_ne.2 hne, hrm⟩
  · rintro (rfl | rfl)
    · rfl
    · rfl

/-! ## Instructions -/

/-- The instruction `i` is well-formed and of the sizes of the prefixes. Its encoding, followed by `rest`, is `bs`. -/
structure IsEncoding (p : Prefixes) (bs : List Byte) (i : Instr) (rest : List Byte) : Prop where
  wf : i.wf = true
  sizes : SizesFit p i
  bytes : bs = encode i ++ rest

section
variable {p : Prefixes} {op : Byte} {l : List Byte}

/-- The byte behind `head` is the one the opcode map tests for, if the test succeeds. -/
theorem gives_byte (head : List Byte) {b c : Byte} {d d' : Decoded} (h : Gives d (IsEncoding p (head ++ c :: l)))
    (h' : Gives d' (IsEncoding p (head ++ b :: l))) :
    Gives (if b = c then d else d') (IsEncoding p (head ++ b :: l)) :=
  gives_ite (fun hb => hb ▸ h) fun _ => h'

/-- The fields of the addressing-mode byte behind `head` make up that byte. -/
theorem gives_withModRm (head : List Byte) {k : BitVec 2 → BitVec 3 → BitVec 3 → List Byte → Decoded}
    (h : ∀ md reg r rest, Gives (k md reg r rest) (IsEncoding p (head ++ packFields md reg r :: rest))) :
    Gives (withModRm p l k) (IsEncoding p (head ++ l)) := by
  cases l with
  | nil => exact gives_truncated
  | cons b rest =>
    have hb := h (field76 b) (field53 b) (field20 b) rest
    rw [packFields_fields] at hb
    exact gives_gatePrefixes hb

/-- A `mod`+`r/m` operand alone. -/
theorem gives_rm {w : BitVec 3 → Rm → Instr} (hwf : ∀ reg rm, (w reg rm).wf = rm.wf)
    (haddr : ∀ reg rm, (w reg rm).addr32? = rm.addr32?)
    (hsize : ∀ reg rm sz, (w reg rm).opSize? = some sz → sz = p.opSize)
    (henc : ∀ reg rm, encode (w reg rm) = op :: rm.encode reg) :
    Gives (withModRm p l fun md reg r rest => (decodeRm p md r rest).toDecoded (w reg)) (IsEncoding p (op :: l)) :=
  gives_withModRm [op] fun md reg r rest =>
    gives_toDecoded (yields_decodeRm p md r rest) fun rm rest h =>
      ⟨(hwf reg rm).trans h.wf, ⟨hsize reg rm, haddr reg rm ▸ h.addr⟩,
        by rw [henc, h.bytes reg]; rfl⟩

theorem gives_decodeC6 (md : BitVec 2) (reg r : BitVec 3) :
    Gives (decodeC6 p md reg r l) (IsEncoding p (0xC6#8 :: packFields md reg r :: l)) := by
  refine gives_ite (fun hreg => ?_) fun hreg => ?_
  · obtain rfl := hreg
    refine gives_toDecoded (yields_pair (yields_decodeRm p md r l) yields_take8) fun x rest h => ?_
    obtain ⟨mid, hrm, rfl⟩ := h
    refine ⟨hrm.wf, ⟨nofun, hrm.addr⟩, ?_⟩
    rw [hrm.bytes, encode, List.cons_append, List.append_assoc]
    rfl
  · exact gives_instr ⟨bne_iff_ne.2 hreg, ⟨nofun, nofun⟩, rfl⟩

theorem gives_decodeC7 (md : BitVec 2) (reg r : BitVec 3) :
    Gives (decodeC7 p md reg r l) (IsEncoding p (0xC7#8 :: packFields md reg r :: l)) := by
  refine gives_ite (fun hreg => ?_) fun hreg => ?_
  · obtain rfl := hreg
    refine gives_toDecoded (yields_pair (yields_decodeRm p md r l) (yields_decodeImmW p)) fun x rest h => ?_
    obtain ⟨mid, hrm, hsize, rfl⟩ := h
    have hsizes : SizesFit p (.movRmImm x.1 x.2) := by
      refine ⟨?_, hrm.addr⟩
      rintro _ ⟨⟩
      exact hsize
    refine ⟨hrm.wf, hsizes, ?_⟩
    rw [hrm.bytes, encode, List.cons_append, List.append_assoc]
  · exact gives_instr ⟨bne_iff_ne.2 hreg, ⟨nofun, nofun⟩, rfl⟩

/-- The operands of 8Ch and 8Eh. -/
theorem gives_sreg {wf : SregOps → Bool} {take : BitVec 2 → BitVec 3 → BitVec 3 → List Byte → Parsed SregOps}
    {w : SregOps → Instr} (htake : ∀ md reg r bs, Yields (take md reg r bs) (SregRead wf p md reg r bs))
    (hwf : ∀ ops, (w ops).wf = wf ops) (haddr : ∀ ops, (w ops).addr32? = ops.addr32?)
    (hsize : ∀ ops sz, (w ops).opSize? = some sz → sz = p.opSize) (henc : ∀ ops, encode (w ops) = op :: ops.encode) :
    Gives (withModRm p l fun md reg r rest => (take md reg r rest).toDecoded w) (IsEncoding p (op :: l)) :=
  gives_withModRm [op] fun md reg r rest =>
    gives_toDecoded (htake md reg r rest) fun ops rest h =>
      ⟨(hwf ops).trans h.wf, ⟨hsize ops, haddr ops ▸ h.addr⟩, by rw [henc, h.bytes]; rfl⟩

/-- A memory offset alone. -/
theorem gives_moffs {w : Moffs → Instr} (hwf : ∀ a, (w a).wf = true) (haddr : ∀ a, (w a).addr32? = some a.addr32)
    (hsize : ∀ a sz, (w a).opSize? = some sz → sz = p.opSize) (henc : ∀ a, encode (w a) = op :: a.encode) :
    Gives (gatePrefixes p ((decodeMoffs p l).toDecoded w)) (IsEncoding p (op :: l)) := by
  refine gives_gatePrefixes (gives_toDecoded (yields_decodeMoffs p l) fun a rest h => ?_)
  obtain ⟨had, rfl⟩ := h
  refine ⟨hwf a, ⟨hsize a, ?_⟩, by rw [henc, List.cons_append]⟩
  rw [haddr]
  rintro _ ⟨⟩
  exact had

/-- A special-register move: the addressing-mode byte is all that follows its two opcode bytes (R187). -/
theorem gives_special {w : BitVec 2 → BitVec 3 → BitVec 3 → Instr} (hwf : ∀ md n r, (w md n r).wf = true)
    (haddr : ∀ md n r, (w md n r).addr32? = none) (hsize : ∀ md n r, (w md n r).opSize? = none)
    (henc : ∀ md n r, encode (w md n r) = [0x0F#8, op, packFields md n r]) :
    Gives (withModRm p l fun md n r rest => .instr (w md n r) rest) (IsEncoding p (0x0F#8 :: op :: l)) :=
  gives_withModRm [0x0F#8, op] fun md n r rest => gives_instr
    ⟨hwf md n r, ⟨by rw [hsize]; exact nofun, by rw [haddr]; exact nofun⟩, by rw [henc]; rfl⟩

end

theorem gives_decode0F00 (p : Prefixes) (l : List Byte) :
    Gives (decode0F00 p l) (IsEncoding p (0x0F#8 :: 0x00#8 :: l)) := by
  cases l with
  | nil => exact gives_truncated
  | cons b rest =>
    refine gives_ite (fun hreg => gives_gatePrefixes (gives_instr ⟨rfl, ⟨nofun, nofun⟩, ?_⟩)) fun _ => gives_refused _
    rw [encode, ← hreg, packFields_fields]
    rfl

theorem gives_decode0F (p : Prefixes) (l : List Byte) : Gives (decode0F p l) (IsEncoding p (0x0F#8 :: l)) := by
  cases l with
  | nil => exact gives_truncated
  | cons b rest =>
    refine gives_byte [0x0F#8] (gives_decode0F00 p rest) ?_
    iterate 6
      refine gives_byte [0x0F#8] ?_ ?_
      · exact gives_special (fun _ _ _ => rfl) (fun _ _ _ => rfl) (fun _ _ _ => rfl) fun _ _ _ => rfl
    exact gives_refused _

/-- The five high bits and the register make up the byte (R119). -/
theorem opcodeRegister_append (b : Byte) : b.extractLsb' 3 5 ++ field20 b = b := by
  revert b; decide

theorem gives_decodeRegImm (p : Prefixes) (b : Byte) (l : List Byte) :
    Gives (decodeRegImm p b l) (IsEncoding p (b :: l)) := by
  have hb := opcodeRegister_append b
  refine gives_ite (fun h8 => ?_) fun _ => gives_ite (fun hw => ?_) fun _ => gives_refused _
  · rw [h8] at hb
    refine gives_gatePrefixes (gives_toDecoded (yields_take8 l) fun v rest h => ⟨rfl, ⟨nofun, nofun⟩, ?_⟩)
    rw [encode, hb, h]
    rfl
  · rw [hw] at hb
    refine gives_gatePrefixes (gives_toDecoded (yields_decodeImmW p l) fun v rest h => ?_)
    obtain ⟨hsize, rfl⟩ := h
    refine ⟨rfl, ⟨?_, nofun⟩, by rw [encode, hb]; rfl⟩
    rintro _ ⟨⟩
    exact hsize

theorem gives_decodeOpcode (p : Prefixes) (b : Byte) (l : List Byte) :
    Gives (decodeOpcode p b l) (IsEncoding p (b :: l)) := by
  have hopSize (sz : OpSize) (h : some p.opSize = some sz) : sz = p.opSize := (Option.some.inj h).symm
  refine gives_byte [] (gives_rm (fun _ _ => rfl) (fun _ _ => rfl) nofun fun _ _ => rfl) ?_
  refine gives_byte [] (gives_rm (fun _ _ => rfl) (fun _ _ => rfl) (fun _ _ => hopSize) fun _ _ => rfl) ?_
  refine gives_byte [] (gives_rm (fun _ _ => rfl) (fun _ _ => rfl) nofun fun _ _ => rfl) ?_
  refine gives_byte [] (gives_rm (fun _ _ => rfl) (fun _ _ => rfl) (fun _ _ => hopSize) fun _ _ => rfl) ?_
  refine gives_byte [] (gives_sreg (yields_decodeSregSource p) (fun _ => rfl) (fun _ => rfl) (fun _ => hopSize)
    fun _ => rfl) ?_
  refine gives_byte [] (gives_sreg (yields_decodeSregDest p) (fun _ => rfl) (fun _ => rfl) nofun fun _ => rfl) ?_
  refine gives_byte [] (gives_moffs (fun _ => rfl) (fun _ => rfl) nofun fun _ => rfl) ?_
  refine gives_byte [] (gives_moffs (fun _ => rfl) (fun _ => rfl) (fun _ => hopSize) fun _ => rfl) ?_
  refine gives_byte [] (gives_moffs (fun _ => rfl) (fun _ => rfl) nofun fun _ => rfl) ?_
  refine gives_byte [] (gives_moffs (fun _ => rfl) (fun _ => rfl) (fun _ => hopSize) fun _ => rfl) ?_
  refine gives_byte [] (gives_withModRm [0xC6#8] fun md reg r _ => gives_decodeC6 md reg r) ?_
  refine gives_byte [] (gives_withModRm [0xC7#8] fun md reg r _ => gives_decodeC7 md reg r) ?_
  refine gives_byte [] (gives_gatePrefixes (gives_instr ⟨rfl, ⟨nofun, nofun⟩, rfl⟩)) ?_
  exact gives_byte [] (gives_decode0F p l) (gives_decodeRegImm p b l)

/-- Whatever the decoder reads as an instruction, the bytes read are its encoding. -/
theorem gives_decode (p : Prefixes) (bs : List Byte) : Gives (decode p bs) (IsEncoding p bs) := by
  cases bs with
  | nil => exact gives_truncated
  | cons b l =>
    iterate 11 refine gives_byte [] (gives_instr ⟨rfl, ⟨nofun, nofun⟩, rfl⟩) ?_
    exact gives_decodeOpcode p b l

/-- An instruction let through has no lock and no repeat prefix before it (R102, R113 (d)). -/
theorem gatePrefixes_eq_instr {p : Prefixes} {d : Decoded} {i : Instr} {rest : List Byte}
    (h : gatePrefixes p d = .instr i rest) : p.lock = false ∧ p.rep = false := by
  unfold gatePrefixes at h
  split at h
  next => cases h
  next hrep =>
    split at h
    next => cases h
    next hlock => exact ⟨Bool.eq_false_iff.2 hlock, Bool.eq_false_iff.2 hrep⟩

/-- Settles O2: the bytes read are an encoding, and behind a lock or a repeat prefix an encoding is no instruction. -/
theorem decodedBytesAreTheEncoding : Obligations.DecodedBytesAreTheEncoding := by
  unfold Obligations.DecodedBytesAreTheEncoding
  intro p bs rest i h
  obtain ⟨hwf, hsizes, rfl⟩ := gives_decode p bs i rest h
  refine ⟨hwf, ⟨hsizes.1, hsizes.2, fun hpre => ?_⟩, rfl⟩
  rw [decode_encode_gated hwf hpre hsizes] at h
  exact gatePrefixes_eq_instr h

end Sys2Proof.Proofs

/-! # The reset state -/

namespace Sys2Proof.Proofs

open Sys2Proof.Machine
open Sys2Proof.Claims

/-- Settles O15: each value is computed from the reset state. -/
theorem resetState : Obligations.ResetState := by
  unfold Obligations.ResetState
  refine ⟨rfl, rfl, rfl, rfl, rfl, fun j hj => ?_, rfl, rfl, rfl, rfl, rfl⟩
  cases j with
  | cs => exact absurd rfl hj
  | es | ss | ds | fs | gs => rfl

end Sys2Proof.Proofs
